-- ==== Sys2Proof/Word.lean ====
section
/-! DEFINITION. The word types of the block (spec 00_scope.md R17, R18). -/

namespace Sys2Proof

/-- `u8`: every bus payload unit, register address, status and command byte (R17). -/
abbrev Byte := BitVec 8

/-- `u16`: settle code, samples, 2-byte registers (R17, R18). -/
abbrev U16 := BitVec 16

/-- `u24`: frequency codes (R17, R18). -/
abbrev U24 := BitVec 24

/-- `u32`: the frequency operands of CONFIGURE_SWEEP (30_encoding.md R71). -/
abbrev U32 := BitVec 32

end Sys2Proof
end

