-- ==== Sys2Proof/Config.lean ====
section
/-! DEFINITION. The parameters of the block (spec 00_scope.md R10 to R16) as plain data, their reference
values (92_eei_decisions.md D31), and the free values: opaque constants of which nothing is known. -/

namespace Sys2Proof

/-- `ACK_CHECK` (R15, 40_bus_primitives.md R104). -/
inductive AckCheck where
  | corrected
  | historical
  deriving DecidableEq, Repr, Inhabited

/-- `READ3` (R15, 41_register_access.md R150). -/
inductive Read3 where
  | combine
  | firstByte
  deriving DecidableEq, Repr, Inhabited

/-- `ERR_PROP` (R15, 41_register_access.md R142). -/
inductive ErrProp where
  | ignore
  | propagate
  deriving DecidableEq, Repr, Inhabited

/-- `STOP_OVERLAP` (R15, 40_bus_primitives.md R114). -/
inductive StopOverlap where
  | ordered
  | fault
  deriving DecidableEq, Repr, Inhabited

/-- `ROUND_TIE` (R15, 42_sweep_controller.md R171). -/
inductive RoundTie where
  | halfAwayFromZero
  | halfEven
  deriving DecidableEq, Repr, Inhabited

/-- The failure kinds of the typed-result view (R13, 60_exceptions.md R222). -/
inductive FailKind where
  | busNack
  | arbitrationLost
  | unexpectedStatus
  deriving DecidableEq, Repr, Inhabited

/-- The device registers the document names (R11). -/
inductive DevReg where
  | ctrlHi
  | ctrlLo
  | start
  | delta
  | nInc
  | settle
  | status
  | temp
  | real
  | imag
  deriving DecidableEq, Repr, Inhabited

/-- The access column of R11. The block never enforces it (20_memory.md R53). -/
inductive Access where
  | rw
  | ro
  deriving DecidableEq, Repr, Inhabited

/-- The base addresses of the device registers (R11): each a parameter. -/
structure RegMap where
  ctrlHi : Byte
  ctrlLo : Byte
  start : Byte
  delta : Byte
  nInc : Byte
  settle : Byte
  status : Byte
  temp : Byte
  real : Byte
  imag : Byte
  deriving DecidableEq, Repr, Inhabited

/-- The parameters a model of the block takes as an argument (R10 to R16).
They are held in the state as plain data, so that a statement about every state is a statement about every
value of every parameter (log entry 2). The two functions of R13 are lists of exceptions to a default, which
can write down every function on bytes (log entry 14). -/
structure Params where
  /-- `ADDR7` (R10). -/
  addr7 : BitVec 7
  /-- The register map (R11). -/
  regs : RegMap
  /-- `OP_POINTER`, `OP_BLOCK_WRITE`, `OP_BLOCK_READ` (R12). -/
  opPointer : Byte
  opBlockWrite : Byte
  opBlockRead : Byte
  /-- The control commands `CMD_…` (R12). -/
  cmdInit : Byte
  cmdStartSweep : Byte
  cmdIncrement : Byte
  cmdRepeat : Byte
  cmdMeasureTemp : Byte
  cmdPowerDown : Byte
  cmdStandby : Byte
  /-- The status-bit masks `MASK_…` (R12). -/
  maskTempValid : Byte
  maskDataValid : Byte
  maskSweepDone : Byte
  /-- `STATUS_CODE` (R13): a byte not listed maps to itself. -/
  statusCode : List (Byte × Byte)
  /-- `EXPECT_START`, `EXPECT_ADDR`, `EXPECT_DATA` (R13). -/
  expectStart : List Byte
  expectAddr : List Byte
  expectData : List Byte
  /-- `CLASSIFY` (R13): a byte not listed is `UnexpectedStatus`. -/
  classify : List (Byte × FailKind)
  /-- `SPEED_CLASSES` (R14). -/
  speedClasses : List Byte
  /-- The behaviour modes (R15). -/
  ackCheck : AckCheck
  read3 : Read3
  pollBudget : Option Nat
  errProp : ErrProp
  stopOverlap : StopOverlap
  roundTie : RoundTie
  /-- `K` (R16) as the fraction `kNum / kDen`. -/
  kNum : Nat
  kDen : Nat
  deriving DecidableEq, Repr, Inhabited

/-- The register addresses of the reference configuration (D31).
PRESUMED: the spec marks them as general knowledge, for test vectors only (log entry 2). -/
def RegMap.reference : RegMap where
  ctrlHi := 0x80
  ctrlLo := 0x81
  start := 0x82
  delta := 0x85
  nInc := 0x88
  settle := 0x8A
  status := 0x8F
  temp := 0x92
  real := 0x94
  imag := 0x96

/-- The reference configuration (D31; `CLASSIFY` from 60_exceptions.md R222).
PRESUMED: the spec marks the numbers as general knowledge (log entry 2). -/
def Params.reference : Params where
  addr7 := 0x0D
  regs := RegMap.reference
  opPointer := 0xB0
  opBlockWrite := 0xA0
  opBlockRead := 0xA1
  cmdInit := 0x10
  cmdStartSweep := 0x20
  cmdIncrement := 0x30
  cmdRepeat := 0x40
  cmdMeasureTemp := 0x90
  cmdPowerDown := 0xA0
  cmdStandby := 0xB0
  maskTempValid := 0x01
  maskDataValid := 0x02
  maskSweepDone := 0x04
  statusCode := []
  expectStart := [0x08, 0x10]
  expectAddr := [0x18, 0x40]
  expectData := [0x28]
  classify := [(0x20, .busNack), (0x30, .busNack), (0x48, .busNack), (0x38, .arbitrationLost)]
  speedClasses := [0, 1]
  ackCheck := .corrected
  read3 := .combine
  pollBudget := none
  errProp := .ignore
  stopOverlap := .ordered
  roundTie := .halfAwayFromZero
  kNum := 32002319
  kDen := 1000000

/-- `Div` (R14), the type of clock-divider values: uninterpreted, no rule reads one (log entry 13). -/
abbrev Div := Nat

/-- `DIVIDER` (R14): "an opaque function giving the clock-divider value programmed for a class".
No body: nothing can be proved about a value of it (log entry 13). -/
opaque Config.divider : Byte → Div

/-- The environment's answer to one launched action (40_bus_primitives.md R102, R103). -/
inductive EnvAnswer where
  /-- `Answer(s, d)`. `late` is the number of polls of the completion flag that still find it clear;
  it matters only under `POLL_BUDGET = some n`, where an answer later than the budget is a timeout (R103). -/
  | done (status data : Byte) (late : Nat)
  /-- `Wedged`: the action never completes. -/
  | wedged
  deriving DecidableEq, Repr, Inhabited

/-- FREE VALUE: the environment's answer to a launched action, one for each value of the counter
`env.draws` (R102, R115). No body (log entry 1). -/
opaque Config.envAnswer : Nat → EnvAnswer

/-- FREE VALUE: whether the environment acts of its own accord at a point where it may (`StopDone`, R114;
a completion that outlived the poll budget, R103). No body (log entries 11, 12). -/
opaque Config.envMoves : Nat → Bool

/-- FREE VALUE: the byte a reception returns when the reference slave is not addressed for reading, which
92_eei_decisions.md D39 does not say. No body (log entry 18). -/
opaque Config.unaddressedByte : Nat → Byte

end Sys2Proof
end

