-- ==== Sys2Proof/Machine/State.lean ====
section
/-! DEFINITION. The state of the block (10_state.md), of its client and of its environment, as plain data, the
reasons a step can stop, and the state at bring-up (70_reset_and_hazards.md R250). -/

namespace Sys2Proof.Machine

/-- A field that may hold the spec's value `unwritten` (10_state.md R21) as well as a value of its type. -/
inductive Reg (α : Type) where
  | unwritten
  | val (a : α)
  deriving DecidableEq, Repr

/-- `BusPhase` (R26). -/
inductive BusPhase where
  | free
  | started
  | tx
  | rx (nackSent : Bool)
  deriving DecidableEq, Repr

/-- `BusEvent` (R27): a completed bus action. -/
inductive BusEvent where
  | s
  | sr
  | p
  | addrOut (a : Byte)
  | dataOut (b : Byte)
  | dataIn (b : Byte) (ack : Bool)
  deriving DecidableEq, Repr

/-- A bus action handed to the environment (00_scope.md R19). -/
inductive BusAction where
  | start
  | repStart
  | addrOut (a : Byte)
  | dataOut (b : Byte)
  | dataIn (ack : Bool)
  | stop
  deriving DecidableEq, Repr

/-- `Trigger` (R30), the state of the sweep machine. -/
inductive Trigger where
  | idle
  | startMeasure
  | dftComplete
  | frequencySweepNext
  | frequencyRepeat
  | stopMeasure
  deriving DecidableEq, Repr

/-- `FaultReason` (60_exceptions.md R226). -/
inductive FaultReason where
  | notConfigured
  | configureTwice
  | protocolOrder
  | stopOverlap
  | unwrittenRead
  | sweepBusy
  deriving DecidableEq, Repr

/-- `RefusalReason` (60_exceptions.md R227). -/
inductive RefusalReason where
  | invalidOpcode
  | truncated
  | badOperand
  | concurrent
  deriving DecidableEq, Repr

/-- A set of fault reasons (R29): for each reason of R226, whether it is in the set. -/
structure FaultSet where
  notConfigured : Bool
  configureTwice : Bool
  protocolOrder : Bool
  stopOverlap : Bool
  unwrittenRead : Bool
  sweepBusy : Bool
  deriving DecidableEq, Repr

/-- `OpResult` (60_exceptions.md R221). -/
inductive OpResult where
  | unit
  | ok
  | err (raw : Byte)
  | timeout
  | unresponsive
  | byte (d : Byte)
  | value (v : Nat)
  | int (i : Int)
  deriving DecidableEq, Repr

/-- How an operation ended (60_exceptions.md R220): the first three of its four outcomes.
The fourth, a hang, never ends. -/
inductive OpOutcome where
  | completed (r : OpResult)
  | faulted (r : FaultReason)
  | refused (r : RefusalReason)
  deriving DecidableEq, Repr

/-- The bus controller `ctl` (R22 to R29). -/
structure Ctl where
  configured : Bool
  enabled : Bool
  divider : Reg Div
  flag : Bool
  status : Reg Byte
  data : Reg Byte
  phase : BusPhase
  trace : List BusEvent
  stopPending : Bool
  unresponsive : Bool
  faults : FaultSet
  refused : Bool
  deriving DecidableEq, Repr

/-- The device context `ctx` (R30 to R34). -/
structure Ctx where
  trigger : Trigger
  startCode : Reg U24
  deltaCode : Reg U24
  nInc : Reg (BitVec 9)
  settleCode : Reg U16
  real : Reg Int
  imag : Reg Int
  temperature : Reg Int
  lastStatus : Reg Byte
  deriving DecidableEq, Repr

/-- The one digital output `gpio` (R35). -/
structure Gpio where
  range : Reg (BitVec 1)
  deriving DecidableEq, Repr

/-- The two operations that poll the device's status register (42_sweep_controller.md R182, R188). -/
inductive PollJob where
  | sweep
  | temperature
  deriving DecidableEq, Repr

/-- What the controller is in the middle of. THE MODEL'S OWN FIELD (log entries 9, 10). -/
inductive Activity where
  /-- No operation in progress. -/
  | idle
  /-- `WaitFlag` on an action that never completes, with no poll budget: the hang of 40_bus_primitives.md R103. -/
  | waiting (act : BusAction)
  /-- Inside `PollStatus` (R177), about to make its next status read: `k` reads made so far, and the first `Err`
  of the operation's transactions so far (R193). -/
  | polling (job : PollJob) (k : Nat) (st : Option Byte)
  deriving DecidableEq, Repr

/-- The client (00_scope.md R9(a)). THE MODEL'S OWN RECORD (log entries 7, 8). -/
structure Client where
  /-- The command bytes written and not yet performed (30_encoding.md R70). -/
  input : List Byte
  /-- How the last operation ended, or `none` while it is in progress (60_exceptions.md R220). -/
  last : Option OpOutcome
  deriving DecidableEq, Repr

/-- One-byte registers by address: the register file of the reference slave. Canonical form: `Memory.wf`. -/
abbrev Memory := List Host.Cell

/-- Where the reference slave is in a transaction (92_eei_decisions.md D39). -/
inductive SlavePos where
  /-- No address byte since the last start or stop. -/
  | unaddressed
  /-- Another address was sent, or the transaction's defined bytes are over: nothing more is stored. -/
  | ignoring
  /-- Addressed for writing, no data byte yet. -/
  | first
  /-- After `OP_POINTER`. -/
  | pointer
  /-- After `OP_BLOCK_WRITE`, before its count. -/
  | writeCount
  /-- After `OP_BLOCK_READ`, before its count. -/
  | readCount
  /-- Storing byte `i` of a block of `count`. -/
  | storing (i count : Nat)
  /-- After a register address: the next byte is stored there. -/
  | register (reg : Byte)
  /-- Addressed for reading: byte `i` of the read is next. -/
  | reading (i : Nat)
  deriving DecidableEq, Repr

/-- The reference slave of D39: one environment among all the oracle admits (40_bus_primitives.md R115). -/
structure Slave where
  /-- `mem`: the 256-byte register file. -/
  mem : Memory
  /-- `ptr`: the register pointer. -/
  ptr : Byte
  pos : SlavePos
  /-- For each address listed, the bytes that successive reads of it return before `mem` does. -/
  scripts : List (Byte × List Byte)
  deriving DecidableEq, Repr

/-- Which environment answers. -/
inductive EnvMode where
  /-- The free oracle of R102 and R115. -/
  | oracle
  /-- The reference slave of D39. -/
  | slave
  deriving DecidableEq, Repr

/-- An action whose answer came later than the poll budget (R103): it may still complete. -/
structure LateAction where
  act : BusAction
  status : Byte
  data : Byte
  deriving DecidableEq, Repr

/-- The bus environment (00_scope.md R9(c)). THE MODEL'S OWN RECORD, not state of the block (log entries 1, 11, 12, 18). -/
structure Env where
  mode : EnvMode
  /-- The oracle's next answers; once they run out, each answer is the free value `Config.envAnswer draws`. -/
  answers : List EnvAnswer
  /-- The oracle's next choices to act of its own accord or not; then the free values `Config.envMoves draws`. -/
  moves : List Bool
  /-- How many free values have been taken. -/
  draws : Nat
  late : Option LateAction
  slave : Slave
  deriving DecidableEq, Repr

/-- The whole state: the block's triple `(ctl, ctx, gpio)` (R20), its parameters, the operation in progress,
and the other two agents. -/
structure State where
  ctl : Ctl
  ctx : Ctx
  gpio : Gpio
  cfg : Params
  activity : Activity
  client : Client
  env : Env
  deriving DecidableEq, Repr

/-- Why the machine stops. -/
inductive Fault where
  /-- Raised by the step function and by every meaning in a state whose fault mark is set: "the block takes no
  further step" (60_exceptions.md R220, R226; 95_test_vectors.md V-EN-18). Safe: the spec gives no step there. -/
  | afterFault
  deriving DecidableEq, Repr

/-- Why a step has no meaning. -/
inductive Refusal where
  /-- Raised only by an arm of `exec` whose instruction has no meaning yet. Safe. No arm raises it. -/
  | notModelled (mnemonic : String)
  /-- Raised by the step function and by every meaning in a state whose refusal mark is set: "the block takes no
  further step" (60_exceptions.md R220, R227; V-EN-18). Safe: the spec gives no step there. -/
  | afterRefusal
  deriving DecidableEq, Repr

/-- The empty set of faults. -/
def FaultSet.empty : FaultSet where
  notConfigured := false
  configureTwice := false
  protocolOrder := false
  stopOverlap := false
  unwrittenRead := false
  sweepBusy := false

/-- `ctl` at bring-up (R41). `flag` is any Bool: the spec leaves it unspecified. -/
def Ctl.bringUp (flag : Bool) : Ctl where
  configured := false
  enabled := false
  divider := .unwritten
  flag := flag
  status := .unwritten
  data := .unwritten
  phase := .free
  trace := []
  stopPending := false
  unresponsive := false
  faults := FaultSet.empty
  refused := false

/-- `ctx` at bring-up (R41). -/
def Ctx.bringUp : Ctx where
  trigger := .idle
  startCode := .unwritten
  deltaCode := .unwritten
  nInc := .unwritten
  settleCode := .unwritten
  real := .unwritten
  imag := .unwritten
  temperature := .unwritten
  lastStatus := .unwritten

/-- The reference slave before any access: registers "start at 0x00" (95_test_vectors.md, Conventions). The spec gives no value for
`ptr` before the first pointer-set (D39; 91_not_in_source.md N26): 0 is the model's choice (DESIGN CHOICE, log entry 26). -/
def Slave.blank : Slave where
  mem := []
  ptr := 0
  pos := .unaddressed
  scripts := []

/-- The environment at bring-up: the free oracle, with nothing announced (log entries 1, 11, 18). -/
def Env.bringUp : Env where
  mode := .oracle
  answers := []
  moves := []
  draws := 0
  late := none
  slave := Slave.blank

/-- The state at bring-up (70_reset_and_hazards.md R250, 10_state.md R41) for any parameters and any value of the
completion flag, which is the one field of the block the spec leaves unspecified. -/
def State.bringUp (cfg : Params) (flag : Bool) : State where
  ctl := Ctl.bringUp flag
  ctx := Ctx.bringUp
  gpio := { range := .unwritten }
  cfg := cfg
  activity := .idle
  client := { input := [], last := none }
  env := Env.bringUp

/-- The state right after reset: bring-up with the reference configuration (PRESUMED, log entry 2) and the
completion flag clear (DESIGN CHOICE, log entry 3). -/
def State.reset : State := State.bringUp Params.reference false

end Sys2Proof.Machine
end

