-- ==== Sys2Proof/Syntax.lean ====
section
/-! DEFINITION. The operations of the block: one constructor for each row of spec/opcode_table.json
(00_scope.md R8, 30_encoding.md R72), operands in the order of the encoding. -/

namespace Sys2Proof

/-- One command of the client, decoded. -/
inductive Instr where
  /-- CONFIGURE speed (40_bus_primitives.md R101). -/
  | configure (speed : Byte)
  /-- START (R108). -/
  | start
  /-- SEND_ADDR a (R109). -/
  | sendAddr (a : Byte)
  /-- SEND_BYTE b (R110). -/
  | sendByte (b : Byte)
  /-- RECV_ACK (R111). -/
  | recvAck
  /-- RECV_NACK (R112). -/
  | recvNack
  /-- STOP (R113). -/
  | stop
  /-- SET_POINTER reg (41_register_access.md R144). -/
  | setPointer (reg : Byte)
  /-- WRITE_BYTE reg, v (R145). -/
  | writeByte (reg v : Byte)
  /-- WRITE_BLOCK reg, n, bs (R146). -/
  | writeBlock (reg n : Byte) (bs : List Byte)
  /-- READ_BYTE reg (R147). -/
  | readByte (reg : Byte)
  /-- READ_BLOCK reg, n (R148). -/
  | readBlock (reg n : Byte)
  /-- CONFIGURE_SWEEP startHz, deltaHz, nInc (42_sweep_controller.md R178). -/
  | configureSweep (startHz deltaHz : U32) (nInc : U16)
  /-- BEGIN_SWEEP (R179). -/
  | beginSweep
  /-- PROCESS_STEP choice (R180). -/
  | processStep (choice : Byte)
  /-- MEASURE_TEMPERATURE (R188). -/
  | measureTemperature
  /-- GET_REAL (R189). -/
  | getReal
  /-- GET_IMAG (R190). -/
  | getImag
  /-- GET_TEMPERATURE (R191). -/
  | getTemperature
  /-- SET_RANGE level (60_exceptions.md R232). -/
  | setRange (level : Byte)
  deriving DecidableEq, Repr

/-- The opcode of a command: byte 0 selects it (R72). -/
inductive Opcode where
  | configure
  | start
  | sendAddr
  | sendByte
  | recvAck
  | recvNack
  | stop
  | setPointer
  | writeByte
  | writeBlock
  | readByte
  | readBlock
  | configureSweep
  | beginSweep
  | processStep
  | measureTemperature
  | getReal
  | getImag
  | getTemperature
  | setRange
  deriving DecidableEq, Repr

end Sys2Proof
end

