-- ==== Sys2Proof/WellFormed.lean ====
section
/-! DEFINITION. Which terms of `Instr` are commands at all, i.e. have an encoding (30_encoding.md R72, R73).
The operand values that R75 refuses are encodable: they decode, and the machine refuses them. -/

namespace Sys2Proof

/-- The only operands that constrain each other are those of WRITE_BLOCK: "the encoding forces `bs` to hold
exactly n bytes" (41_register_access.md R146). -/
def Instr.wellFormed : Instr → Bool
  | .configure _ => true
  | .start => true
  | .sendAddr _ => true
  | .sendByte _ => true
  | .recvAck => true
  | .recvNack => true
  | .stop => true
  | .setPointer _ => true
  | .writeByte _ _ => true
  | .writeBlock _ n bs => bs.length == n.toNat
  | .readByte _ => true
  | .readBlock _ _ => true
  | .configureSweep _ _ _ => true
  | .beginSweep => true
  | .processStep _ => true
  | .measureTemperature => true
  | .getReal => true
  | .getImag => true
  | .getTemperature => true
  | .setRange _ => true

end Sys2Proof
end

