-- ==== Sys2Proof/Decode.lean ====
section
/-! DEFINITION. The command stream (30_encoding.md R70 to R74): byte order, opcode map, a decoder that is total on
every byte string and rejects by name, the encoder written from the same table, and the assembly text (R79). -/

namespace Sys2Proof

/-- A u16 from its two bytes, most significant first (R71; 20_memory.md R51). -/
def join2 (b1 b0 : Byte) : U16 := b1 ++ b0

/-- A u24 from its three bytes, most significant first (R51). -/
def join3 (b2 b1 b0 : Byte) : U24 := b2 ++ b1 ++ b0

/-- A u32 from its four bytes, most significant first (R71). -/
def join4 (b3 b2 b1 b0 : Byte) : U32 := b3 ++ b2 ++ b1 ++ b0

/-- `BE_2` (R51): the bytes of a u16, most significant first. -/
def bytes2 (v : U16) : List Byte := [v.extractLsb' 8 8, v.extractLsb' 0 8]

/-- `BE_3` (R51): the bytes of a u24, most significant first. -/
def bytes3 (v : U24) : List Byte := [v.extractLsb' 16 8, v.extractLsb' 8 8, v.extractLsb' 0 8]

/-- `BE_4`: the bytes of a u32 operand, most significant first (R71). -/
def bytes4 (v : U32) : List Byte :=
  [v.extractLsb' 24 8, v.extractLsb' 16 8, v.extractLsb' 8 8, v.extractLsb' 0 8]

/-- The opcode map: byte 0 of each command (R72). -/
def Opcode.byte : Opcode → Byte
  | .configure => 0x01
  | .start => 0x02
  | .sendAddr => 0x03
  | .sendByte => 0x04
  | .recvAck => 0x05
  | .recvNack => 0x06
  | .stop => 0x07
  | .setPointer => 0x10
  | .writeByte => 0x11
  | .writeBlock => 0x12
  | .readByte => 0x13
  | .readBlock => 0x14
  | .configureSweep => 0x20
  | .beginSweep => 0x21
  | .processStep => 0x22
  | .measureTemperature => 0x23
  | .getReal => 0x24
  | .getImag => 0x25
  | .getTemperature => 0x26
  | .setRange => 0x27

/-- The rows of R72, in its order. -/
def Opcode.all : List Opcode :=
  [.configure, .start, .sendAddr, .sendByte, .recvAck, .recvNack, .stop,
   .setPointer, .writeByte, .writeBlock, .readByte, .readBlock,
   .configureSweep, .beginSweep, .processStep, .measureTemperature,
   .getReal, .getImag, .getTemperature, .setRange]

/-- The row of R72 that byte 0 selects; every other value is reserved (R74). -/
def Opcode.ofByte (b : Byte) : Option Opcode := Opcode.all.find? (fun o => o.byte == b)

/-- The "length in bytes" column of R72. For WRITE_BLOCK it is the length with an empty payload, and n more follow. -/
def Opcode.fixedLength : Opcode → Nat
  | .configure => 2
  | .start => 1
  | .sendAddr => 2
  | .sendByte => 2
  | .recvAck => 1
  | .recvNack => 1
  | .stop => 1
  | .setPointer => 2
  | .writeByte => 3
  | .writeBlock => 3
  | .readByte => 2
  | .readBlock => 3
  | .configureSweep => 11
  | .beginSweep => 1
  | .processStep => 2
  | .measureTemperature => 1
  | .getReal => 1
  | .getImag => 1
  | .getTemperature => 1
  | .setRange => 2

/-- The opcode of a command (R72). -/
def Instr.opcode : Instr → Opcode
  | .configure _ => .configure
  | .start => .start
  | .sendAddr _ => .sendAddr
  | .sendByte _ => .sendByte
  | .recvAck => .recvAck
  | .recvNack => .recvNack
  | .stop => .stop
  | .setPointer _ => .setPointer
  | .writeByte _ _ => .writeByte
  | .writeBlock _ _ _ => .writeBlock
  | .readByte _ => .readByte
  | .readBlock _ _ => .readBlock
  | .configureSweep _ _ _ => .configureSweep
  | .beginSweep => .beginSweep
  | .processStep _ => .processStep
  | .measureTemperature => .measureTemperature
  | .getReal => .getReal
  | .getImag => .getImag
  | .getTemperature => .getTemperature
  | .setRange _ => .setRange

/-- Why a byte string is no command: the two `invalid` cases of R73 and R74, with the names of 60_exceptions.md R227. -/
inductive DecodeError where
  | invalidOpcode
  | truncated
  deriving DecidableEq, Repr

/-- What the decoder answers: a command and the bytes after it, or a named rejection. -/
inductive Decoded where
  | ok (i : Instr) (rest : List Byte)
  | invalid (e : DecodeError)
  deriving DecidableEq, Repr

/-- The first `n` bytes and the bytes after them, or `none` where the stream ends before (R73). -/
def splitExact : Nat → List Byte → Option (List Byte × List Byte)
  | 0, bs => some ([], bs)
  | _ + 1, [] => none
  | n + 1, b :: bs => (splitExact n bs).map (fun r => (b :: r.1, r.2))

/-- The operands after byte 0 (R71, R72), or `none` where the stream ends before the command's last byte (R73). -/
def decodeOperands (op : Opcode) (bs : List Byte) : Option (Instr × List Byte) :=
  match op with
  | .configure => match bs with
    | speed :: r => some (.configure speed, r)
    | [] => none
  | .start => some (.start, bs)
  | .sendAddr => match bs with
    | a :: r => some (.sendAddr a, r)
    | [] => none
  | .sendByte => match bs with
    | b :: r => some (.sendByte b, r)
    | [] => none
  | .recvAck => some (.recvAck, bs)
  | .recvNack => some (.recvNack, bs)
  | .stop => some (.stop, bs)
  | .setPointer => match bs with
    | reg :: r => some (.setPointer reg, r)
    | [] => none
  | .writeByte => match bs with
    | reg :: v :: r => some (.writeByte reg v, r)
    | _ => none
  | .writeBlock => match bs with
    | reg :: n :: r => (splitExact n.toNat r).map (fun x => (.writeBlock reg n x.1, x.2))
    | _ => none
  | .readByte => match bs with
    | reg :: r => some (.readByte reg, r)
    | [] => none
  | .readBlock => match bs with
    | reg :: n :: r => some (.readBlock reg n, r)
    | _ => none
  | .configureSweep => match bs with
    | s3 :: s2 :: s1 :: s0 :: d3 :: d2 :: d1 :: d0 :: n1 :: n0 :: r =>
      some (.configureSweep (join4 s3 s2 s1 s0) (join4 d3 d2 d1 d0) (join2 n1 n0), r)
    | _ => none
  | .beginSweep => some (.beginSweep, bs)
  | .processStep => match bs with
    | choice :: r => some (.processStep choice, r)
    | [] => none
  | .measureTemperature => some (.measureTemperature, bs)
  | .getReal => some (.getReal, bs)
  | .getImag => some (.getImag, bs)
  | .getTemperature => some (.getTemperature, bs)
  | .setRange => match bs with
    | level :: r => some (.setRange level, r)
    | [] => none

/-- The decoder (R73): total on any byte string. A reserved byte 0 is named before a missing operand (60_exceptions.md R230). -/
def decode : List Byte → Decoded
  | [] => .invalid .truncated
  | b :: bs => match Opcode.ofByte b with
    | none => .invalid .invalidOpcode
    | some op => match decodeOperands op bs with
      | none => .invalid .truncated
      | some (i, rest) => .ok i rest

/-- The operand bytes of a command, in the order of R72. -/
def encodeOperands : Instr → List Byte
  | .configure speed => [speed]
  | .start => []
  | .sendAddr a => [a]
  | .sendByte b => [b]
  | .recvAck => []
  | .recvNack => []
  | .stop => []
  | .setPointer reg => [reg]
  | .writeByte reg v => [reg, v]
  | .writeBlock reg n bs => reg :: n :: bs
  | .readByte reg => [reg]
  | .readBlock reg n => [reg, n]
  | .configureSweep startHz deltaHz nInc => bytes4 startHz ++ bytes4 deltaHz ++ bytes2 nInc
  | .beginSweep => []
  | .processStep choice => [choice]
  | .measureTemperature => []
  | .getReal => []
  | .getImag => []
  | .getTemperature => []
  | .setRange level => [level]

/-- The bytes of a command: "one opcode byte followed by its operand bytes, with no padding" (R70). -/
def encode (i : Instr) : List Byte := i.opcode.byte :: encodeOperands i

/-- The longest command: WRITE_BLOCK with 255 payload bytes (R72). -/
def longestCommand : Nat := 258

/-- The bytes of an instruction given as a number in the numbering of spec/opcode_table.json (bit 0 is the least
significant bit of the first byte), with zero bytes after them up to the longest command. -/
def tableBytes (nbits w : Nat) : List Byte :=
  (List.range ((nbits + 7) / 8)).map (fun k => BitVec.ofNat 8 (w / 2 ^ (8 * k))) ++ List.replicate longestCommand 0

/-- The instruction the decoder reads from a word of the opcode table. -/
def decodeTableWord (nbits w : Nat) : Option Instr :=
  match decode (tableBytes nbits w) with
  | .ok i _ => some i
  | .invalid _ => none

/-- The bytes of exactly the one command that stands first in `tableBytes nbits w`; where none does, all of them. -/
def tableCommand (nbits w : Nat) : List Byte :=
  match decode (tableBytes nbits w) with
  | .ok i _ => encode i
  | .invalid _ => tableBytes nbits w

/-- A list of numbers as R79 writes one: decimal, commas between. -/
def asmNumbers : List Byte → String
  | [] => ""
  | [b] => toString b.toNat
  | b :: bs => toString b.toNat ++ ", " ++ asmNumbers bs

/-- The assembly text of a command (R79): `MNEMONIC operand, operand, ...`, numbers in decimal. -/
def Instr.asm : Instr → String
  | .configure speed => "CONFIGURE " ++ asmNumbers [speed]
  | .start => "START"
  | .sendAddr a => "SEND_ADDR " ++ asmNumbers [a]
  | .sendByte b => "SEND_BYTE " ++ asmNumbers [b]
  | .recvAck => "RECV_ACK"
  | .recvNack => "RECV_NACK"
  | .stop => "STOP"
  | .setPointer reg => "SET_POINTER " ++ asmNumbers [reg]
  | .writeByte reg v => "WRITE_BYTE " ++ asmNumbers [reg, v]
  | .writeBlock reg n bs => "WRITE_BLOCK " ++ asmNumbers [reg, n] ++ ", [" ++ asmNumbers bs ++ "]"
  | .readByte reg => "READ_BYTE " ++ asmNumbers [reg]
  | .readBlock reg n => "READ_BLOCK " ++ asmNumbers [reg, n]
  | .configureSweep startHz deltaHz nInc =>
    "CONFIGURE_SWEEP " ++ toString startHz.toNat ++ ", " ++ toString deltaHz.toNat ++ ", " ++ toString nInc.toNat
  | .beginSweep => "BEGIN_SWEEP"
  | .processStep choice => "PROCESS_STEP " ++ asmNumbers [choice]
  | .measureTemperature => "MEASURE_TEMPERATURE"
  | .getReal => "GET_REAL"
  | .getImag => "GET_IMAG"
  | .getTemperature => "GET_TEMPERATURE"
  | .setRange level => "SET_RANGE " ++ asmNumbers [level]

end Sys2Proof
end

