-- ==== Sys2Proof/Machine/Operands.lean ====
section
/-! DEFINITION. Every operand form and numeric codec of the spec: the address bytes, the register map, the operands that
are refused (30_encoding.md R75), the reassembly of received bytes (41_register_access.md R150) and the codecs
of 42_sweep_controller.md R171 to R175. -/

namespace Sys2Proof.Machine

/-- `ADDR_W = ADDR7 << 1` (00_scope.md R10, 30_encoding.md R76). -/
def addrW (cfg : Params) : Byte := cfg.addr7.setWidth 8 <<< 1

/-- `ADDR_R = (ADDR7 << 1) | 1` (R10, R76). -/
def addrR (cfg : Params) : Byte := (cfg.addr7.setWidth 8 <<< 1) ||| 1

/-- The direction bit of an address byte: bit 0, 1 for read (20_memory.md R52).
PRESUMED: the spec marks the polarity as general knowledge (log entry 20). -/
def isReadAddr (a : Byte) : Bool := a.getLsbD 0

/-- The base address of a device register (R11). -/
def regBase (cfg : Params) : DevReg → Byte
  | .ctrlHi => cfg.regs.ctrlHi
  | .ctrlLo => cfg.regs.ctrlLo
  | .start => cfg.regs.start
  | .delta => cfg.regs.delta
  | .nInc => cfg.regs.nInc
  | .settle => cfg.regs.settle
  | .status => cfg.regs.status
  | .temp => cfg.regs.temp
  | .real => cfg.regs.real
  | .imag => cfg.regs.imag

/-- The width column of R11, in bytes. -/
def regWidth : DevReg → Byte
  | .ctrlHi => 1
  | .ctrlLo => 1
  | .start => 3
  | .delta => 3
  | .nInc => 2
  | .settle => 2
  | .status => 1
  | .temp => 2
  | .real => 2
  | .imag => 2

/-- The access column of R11: a property of the device, which the block does not enforce (R53). -/
def regAccess : DevReg → Access
  | .ctrlHi => .rw
  | .ctrlLo => .rw
  | .start => .rw
  | .delta => .rw
  | .nInc => .rw
  | .settle => .rw
  | .status => .ro
  | .temp => .ro
  | .real => .ro
  | .imag => .ro

/-- Whether R75 lets the operands of a command pass. Every other value is refused with `BadOperand` (60_exceptions.md R227). -/
def operandsAccepted (cfg : Params) : Instr → Bool
  | .configure speed => cfg.speedClasses.contains speed
  | .start => true
  | .sendAddr _ => true
  | .sendByte _ => true
  | .recvAck => true
  | .recvNack => true
  | .stop => true
  | .setPointer _ => true
  | .writeByte _ _ => true
  | .writeBlock _ _ _ => true
  | .readByte _ => true
  | .readBlock _ n => n != 0
  | .configureSweep _ _ nInc => decide (nInc.toNat ≤ 511)
  | .beginSweep => true
  | .processStep choice => choice == 0 || choice == 1
  | .measureTemperature => true
  | .getReal => true
  | .getImag => true
  | .getTemperature => true
  | .setRange level => level == 0 || level == 1

/-- Byte `i` of those received. A transaction that was not lost has received every byte its expansion asks for,
so the value for a missing byte is never used (log entry 24). -/
def rxByte (bs : List Byte) (i : Nat) : Byte := bs.getD i 0

/-- `Assemble(n, b)` (41_register_access.md R150). -/
def assemble (cfg : Params) (n : Byte) (bs : List Byte) : Nat :=
  if n = 2 then (join2 (rxByte bs 0) (rxByte bs 1)).toNat
  else if n = 3 then
    match cfg.read3 with
    | .combine => (join3 (rxByte bs 0) (rxByte bs 1) (rxByte bs 2)).toNat
    | .firstByte => (rxByte bs 0).toNat
  else (rxByte bs 0).toNat

/-- `round(num / den)` (42_sweep_controller.md R171), exact, with the tie rule of `ROUND_TIE`. -/
def roundRatio (tie : RoundTie) (num den : Nat) : Nat :=
  match tie with
  | .halfAwayFromZero => (2 * num + den) / (2 * den)
  | .halfEven =>
    let q := num / den
    let r := num % den
    if 2 * r < den then q
    else if den < 2 * r then q + 1
    else if q % 2 = 0 then q
    else q + 1

/-- `freqCode(hz) = round(hz * K) mod 2^24` (R172). -/
def freqCode (cfg : Params) (hz : Nat) : U24 := BitVec.ofNat 24 (roundRatio cfg.roundTie (hz * cfg.kNum) cfg.kDen)

/-- `settleCode(startHz, deltaHz, nInc) = ((startHz + deltaHz * nInc) div 1000) mod 2^16` (R173). -/
def settleCode (startHz deltaHz nInc : Nat) : U16 := BitVec.ofNat 16 ((startHz + deltaHz * nInc) / 1000)

/-- `decode16(v)` (R174). -/
def decode16 (v : U16) : Int := if 0x7FFF < v.toNat then (v.toNat : Int) - 0x10000 else (v.toNat : Int)

/-- `decodeTemp(raw)` (R175): division truncates toward zero. -/
def decodeTemp (raw : U16) : Int :=
  if raw.toNat < 8192 then Int.tdiv (raw.toNat : Int) 32 else Int.tdiv ((raw.toNat : Int) - 16384) 32

/-- The u16 that a 2-byte READ_BLOCK of the sweep controller returned (R150 with n = 2; R182, R188). -/
def word16 (bs : List Byte) : U16 := join2 (rxByte bs 0) (rxByte bs 1)

end Sys2Proof.Machine
end

