-- ==== Sys2Proof/Machine/Environment.lean ====
section
/-! DEFINITION. The bus environment (00_scope.md R9(c), 40_bus_primitives.md R102, R114, R115): the free oracle, and the
reference slave of 92_eei_decisions.md D39 as one environment that meets its liberties. -/

namespace Sys2Proof.Machine

/-- A register address of the device space, wrapping mod 256 (D39). -/
def slaveAddr (ptr : Byte) (i : Nat) : Byte := ptr + BitVec.ofNat 8 i

/-- The next script byte of an address, if one is left, and the scripts without it (D39). -/
def scriptTake : List (Byte × List Byte) → Byte → Option (Byte × List (Byte × List Byte))
  | [], _ => none
  | (a, bs) :: rest, x =>
    match (if a = x then bs else []) with
    | b :: bs' => some (b, (a, bs') :: rest)
    | [] => (scriptTake rest x).map (fun r => (r.1, (a, bs) :: r.2))

/-- One read of a register of the slave: its script while it lasts, then the register file (D39). -/
def Slave.readReg (sl : Slave) (a : Byte) : Byte × Slave :=
  match scriptTake sl.scripts a with
  | some (b, scripts') => (b, { sl with scripts := scripts' })
  | none => (Memory.read sl.mem a.toNat, sl)

/-- One write of a register of the slave. -/
def Slave.writeReg (sl : Slave) (a v : Byte) : Slave := { sl with mem := Memory.write sl.mem a.toNat v }

/-- What the slave does with an address byte, and its status code (D39). -/
def Slave.address (cfg : Params) (sl : Slave) (a : Byte) : Byte × Slave :=
  if a = addrW cfg then (0x18, { sl with pos := .first })
  else if a = addrR cfg then (0x40, { sl with pos := .reading 0 })
  else (if isReadAddr a then 0x48 else 0x20, { sl with pos := .ignoring })

/-- What the slave does with a data byte (D39). Bytes the rule says nothing of are ignored (log entry 18). -/
def Slave.takeByte (cfg : Params) (sl : Slave) (b : Byte) : Slave :=
  match sl.pos with
  | .first =>
    if b = cfg.opPointer then { sl with pos := .pointer }
    else if b = cfg.opBlockWrite then { sl with pos := .writeCount }
    else if b = cfg.opBlockRead then { sl with pos := .readCount }
    else { sl with pos := .register b }
  | .pointer => { sl with ptr := b, pos := .ignoring }
  | .writeCount => { sl with pos := .storing 0 b.toNat }
  | .readCount => { sl with pos := .ignoring }
  | .storing i count =>
    if i < count then { sl.writeReg (slaveAddr sl.ptr i) b with pos := .storing (i + 1) count } else sl
  | .register reg => { sl.writeReg reg b with pos := .ignoring }
  | .reading _ => sl
  | .unaddressed => sl
  | .ignoring => sl

/-- The byte the slave supplies (D39). Where it is not addressed for reading the byte is `float`, a free value. -/
def Slave.giveByte (sl : Slave) (float : Byte) : Byte × Slave :=
  match sl.pos with
  | .reading i => ((sl.readReg (slaveAddr sl.ptr i)).1, { (sl.readReg (slaveAddr sl.ptr i)).2 with pos := .reading (i + 1) })
  | .first => (float, sl)
  | .pointer => (float, sl)
  | .writeCount => (float, sl)
  | .readCount => (float, sl)
  | .storing _ _ => (float, sl)
  | .register _ => (float, sl)
  | .unaddressed => (float, sl)
  | .ignoring => (float, sl)

/-- The slave's status, data byte and next state for one bus action (D39; 95_test_vectors.md, Conventions). -/
def Slave.receive (cfg : Params) (sl : Slave) (act : BusAction) (float : Byte) : Byte × Byte × Slave :=
  match act with
  | .start => (0x08, 0, { sl with pos := .unaddressed })
  | .repStart => (0x10, 0, { sl with pos := .unaddressed })
  | .addrOut a => ((sl.address cfg a).1, 0, (sl.address cfg a).2)
  | .dataOut b => (0x28, 0, sl.takeByte cfg b)
  | .dataIn ack => (if ack then 0x50 else 0x58, (sl.giveByte float).1, (sl.giveByte float).2)
  | .stop => (0, 0, { sl with pos := .unaddressed })

/-- The oracle's answer to an awaited action: the next one announced, else a free value (R102, R115; log entry 1). -/
def Env.oracleAnswer (e : Env) : EnvAnswer × Env :=
  match e.answers with
  | a :: rest => (a, { e with answers := rest })
  | [] => (Config.envAnswer e.draws, { e with draws := e.draws + 1 })

/-- The slave's answer: it completes every action before the first poll (D39). -/
def Env.slaveAnswer (cfg : Params) (e : Env) (act : BusAction) : EnvAnswer × Env :=
  (.done (e.slave.receive cfg act (Config.unaddressedByte e.draws)).1
      (e.slave.receive cfg act (Config.unaddressedByte e.draws)).2.1 0,
    { e with draws := e.draws + 1, slave := (e.slave.receive cfg act (Config.unaddressedByte e.draws)).2.2 })

/-- The environment receives an action and draws its answer (R102). -/
def Env.receive (cfg : Params) (e : Env) (act : BusAction) : EnvAnswer × Env :=
  match e.mode with
  | .oracle => e.oracleAnswer
  | .slave => e.slaveAnswer cfg act

/-- The environment receives a stop condition. Its answer is not awaited, so none is drawn (R113; log entry 19). -/
def Env.receiveStop (cfg : Params) (e : Env) : Env :=
  match e.mode with
  | .oracle => e
  | .slave => (e.slaveAnswer cfg .stop).2

/-- Whether the environment acts of its own accord at a point where it may: the next choice announced, else a free
value (R114; log entry 11). The reference slave never does (95_test_vectors.md, Conventions). -/
def Env.choose (e : Env) : Bool × Env :=
  match e.mode with
  | .slave => (false, e)
  | .oracle =>
    match e.moves with
    | m :: rest => (m, { e with moves := rest })
    | [] => (Config.envMoves e.draws, { e with draws := e.draws + 1 })

end Sys2Proof.Machine
end

