-- ==== Sys2Proof/Machine/Flags.lean ====
section
/-! DEFINITION. Every flag computation of the spec (10_state.md R38): the status check (40_bus_primitives.md R104), the typed
view of a failure (60_exceptions.md R222), the device status bits, and the set of faults (R29). -/

namespace Sys2Proof.Machine

/-- A list of exceptions to a default, as a function. -/
def lookupOr {α : Type} (table : List (Byte × α)) (key : Byte) (dflt : α) : α :=
  match table with
  | [] => dflt
  | (k, v) :: rest => if k = key then v else lookupOr rest key dflt

/-- `STATUS_CODE` (00_scope.md R13). -/
def statusCode (cfg : Params) (raw : Byte) : Byte := lookupOr cfg.statusCode raw raw

/-- `CLASSIFY` (R13). -/
def classify (cfg : Params) (raw : Byte) : FailKind := lookupOr cfg.classify raw .unexpectedStatus

/-- The typed view of `Err(raw)` (R222): a view only, no rule reads it. -/
def typedFailure (cfg : Params) : OpResult → Option (FailKind × Byte)
  | .err raw => some (classify cfg raw, raw)
  | _ => none

/-- Whether `Check(E, raw)` takes the success branch (R104). -/
def statusExpected (cfg : Params) (expect : List Byte) (raw : Byte) : Bool :=
  match cfg.ackCheck with
  | .corrected => expect.contains (statusCode cfg raw)
  | .historical => !(expect.any (fun e => statusCode cfg raw != e))

/-- `Check(E, raw)` (R104). -/
def check (cfg : Params) (expect : List Byte) (raw : Byte) : OpResult :=
  if statusExpected cfg expect raw then .ok else .err raw

/-- Whether a status byte has a bit of the mask set: `(s & mask) != 0` (42_sweep_controller.md R177, R183). -/
def maskSet (s mask : Byte) : Bool := (s &&& mask) != 0

/-- Whether a reason is in the set. -/
def FaultSet.has (f : FaultSet) : FaultReason → Bool
  | .notConfigured => f.notConfigured
  | .configureTwice => f.configureTwice
  | .protocolOrder => f.protocolOrder
  | .stopOverlap => f.stopOverlap
  | .unwrittenRead => f.unwrittenRead
  | .sweepBusy => f.sweepBusy

/-- The set with one reason added. -/
def FaultSet.add (f : FaultSet) : FaultReason → FaultSet
  | .notConfigured => { f with notConfigured := true }
  | .configureTwice => { f with configureTwice := true }
  | .protocolOrder => { f with protocolOrder := true }
  | .stopOverlap => { f with stopOverlap := true }
  | .unwrittenRead => { f with unwrittenRead := true }
  | .sweepBusy => { f with sweepBusy := true }

/-- "`ctl.faults` is empty". -/
def FaultSet.isEmpty (f : FaultSet) : Bool := decide (f = FaultSet.empty)

end Sys2Proof.Machine
end

