-- ==== Sys2Proof/Machine/Ops.lean ====
section
/-! DEFINITION. The named operations over the state: its setters, how an operation ends (taking a fault, being refused,
completing), and the shared machinery of the bus primitives (40_bus_primitives.md R100 to R107, R114). -/

namespace Sys2Proof.Machine

/-- What one step answers. -/
abbrev Result := Host.Outcome State Fault Refusal

/-! ### Setters: every write to the state goes through one of these -/

def State.setCtl (s : State) (c : Ctl) : State := { s with ctl := c }
def State.setCtx (s : State) (c : Ctx) : State := { s with ctx := c }
def State.setGpio (s : State) (g : Gpio) : State := { s with gpio := g }
def State.setActivity (s : State) (a : Activity) : State := { s with activity := a }
def State.setInput (s : State) (bs : List Byte) : State := { s with client := { s.client with input := bs } }
def State.setLast (s : State) (o : Option OpOutcome) : State := { s with client := { s.client with last := o } }
def State.setEnv (s : State) (e : Env) : State := { s with env := e }

/-- `Emit(e)` (00_scope.md R19). -/
def State.emit (s : State) (e : BusEvent) : State := s.setCtl { s.ctl with trace := s.ctl.trace ++ [e] }

/-- `ctl.phase <- p`. -/
def State.setPhase (s : State) (p : BusPhase) : State := s.setCtl { s.ctl with phase := p }

/-- `Delay()` (42_sweep_controller.md R176): "writes no state and makes no bus event". -/
def delay (s : State) : State := s

/-! ### How an operation ends (60_exceptions.md R220) -/

/-- What a piece of an operation's pseudocode comes to. -/
inductive Flow (α : Type) where
  /-- It ran to its end with a value. -/
  | done (a : α) (s : State)
  /-- The operation ends early with `Unresponsive` (42_sweep_controller.md R187). -/
  | quit (s : State)
  /-- It raised a fault (R226). -/
  | fault (r : FaultReason) (s : State)
  /-- The operation has not completed: `s.activity` says what it is in the middle of (R228, R177). -/
  | spin (s : State)

/-- One piece after another. -/
def Flow.bind {α β : Type} (x : Flow α) (f : α → State → Flow β) : Flow β :=
  match x with
  | .done a s => f a s
  | .quit s => .quit s
  | .fault r s => .fault r s
  | .spin s => .spin s

/-- The operation is over: nothing is in progress and the client has its outcome. -/
def State.conclude (s : State) (o : OpOutcome) : State := (s.setActivity .idle).setLast (some o)

/-- TAKING A FAULT, the one shared operation (00_scope.md R19 `raise Fault(r)`, 60_exceptions.md R226): the reason is added to
`ctl.faults`, the operation ends with no further effect, and "state written before that point keeps its new value".
There is no handler and no return (R224, R225). -/
def raiseFault (r : FaultReason) (s : State) : State :=
  (s.setCtl { s.ctl with faults := s.ctl.faults.add r }).conclude (.faulted r)

/-- `refuse(r)` (00_scope.md R19, 60_exceptions.md R227): none of the command's effects, only the mark `ctl.refused`. -/
def refuse (r : RefusalReason) (s : State) : State :=
  (s.setCtl { s.ctl with refused := true }).setLast (some (.refused r))

/-- The end of an operation as a step's answer (R220). -/
def finish : Flow OpResult → Result
  | .done r s => .next (s.conclude (.completed r))
  | .quit s => .next (s.conclude (.completed .unresponsive))
  | .fault r s => .next (raiseFault r s)
  | .spin s => .next (s.setLast none)

/-- What every command does first, in the order of 60_exceptions.md R230. After a fault or a refusal "the block takes no
further step" (R220); a command issued while another is in progress is refused with `Concurrent` (R236; log entry 17);
an operand that R75 refuses is refused before any state is read. -/
def command (i : Instr) (s : State) (body : State → Flow OpResult) : Result :=
  if !s.ctl.faults.isEmpty then .fault .afterFault
  else if s.ctl.refused then .refused .afterRefusal
  else if s.activity ≠ .idle then .next (refuse .concurrent s)
  else if !operandsAccepted s.cfg i then .next (refuse .badOperand s)
  else finish (body s)

/-- Read a field that may be `unwritten` (10_state.md R21). -/
def readReg {α β : Type} (r : Reg α) (s : State) (f : α → Flow β) : Flow β :=
  match r with
  | .unwritten => .fault .unwrittenRead s
  | .val a => f a

/-! ### The bus primitives' shared machinery -/

/-- The six primitives that run the preamble (R100). -/
inductive Prim where
  | start
  | sendAddr (a : Byte)
  | sendByte (b : Byte)
  | recvAck
  | recvNack
  | stop
  deriving DecidableEq, Repr

/-- The "allowed in `ctl.phase`" column of R106. -/
def Prim.allowed : Prim → BusPhase → Bool
  | .start, .free => true
  | .start, .started => false
  | .start, .tx => true
  | .start, .rx nackSent => nackSent
  | .sendAddr _, .free => false
  | .sendAddr _, .started => true
  | .sendAddr _, .tx => false
  | .sendAddr _, .rx _ => false
  | .sendByte _, .free => false
  | .sendByte _, .started => false
  | .sendByte _, .tx => true
  | .sendByte _, .rx _ => false
  | .recvAck, .free => false
  | .recvAck, .started => false
  | .recvAck, .tx => false
  | .recvAck, .rx nackSent => !nackSent
  | .recvNack, .free => false
  | .recvNack, .started => false
  | .recvNack, .tx => false
  | .recvNack, .rx nackSent => !nackSent
  | .stop, .free => false
  | .stop, .started => false
  | .stop, .tx => true
  | .stop, .rx nackSent => nackSent

/-- The "phase afterwards" column of R106. -/
def Prim.phaseAfter : Prim → BusPhase
  | .start => .started
  | .sendAddr a => if isReadAddr a then .rx false else .tx
  | .sendByte _ => .tx
  | .recvAck => .rx false
  | .recvNack => .rx true
  | .stop => .free

/-- The bus action a primitive launches; `START` launches `Start` in `Free`, else `RepStart` (R106, R108). -/
def Prim.action : Prim → BusPhase → BusAction
  | .start, .free => .start
  | .start, .started => .repStart
  | .start, .tx => .repStart
  | .start, .rx _ => .repStart
  | .sendAddr a, _ => .addrOut a
  | .sendByte b, _ => .dataOut b
  | .recvAck, _ => .dataIn true
  | .recvNack, _ => .dataIn false
  | .stop, _ => .stop

/-- The trace event of a completed action, `d` being the byte received (10_state.md R27). -/
def BusAction.event (d : Byte) : BusAction → BusEvent
  | .start => .s
  | .repStart => .sr
  | .addrOut a => .addrOut a
  | .dataOut b => .dataOut b
  | .dataIn ack => .dataIn d ack
  | .stop => .p

/-- The result of a completed primitive: a status check for the sends, the byte for the receptions (R108 to R113). -/
def Prim.result (cfg : Params) (raw d : Byte) : Prim → OpResult
  | .start => check cfg cfg.expectStart raw
  | .sendAddr _ => check cfg cfg.expectAddr raw
  | .sendByte _ => check cfg cfg.expectData raw
  | .recvAck => .byte d
  | .recvNack => .byte d
  | .stop => .unit

/-- The pending stop, as the preamble meets it (R100, R114): whether the primitive may go on, and the state.
With `Ordered` the stop completes first; with `Fault` it must be that the environment has taken `StopDone` by now (log entry 11).
Either way `ctl.flag` stays as it is (log entry 25). -/
def settleStop (s : State) : Bool × State :=
  if s.ctl.stopPending then
    match s.cfg.stopOverlap with
    | .ordered => (true, s.setCtl { s.ctl with stopPending := false })
    | .fault => (s.env.choose.1, (s.setEnv s.env.choose.2).setCtl { s.ctl with stopPending := !s.env.choose.1 })
  else (true, s)

/-- The four ways the preamble can come out (R100). -/
inductive Preamble where
  | pass (s : State)
  | unresponsive
  | fault (r : FaultReason) (s : State)

/-- `Preamble(op)` (R100): its checks in its order. -/
def preamble (p : Prim) (s : State) : Preamble :=
  if !s.ctl.configured then .fault .notConfigured s
  else if s.ctl.unresponsive then .unresponsive
  else if !(settleStop s).1 then .fault .stopOverlap (settleStop s).2
  else if !p.allowed s.ctl.phase then .fault .protocolOrder (settleStop s).2
  else .pass (settleStop s).2

/-- The data register after `Launch` (R102). -/
def BusAction.outgoing (old : Reg Byte) : BusAction → Reg Byte
  | .start => old
  | .repStart => old
  | .addrOut a => .val a
  | .dataOut b => .val b
  | .dataIn _ => old
  | .stop => old

/-- The data register after the environment completes an action: a `DataIn` action delivers `d` (R103). -/
def BusAction.incoming (old : Reg Byte) (d : Byte) : BusAction → Reg Byte
  | .start => old
  | .repStart => old
  | .addrOut _ => old
  | .dataOut _ => old
  | .dataIn _ => .val d
  | .stop => old

/-- The controller's half of `Launch(act)` (R102): the outgoing byte, and the completion flag cleared. -/
def launch (act : BusAction) (s : State) : State :=
  s.setCtl { s.ctl with data := act.outgoing s.ctl.data, flag := false }

/-- The environment completes an action (R103): "`ctl.status <- s`, `ctl.data <- d` (DataIn only), `ctl.flag <- true`". -/
def deliver (act : BusAction) (raw d : Byte) (s : State) : State :=
  s.setCtl { s.ctl with status := .val raw, data := act.incoming s.ctl.data d, flag := true }

/-- What the blocking wait comes to (R103). -/
inductive Wait where
  | done (raw d : Byte) (s : State)
  | timeout (s : State)
  | hang (s : State)

/-- The wait ran out of budget (R103, R105). -/
def giveUp (late : Option LateAction) (s : State) : State :=
  (s.setCtl { s.ctl with unresponsive := true }).setEnv { s.env with late := late }

/-- `WaitFlag()` (R103) for an action whose answer is known. With no budget only `Wedged` does not return: the controller
polls for ever, and the state says so (log entry 9). With a budget of `n` polls an answer must be there within them. -/
def waitFlag (act : BusAction) (ans : EnvAnswer) (s : State) : Wait :=
  match s.cfg.pollBudget, ans with
  | none, .done raw d _ => .done raw d (deliver act raw d s)
  | none, .wedged => .hang (s.setActivity (.waiting act))
  | some n, .done raw d late =>
    if late < n then .done raw d (deliver act raw d s)
    else .timeout (giveUp (some { act := act, status := raw, data := d }) s)
  | some _, .wedged => .timeout (giveUp none s)

/-- A primitive that waits (R108 to R112), after its preamble. -/
def runWaiting (p : Prim) (s : State) : Flow OpResult :=
  match waitFlag (p.action s.ctl.phase) (s.env.receive s.cfg (p.action s.ctl.phase)).1
      ((launch (p.action s.ctl.phase) s).setEnv (s.env.receive s.cfg (p.action s.ctl.phase)).2) with
  | .done raw d s' => .done (p.result s.cfg raw d) ((s'.setPhase p.phaseAfter).emit ((p.action s.ctl.phase).event d))
  | .timeout s' => .done .timeout s'
  | .hang s' => .spin s'

/-- STOP (R113), after its preamble: no wait, no status. The launch clears `ctl.flag`, and the completion of the stop does not
set it again (log entry 25). -/
def runStop (s : State) : State :=
  (((launch .stop s).setEnv (s.env.receiveStop s.cfg)).setCtl
    { (launch .stop s).ctl with phase := .free, stopPending := true }).emit .p

/-- One bus primitive (R108 to R113). -/
def runPrim (p : Prim) (s : State) : Flow OpResult :=
  match preamble p s with
  | .unresponsive => .done .unresponsive s
  | .fault r s' => .fault r s'
  | .pass s' => if p = .stop then .done .unit (runStop s') else runWaiting p s'

/-! ### Register transactions: expansions into primitives (41_register_access.md R140 to R142) -/

/-- What a transaction has collected: the first `Err(raw)`, the bytes received in order, and whether any primitive
returned `Timeout` or `Unresponsive` (R142). -/
structure Txn where
  st : Option Byte
  bytes : List Byte
  lost : Bool
  deriving DecidableEq, Repr

/-- Nothing collected yet. -/
def Txn.empty : Txn where
  st := none
  bytes := []
  lost := false

/-- Collect one primitive's result (R142). -/
def Txn.note (t : Txn) : OpResult → Txn
  | .unit => t
  | .ok => t
  | .err raw => { t with st := t.st.or (some raw) }
  | .timeout => { t with lost := true }
  | .unresponsive => { t with lost := true }
  | .byte d => { t with bytes := t.bytes ++ [d] }
  | .value _ => t
  | .int _ => t

/-- Issue primitives one after another, whatever the earlier ones returned (R141). -/
def runSeq : List Prim → Txn → State → Flow Txn
  | [], t, s => .done t s
  | p :: ps, t, s => (runPrim p s).bind (fun r s' => runSeq ps (t.note r) s')

/-- A register transaction (R140): only from `Free`, then its expansion. -/
def transaction (ps : List Prim) (s : State) : Flow Txn :=
  if s.ctl.phase ≠ .free then .fault .protocolOrder s else runSeq ps Txn.empty s

/-- `TxnResult(st, v)` (R142). -/
def txnResult (cfg : Params) (t : Txn) (v : OpResult) : OpResult :=
  if t.lost then .unresponsive
  else match cfg.errProp, t.st with
    | .ignore, _ => v
    | .propagate, none => v
    | .propagate, some raw => .err raw

/-- The expansion of SET_POINTER (R144). -/
def setPointerSeq (cfg : Params) (reg : Byte) : List Prim :=
  [.start, .sendAddr (addrW cfg), .sendByte cfg.opPointer, .sendByte reg, .stop]

/-- The expansion of WRITE_BYTE (R145). -/
def writeByteSeq (cfg : Params) (reg v : Byte) : List Prim :=
  [.start, .sendAddr (addrW cfg), .sendByte reg, .sendByte v, .stop]

/-- The expansion of WRITE_BLOCK (R146). -/
def writeBlockSeq (cfg : Params) (reg n : Byte) (bs : List Byte) : List Prim :=
  setPointerSeq cfg reg ++
    ([.start, .sendAddr (addrW cfg), .sendByte cfg.opBlockWrite, .sendByte n] ++ (bs.map Prim.sendByte ++ [.stop]))

/-- The expansion of READ_BYTE (R147). -/
def readByteSeq (cfg : Params) (reg : Byte) : List Prim :=
  setPointerSeq cfg reg ++ [.start, .sendAddr (addrR cfg), .recvNack, .stop]

/-- The expansion of READ_BLOCK (R148): n - 1 bytes acknowledged, the last not. -/
def readBlockSeq (cfg : Params) (reg n : Byte) : List Prim :=
  setPointerSeq cfg reg ++
    ([.start, .sendAddr (addrW cfg), .sendByte cfg.opBlockRead, .sendByte n, .start, .sendAddr (addrR cfg)] ++
      (List.replicate (n.toNat - 1) Prim.recvAck ++ [.recvNack, .stop]))

/-! ### Pseudo-instructions (30_encoding.md R80): fixed sequences of commands -/

/-- `WRITE_CMD c`. -/
def writeCmdInstr (cfg : Params) (c : Byte) : Instr := .writeByte (regBase cfg .ctrlHi) c
/-- `READ_STATUS`. -/
def readStatusInstr (cfg : Params) : Instr := .readByte (regBase cfg .status)
/-- `WRITE_REG16 reg, v`. -/
def writeReg16Instr (reg : Byte) (v : U16) : Instr := .writeBlock reg 2 (bytes2 v)
/-- `WRITE_REG24 reg, v`. -/
def writeReg24Instr (reg : Byte) (v : U24) : Instr := .writeBlock reg 3 (bytes3 v)
/-- `READ_REG16 reg`. -/
def readReg16Instr (reg : Byte) : Instr := .readBlock reg 2

end Sys2Proof.Machine
end

