-- ==== Sys2Proof/Machine/Bus.lean ====
section
/-! DEFINITION. The bus primitives (spec 40_bus_primitives.md): CONFIGURE, START, SEND_ADDR, SEND_BYTE, RECV_ACK, RECV_NACK, STOP. -/

namespace Sys2Proof.Machine

/-- The body of CONFIGURE (R101), after the operand check. It runs no preamble. -/
def configureBody (speed : Byte) (s : State) : Flow OpResult :=
  if s.ctl.configured then .fault .configureTwice s
  else .done .unit (s.setCtl { s.ctl with enabled := true, divider := .val (Config.divider speed), configured := true })

/-- CONFIGURE speed (R101). -/
def execConfigure (speed : Byte) (s : State) : Result := command (.configure speed) s (configureBody speed)

/-- START (R108). -/
def execStart (s : State) : Result := command .start s (runPrim .start)

/-- SEND_ADDR a (R109). -/
def execSendAddr (a : Byte) (s : State) : Result := command (.sendAddr a) s (runPrim (.sendAddr a))

/-- SEND_BYTE b (R110). -/
def execSendByte (b : Byte) (s : State) : Result := command (.sendByte b) s (runPrim (.sendByte b))

/-- RECV_ACK (R111). -/
def execRecvAck (s : State) : Result := command .recvAck s (runPrim .recvAck)

/-- RECV_NACK (R112). -/
def execRecvNack (s : State) : Result := command .recvNack s (runPrim .recvNack)

/-- STOP (R113). -/
def execStop (s : State) : Result := command .stop s (runPrim .stop)

end Sys2Proof.Machine
end

