-- ==== Sys2Proof/Machine/Platform.lean ====
section
/-! DEFINITION. The digital output (spec 60_exceptions.md R232): SET_RANGE. -/

namespace Sys2Proof.Machine

/-- The body of SET_RANGE (R232), after the operand check: the level is 0 or 1. -/
def setRangeBody (level : Byte) (s : State) : Flow OpResult := .done .unit (s.setGpio { range := .val (level.setWidth 1) })

/-- SET_RANGE level (R232). -/
def execSetRange (level : Byte) (s : State) : Result := command (.setRange level) s (setRangeBody level)

end Sys2Proof.Machine
end

