-- ==== Sys2Proof/Machine/RegisterAccess.lean ====
section
/-! DEFINITION. The register transactions (spec 41_register_access.md): SET_POINTER, WRITE_BYTE, WRITE_BLOCK, READ_BYTE, READ_BLOCK. -/

namespace Sys2Proof.Machine

/-- A client's register transaction: its expansion, and the result of R142 with the data `v` reads from the bytes received. -/
def transactionBody (ps : List Prim) (v : Txn → OpResult) (s : State) : Flow OpResult :=
  (transaction ps s).bind (fun t s' => .done (txnResult s'.cfg t (v t)) s')

/-- SET_POINTER reg (R144). -/
def execSetPointer (reg : Byte) (s : State) : Result :=
  command (.setPointer reg) s (transactionBody (setPointerSeq s.cfg reg) (fun _ => .unit))

/-- WRITE_BYTE reg, v (R145). -/
def execWriteByte (reg v : Byte) (s : State) : Result :=
  command (.writeByte reg v) s (transactionBody (writeByteSeq s.cfg reg v) (fun _ => .unit))

/-- WRITE_BLOCK reg, n, bs (R146). -/
def execWriteBlock (reg n : Byte) (bs : List Byte) (s : State) : Result :=
  command (.writeBlock reg n bs) s (transactionBody (writeBlockSeq s.cfg reg n bs) (fun _ => .unit))

/-- READ_BYTE reg (R147). -/
def execReadByte (reg : Byte) (s : State) : Result :=
  command (.readByte reg) s (transactionBody (readByteSeq s.cfg reg) (fun t => .value (rxByte t.bytes 0).toNat))

/-- READ_BLOCK reg, n (R148; n = 0 is refused, R149). -/
def execReadBlock (reg n : Byte) (s : State) : Result :=
  command (.readBlock reg n) s (transactionBody (readBlockSeq s.cfg reg n) (fun t => .value (assemble s.cfg n t.bytes)))

end Sys2Proof.Machine
end

