-- ==== Sys2Proof/Machine/Sweep.lean ====
section
/-! DEFINITION. The sweep controller (spec 42_sweep_controller.md): CONFIGURE_SWEEP, BEGIN_SWEEP, PROCESS_STEP and its steps,
MEASURE_TEMPERATURE, and the accessors GET_REAL, GET_IMAG, GET_TEMPERATURE. -/

namespace Sys2Proof.Machine

/-! ### Transactions inside an operation -/

/-- A register transaction inside an operation of this file: its internal pair (41_register_access.md R142), or the early
end of R187 when it returned `Unresponsive`. -/
def innerTxn (ps : List Prim) (s : State) : Flow Txn :=
  (transaction ps s).bind (fun t s' => if t.lost then .quit s' else .done t s')

/-- `WRITE_CMD c` (30_encoding.md R80; 92_eei_decisions.md D25). -/
def writeCmd (c : Byte) (s : State) : Flow Txn := innerTxn (writeByteSeq s.cfg (regBase s.cfg .ctrlHi) c) s

/-- `WRITE_BLOCK REG_r, width, bs` for a register of the map (R178; D26). -/
def writeReg (r : DevReg) (bs : List Byte) (s : State) : Flow Txn :=
  innerTxn (writeBlockSeq s.cfg (regBase s.cfg r) (regWidth r) bs) s

/-- `READ_BLOCK REG_r, 2` for a 2-byte register of the map (R182, R188; D27). -/
def readReg16 (r : DevReg) (s : State) : Flow Txn :=
  innerTxn (readBlockSeq s.cfg (regBase s.cfg r) (regWidth r)) s

/-- `StepResult` (R193), from the first `Err` of the operation's transactions. -/
def stepResult (cfg : Params) (st : Option Byte) : OpResult :=
  match cfg.errProp, st with
  | .ignore, _ => .unit
  | .propagate, none => .unit
  | .propagate, some raw => .err raw

/-- `ctx.trigger <- t`. -/
def State.setTrigger (s : State) (t : Trigger) : State := s.setCtx { s.ctx with trigger := t }

/-! ### The status poll (R177) and what follows it -/

/-- The mask an operation polls for (R182, R188). -/
def PollJob.mask (cfg : Params) : PollJob → Byte
  | .sweep => cfg.maskDataValid
  | .temperature => cfg.maskTempValid

/-- The StartMeasure step after its poll (R182): the two samples, standby, and the trigger. -/
def afterSweepPoll (st : Option Byte) (s : State) : Flow OpResult :=
  (readReg16 .real s).bind fun tr s1 =>
  (readReg16 .imag s1).bind fun ti s2 =>
  (writeCmd s2.cfg.cmdStandby (s2.setCtx { s2.ctx with
      real := .val (decode16 (word16 tr.bytes)), imag := .val (decode16 (word16 ti.bytes)) })).bind fun tw s3 =>
  .done (stepResult s3.cfg (((st.or tr.st).or ti.st).or tw.st)) (s3.setTrigger .dftComplete)

/-- MEASURE_TEMPERATURE after its poll (R188). -/
def afterTemperaturePoll (st : Option Byte) (s : State) : Flow OpResult :=
  (readReg16 .temp s).bind fun t s1 =>
  .done (stepResult s1.cfg (st.or t.st)) (s1.setCtx { s1.ctx with temperature := .val (decodeTemp (word16 t.bytes)) })

/-- What follows a poll that saw its bit. -/
def afterPoll (job : PollJob) (st : Option Byte) (s : State) : Flow OpResult :=
  match job with
  | .sweep => afterSweepPoll st s
  | .temperature => afterTemperaturePoll st s

/-- Whether the `k`-th status read of a poll is the last of the budget: `POLL_BUDGET = some n and k >= n` (R177). -/
def pollsSpent (cfg : Params) (k : Nat) : Bool :=
  match cfg.pollBudget with
  | none => false
  | some n => decide (n ≤ k)

/-- One turn of the loop of `PollStatus(mask)` (R177), `k` reads having been made, and what follows when it is the last.
A turn that sees the bit clear, with budget left, leaves the operation in progress: the next step makes the next read
(log entry 10). -/
def pollTurn (job : PollJob) (k : Nat) (st : Option Byte) (s : State) : Flow OpResult :=
  (innerTxn (readByteSeq s.cfg (regBase s.cfg .status)) s).bind fun t s1 =>
  let s2 := s1.setCtx { s1.ctx with lastStatus := .val (rxByte t.bytes 0) }
  if maskSet (rxByte t.bytes 0) (job.mask s2.cfg) then afterPoll job (st.or t.st) s2
  else if pollsSpent s2.cfg (k + 1) then .quit (s2.setCtl { s2.ctl with unresponsive := true })
  else .spin (s2.setActivity (.polling job (k + 1) (st.or t.st)))

/-! ### The entry points -/

/-- The context CONFIGURE_SWEEP writes before its first transaction (R178). -/
def programmed (cfg : Params) (startHz deltaHz : U32) (nInc : U16) (c : Ctx) : Ctx :=
  { c with
    startCode := .val (freqCode cfg startHz.toNat)
    deltaCode := .val (freqCode cfg deltaHz.toNat)
    nInc := .val (nInc.setWidth 9)
    settleCode := .val (settleCode startHz.toNat deltaHz.toNat nInc.toNat) }

/-- The body of CONFIGURE_SWEEP (R178), after the operand check. -/
def configureSweepBody (startHz deltaHz : U32) (nInc : U16) (s : State) : Flow OpResult :=
  (writeReg .start (bytes3 (freqCode s.cfg startHz.toNat))
      (delay (s.setCtx (programmed s.cfg startHz deltaHz nInc s.ctx)))).bind fun t1 s1 =>
  (writeReg .delta (bytes3 (freqCode s.cfg deltaHz.toNat)) s1).bind fun t2 s2 =>
  (writeReg .nInc (bytes2 nInc) s2).bind fun t3 s3 =>
  (writeReg .settle (bytes2 (settleCode startHz.toNat deltaHz.toNat nInc.toNat)) s3).bind fun t4 s4 =>
  (writeCmd s4.cfg.cmdStandby s4).bind fun t5 s5 =>
  .done (stepResult s5.cfg ((((t1.st.or t2.st).or t3.st).or t4.st).or t5.st)) (s5.setTrigger .idle)

/-- CONFIGURE_SWEEP startHz, deltaHz, nInc (R178). -/
def execConfigureSweep (startHz deltaHz : U32) (nInc : U16) (s : State) : Result :=
  command (.configureSweep startHz deltaHz nInc) s (configureSweepBody startHz deltaHz nInc)

/-- The body of BEGIN_SWEEP (R179). -/
def beginSweepBody (s : State) : Flow OpResult :=
  if s.ctx.trigger ≠ .idle then .fault .sweepBusy s else .done .unit (s.setTrigger .startMeasure)

/-- BEGIN_SWEEP (R179). -/
def execBeginSweep (s : State) : Result := command .beginSweep s beginSweepBody

/-- The StartMeasure step (R182), up to and with the first turn of its poll. -/
def stepStartMeasure (s : State) : Flow OpResult :=
  (writeCmd s.cfg.cmdInit s).bind fun t1 s1 =>
  (writeCmd s1.cfg.cmdStartSweep (delay s1)).bind fun t2 s2 =>
  pollTurn .sweep 0 (t1.st.or t2.st) s2

/-- The trigger the DftComplete step chooses (R183): sweep-done first, then the caller's choice. -/
def afterDft (cfg : Params) (choice status : Byte) : Trigger :=
  if maskSet status cfg.maskSweepDone then .stopMeasure
  else if choice = 0 then .frequencySweepNext
  else .frequencyRepeat

/-- The DftComplete step (R183). -/
def stepDftComplete (choice : Byte) (s : State) : Flow OpResult :=
  readReg s.ctx.lastStatus s (fun status => .done .unit (s.setTrigger (afterDft s.cfg choice status)))

/-- A step that writes one command and moves the trigger (R184 to R186). -/
def stepCommand (c : Byte) (t : Trigger) (s : State) : Flow OpResult :=
  (writeCmd c s).bind fun tw s1 => .done (stepResult s1.cfg tw.st) (s1.setTrigger t)

/-- The body of PROCESS_STEP (R180), after the operand check: at most one state's action. -/
def processStepBody (choice : Byte) (s : State) : Flow OpResult :=
  match s.ctx.trigger with
  | .idle => .done .unit s
  | .startMeasure => stepStartMeasure s
  | .dftComplete => stepDftComplete choice s
  | .frequencySweepNext => stepCommand s.cfg.cmdIncrement .startMeasure s
  | .frequencyRepeat => stepCommand s.cfg.cmdRepeat .startMeasure s
  | .stopMeasure => stepCommand s.cfg.cmdPowerDown .idle s

/-- PROCESS_STEP choice (R180). -/
def execProcessStep (choice : Byte) (s : State) : Result := command (.processStep choice) s (processStepBody choice)

/-- The body of MEASURE_TEMPERATURE (R188), up to and with the first turn of its poll. -/
def measureTemperatureBody (s : State) : Flow OpResult :=
  (writeCmd s.cfg.cmdMeasureTemp s).bind fun t1 s1 => pollTurn .temperature 0 t1.st s1

/-- MEASURE_TEMPERATURE (R188). -/
def execMeasureTemperature (s : State) : Result := command .measureTemperature s measureTemperatureBody

/-- Return an integer field of the context to the client (R189 to R191). -/
def accessor (r : Reg Int) (s : State) : Flow OpResult := readReg r s (fun v => .done (.int v) s)

/-- GET_REAL (R189). -/
def execGetReal (s : State) : Result := command .getReal s (accessor s.ctx.real)

/-- GET_IMAG (R190). -/
def execGetImag (s : State) : Result := command .getImag s (accessor s.ctx.imag)

/-- GET_TEMPERATURE (R191). -/
def execGetTemperature (s : State) : Result := command .getTemperature s (accessor s.ctx.temperature)

end Sys2Proof.Machine
end

