-- ==== Sys2Proof/Machine/Dispatch.lean ====
section
/-! DEFINITION. One arm per operation: the meaning it calls. -/

namespace Sys2Proof.Machine

def exec (i : Instr) (s : State) : Host.Outcome State Fault Refusal :=
  match i with
  | .configure speed => Sys2Proof.Machine.execConfigure speed s
  | .start => Sys2Proof.Machine.execStart s
  | .sendAddr a => Sys2Proof.Machine.execSendAddr a s
  | .sendByte b => Sys2Proof.Machine.execSendByte b s
  | .recvAck => Sys2Proof.Machine.execRecvAck s
  | .recvNack => Sys2Proof.Machine.execRecvNack s
  | .stop => Sys2Proof.Machine.execStop s
  | .setPointer reg => Sys2Proof.Machine.execSetPointer reg s
  | .writeByte reg v => Sys2Proof.Machine.execWriteByte reg v s
  | .writeBlock reg n bs => Sys2Proof.Machine.execWriteBlock reg n bs s
  | .readByte reg => Sys2Proof.Machine.execReadByte reg s
  | .readBlock reg n => Sys2Proof.Machine.execReadBlock reg n s
  | .configureSweep startHz deltaHz nInc => Sys2Proof.Machine.execConfigureSweep startHz deltaHz nInc s
  | .beginSweep => Sys2Proof.Machine.execBeginSweep s
  | .processStep choice => Sys2Proof.Machine.execProcessStep choice s
  | .measureTemperature => Sys2Proof.Machine.execMeasureTemperature s
  | .getReal => Sys2Proof.Machine.execGetReal s
  | .getImag => Sys2Proof.Machine.execGetImag s
  | .getTemperature => Sys2Proof.Machine.execGetTemperature s
  | .setRange level => Sys2Proof.Machine.execSetRange level s

end Sys2Proof.Machine
end

