-- ==== Sys2Proof/Machine/Fetch.lean ====
section
/-! DEFINITION. What the next step of the machine is: to stop, to be the environment's own, to go on with the operation in
progress, to refuse bytes that are no command, or to perform the client's next command (30_encoding.md R70, R73; 20_memory.md R56;
40_bus_primitives.md R114, R115). -/

namespace Sys2Proof.Machine

/-- What comes next. -/
inductive Turn where
  /-- The step is this answer. -/
  | answer (r : Result)
  /-- The step performs this command in this state (its bytes taken off the stream). -/
  | perform (i : Instr) (s : State)

/-- Whether the environment has a step of its own to take: `StopDone`, "at any time while `ctl.stopPending` is true"
(40_bus_primitives.md R114(a), R115), or the completion of an action that outlived the poll budget (R103; log entry 12). -/
def State.envMayAct (s : State) : Bool := s.ctl.stopPending || s.env.late.isSome

/-- The environment's own step. `StopDone` "sets `ctl.stopPending <- false`" (R114(a)) and leaves the completion flag as it is
(log entry 25). -/
def envStep (s : State) : State :=
  if s.ctl.stopPending then s.setCtl { s.ctl with stopPending := false }
  else match s.env.late with
    | none => s
    | some l => deliver l.act l.status l.data (s.setEnv { s.env with late := none })

/-- The environment's choice, wherever it has one, to take its step before the block's next one or not: whether it does, and
the state then (log entry 11). -/
def envTurn (s : State) : Bool × State :=
  if s.envMayAct then
    (s.env.choose.1, if s.env.choose.1 then envStep (s.setEnv s.env.choose.2) else s.setEnv s.env.choose.2)
  else (false, s)

/-- The refusal reason of a rejected byte string (60_exceptions.md R227). -/
def refusalOf : DecodeError → RefusalReason
  | .invalidOpcode => .invalidOpcode
  | .truncated => .truncated

/-- The client's next command: none waiting, no command, or a command to perform (R70, R73, R74). -/
def fetch (s : State) : Turn :=
  match s.client.input with
  | [] => .answer (.next s)
  | b :: bs => match decode (b :: bs) with
    | .invalid e => .answer (.next (refuse (refusalOf e) s))
    | .ok i rest => .perform i (s.setInput rest)

/-- The environment's step, if it takes one, else the block's. -/
def afterEnv (s : State) (block : State → Turn) : Turn :=
  if (envTurn s).1 then .answer (.next (envTurn s).2) else block (envTurn s).2

/-- What the next step is. After a fault or a refusal there is none (60_exceptions.md R220). An operation in progress goes
on: a hung wait polls a flag that stays clear (40_bus_primitives.md R103; no stop is pending there, since the action's preamble
settled it), a status poll makes its next read (R177). -/
def turn (s : State) : Turn :=
  if !s.ctl.faults.isEmpty then .answer (.fault .afterFault)
  else if s.ctl.refused then .answer (.refused .afterRefusal)
  else match s.activity with
    | .waiting _ => .answer (.next s)
    | .polling job k st => afterEnv s (fun s' => .answer (finish (pollTurn job k st s')))
    | .idle => afterEnv s fetch

/-- The state with the client having written exactly the given bytes, and no operation in progress. -/
def placeCommand (s : State) (bs : List Byte) : State := (s.setActivity .idle).setInput bs

end Sys2Proof.Machine
end

