-- ==== Sys2Proof/Machine/Step.lean ====
section
/-! DEFINITION. One step of the machine, and the loader of one command. -/

namespace Sys2Proof.Machine

/-- One step. -/
def step (s : State) : Host.Outcome State Fault Refusal :=
  match turn s with
  | .answer r => r
  | .perform i s' => exec i s'

/-- `s` with the client having written exactly the command whose bytes are `w` in the numbering of
spec/opcode_table.json, so that the next step performs it (log entry 8). -/
def State.withFetchWord (s : State) (nbits w : Nat) : State := placeCommand s (tableCommand nbits w)

end Sys2Proof.Machine
end

