-- ==== Sys2Proof/Safety.lean ====
section
/-! DEFINITION. What claims about the block are stated in: when a state is ready for an operation, which histories of the wire
are legal, what an environment that completes every action in time supplies, and the invariant of the machine. -/

namespace Sys2Proof.Machine

/-! ### Parameters -/

/-- A mask "with exactly one bit set" (00_scope.md R12). -/
def oneBit (m : Byte) : Bool := (List.range 8).any (fun i => m == 1 <<< i)

/-- The conditions R12 to R16 put on the parameters. -/
def paramsWf (cfg : Params) : Bool :=
  oneBit cfg.maskTempValid && oneBit cfg.maskDataValid && oneBit cfg.maskSweepDone &&
  !cfg.expectStart.isEmpty && !cfg.expectAddr.isEmpty && !cfg.expectData.isEmpty &&
  decide (cfg.pollBudget ≠ some 0) && decide (0 < cfg.kNum) && decide (0 < cfg.kDen)

/-! ### When the machine takes a command -/

/-- "`ctl.faults` is empty and `ctl.refused` is false" (70_reset_and_hazards.md R254). -/
def State.unmarked (s : State) : Prop := s.ctl.faults.isEmpty = true ∧ s.ctl.refused = false

/-- Unmarked, and no operation in progress: the next command is performed. -/
def State.accepting (s : State) : Prop := s.unmarked ∧ s.activity = .idle

/-- The first two checks of the preamble pass (40_bus_primitives.md R100): configured, and no timeout so far. -/
def State.operational (s : State) : Prop := s.ctl.configured = true ∧ s.ctl.unresponsive = false

/-- A pending stop does not stand in the way (R114): there is none, or `STOP_OVERLAP = Ordered`. -/
def State.stopHarmless (s : State) : Prop := s.ctl.stopPending = false ∨ s.cfg.stopOverlap = .ordered

/-- The environment has no step of its own to take: no stop is pending (R114(a)), no late answer is outstanding (R103). -/
def State.quiet (s : State) : Prop := s.ctl.stopPending = false ∧ s.env.late = none

/-- The environment leaves the next step to the block, and is `e` then: it has no step to take, or it chooses not to take it
(R114(a), R115; log entry 11). -/
def State.envYields (s : State) (e : Env) : Prop := s.quiet ∧ e = s.env ∨ ¬ s.quiet ∧ s.env.choose = (false, e)

/-- What a register transaction needs to run to its end, whatever mode `STOP_OVERLAP` is in (41_register_access.md R140, R143):
an accepting, operational block in `Free`, with `Ordered` stops. -/
def State.readyForTransactions (s : State) : Prop :=
  s.accepting ∧ s.operational ∧ s.ctl.phase = .free ∧ s.cfg.stopOverlap = .ordered

/-- The operand values that decode but that the block refuses: the five rows of 30_encoding.md R75. -/
def operandRefused (cfg : Params) : Instr → Prop
  | .configure speed => speed ∉ cfg.speedClasses
  | .processStep choice => choice ≠ 0 ∧ choice ≠ 1
  | .setRange level => level ≠ 0 ∧ level ≠ 1
  | .configureSweep _ _ nInc => 511 < nInc.toNat
  | .readBlock _ n => n = 0
  | _ => False

/-! ### Legal histories of the wire -/

/-- The phase after one more completed bus action, or `none` where no transaction has that action there
(40_bus_primitives.md R106, read on events). -/
def phaseStep : BusPhase → BusEvent → Option BusPhase
  | .free, .s => some .started
  | .tx, .sr => some .started
  | .rx true, .sr => some .started
  | .started, .addrOut a => some (if isReadAddr a then .rx false else .tx)
  | .tx, .dataOut _ => some .tx
  | .rx false, .dataIn _ ack => some (.rx (!ack))
  | .tx, .p => some .free
  | .rx true, .p => some .free
  | _, _ => none

/-- The phase a history of bus events leads to from a given phase, or `none` if it is not a legal history. -/
def replay : BusPhase → List BusEvent → Option BusPhase
  | p, [] => some p
  | p, e :: es => (phaseStep p e).bind (fun p' => replay p' es)

/-! ### An environment that completes every action in time -/

/-- An answer that comes within the poll budget (R103). -/
def inTime (cfg : Params) (late : Nat) : Bool :=
  match cfg.pollBudget with
  | none => true
  | some n => decide (late < n)

/-- An answer that does not come within the poll budget: late, or never (R103). -/
def tooLate (cfg : Params) : EnvAnswer → Prop
  | .done _ _ late => inTime cfg late = false
  | .wedged => True

/-- The `Err(raw)` of the status check that follows an action, if it fails; receptions and stops check nothing (R104, R108 to R113). -/
def actionErr (cfg : Params) (raw : Byte) : BusAction → Option Byte
  | .start => if statusExpected cfg cfg.expectStart raw then none else some raw
  | .repStart => if statusExpected cfg cfg.expectStart raw then none else some raw
  | .addrOut _ => if statusExpected cfg cfg.expectAddr raw then none else some raw
  | .dataOut _ => if statusExpected cfg cfg.expectData raw then none else some raw
  | .dataIn _ => none
  | .stop => none

/-- The byte an action receives. -/
def actionByte (d : Byte) : BusAction → List Byte
  | .start => []
  | .repStart => []
  | .addrOut _ => []
  | .dataOut _ => []
  | .dataIn _ => [d]
  | .stop => []

/-- What a run of bus actions has left on the wire, in the controller's status and data registers and in the environment. -/
structure Service where
  /-- The completed actions, in order. -/
  events : List BusEvent
  /-- The first failed status check. -/
  firstErr : Option Byte
  /-- The bytes received, in order. -/
  bytes : List Byte
  /-- `ctl.status` and `ctl.data`. -/
  status : Reg Byte
  data : Reg Byte
  env : Env
  deriving DecidableEq, Repr

/-- Nothing done yet. -/
def Service.start (s : State) : Service where
  events := []
  firstErr := none
  bytes := []
  status := s.ctl.status
  data := s.ctl.data
  env := s.env

/-- One completed, awaited action more. -/
def Service.add (cfg : Params) (v : Service) (a : BusAction) (raw d : Byte) (env : Env) : Service where
  events := v.events ++ [a.event d]
  firstErr := v.firstErr.or (actionErr cfg raw a)
  bytes := v.bytes ++ actionByte d a
  status := .val raw
  data := a.incoming (a.outgoing v.data) d
  env := env

/-- The environment serves these actions one after another; `none` if it does not complete one of them in time.
A stop is not awaited (R113). -/
def serve (cfg : Params) : List BusAction → Service → Option Service
  | [], v => some v
  | .stop :: acts, v => serve cfg acts { v with events := v.events ++ [.p], env := v.env.receiveStop cfg }
  | a :: acts, v =>
    match v.env.receive cfg a with
    | (.done raw d late, env) => if inTime cfg late then serve cfg acts (v.add cfg a raw d env) else none
    | (.wedged, _) => none

/-! ### The wire frames of the register transactions (30_encoding.md R78) -/

/-- `S, ADDR_W, OP_POINTER, reg, P`. -/
def setPointerFrame (cfg : Params) (reg : Byte) : List BusAction :=
  [.start, .addrOut (addrW cfg), .dataOut cfg.opPointer, .dataOut reg, .stop]

/-- `S, ADDR_W, reg, v, P`. -/
def writeByteFrame (cfg : Params) (reg v : Byte) : List BusAction :=
  [.start, .addrOut (addrW cfg), .dataOut reg, .dataOut v, .stop]

/-- The SET_POINTER frame, then `S, ADDR_W, OP_BLOCK_WRITE, n, bs, P`. -/
def writeBlockFrame (cfg : Params) (reg n : Byte) (bs : List Byte) : List BusAction :=
  setPointerFrame cfg reg ++
    ([.start, .addrOut (addrW cfg), .dataOut cfg.opBlockWrite, .dataOut n] ++ (bs.map BusAction.dataOut ++ [.stop]))

/-- The SET_POINTER frame, then `S, ADDR_R, [b0 NACK], P`. -/
def readByteFrame (cfg : Params) (reg : Byte) : List BusAction :=
  setPointerFrame cfg reg ++ [.start, .addrOut (addrR cfg), .dataIn false, .stop]

/-- The SET_POINTER frame, then `S, ADDR_W, OP_BLOCK_READ, n, Sr, ADDR_R, [b0 ACK], …, [b(n-1) NACK], P`. -/
def readBlockFrame (cfg : Params) (reg n : Byte) : List BusAction :=
  setPointerFrame cfg reg ++
    ([.start, .addrOut (addrW cfg), .dataOut cfg.opBlockRead, .dataOut n, .repStart, .addrOut (addrR cfg)] ++
      (List.replicate (n.toNat - 1) (BusAction.dataIn true) ++ [.dataIn false, .stop]))

/-- The frame of a register transaction. -/
def transactionFrame (cfg : Params) : Instr → List BusAction
  | .setPointer reg => setPointerFrame cfg reg
  | .writeByte reg v => writeByteFrame cfg reg v
  | .writeBlock reg n bs => writeBlockFrame cfg reg n bs
  | .readByte reg => readByteFrame cfg reg
  | .readBlock reg n => readBlockFrame cfg reg n
  | _ => []

/-- What a transaction whose primitives all completed reports to the client (41_register_access.md R142): its value, but under
`Propagate` the first failed status check. -/
def reported (cfg : Params) (firstErr : Option Byte) (v : OpResult) : OpResult :=
  match cfg.errProp, firstErr with
  | .propagate, some raw => .err raw
  | _, _ => v

/-- The state after transactions that were served: nothing but `ctl.flag`, `status`, `data`, `phase`, `trace`, `stopPending`,
the environment and the client's outcome has changed (41_register_access.md R140, R143). The flag is as the last launch, of a
stop, left it (R102; log entry 25). -/
def afterTransactions (s : State) (v : Service) (r : OpResult) : State :=
  { s with
    ctl := { s.ctl with
      flag := false
      status := v.status
      data := v.data
      phase := .free
      trace := s.ctl.trace ++ v.events
      stopPending := true }
    env := v.env
    activity := .idle
    client := { s.client with last := some (.completed r) } }

/-- The bytes a block of frames received from position `i` on, as a u16 (big-endian, 20_memory.md R51). -/
def receivedWord (v : Service) (i : Nat) : U16 := join2 (rxByte v.bytes i) (rxByte v.bytes (i + 1))

/-! ### The bus actions of the sweep operations (42_sweep_controller.md R178, R182, R188) -/

/-- `WRITE_CMD c` (30_encoding.md R80). -/
def writeCmdFrame (cfg : Params) (c : Byte) : List BusAction := writeByteFrame cfg cfg.regs.ctrlHi c

/-- One status read of a poll (R177). -/
def statusFrame (cfg : Params) : List BusAction := readByteFrame cfg cfg.regs.status

/-- The five transactions of CONFIGURE_SWEEP (R178). -/
def configureSweepFrame (cfg : Params) (startHz deltaHz : U32) (nInc : U16) : List BusAction :=
  writeBlockFrame cfg cfg.regs.start 3 (bytes3 (freqCode cfg startHz.toNat)) ++
  (writeBlockFrame cfg cfg.regs.delta 3 (bytes3 (freqCode cfg deltaHz.toNat)) ++
  (writeBlockFrame cfg cfg.regs.nInc 2 (bytes2 nInc) ++
  (writeBlockFrame cfg cfg.regs.settle 2 (bytes2 (settleCode startHz.toNat deltaHz.toNat nInc.toNat)) ++
  writeCmdFrame cfg cfg.cmdStandby)))

/-- What the StartMeasure step sends after its poll (R182). -/
def sampleFrame (cfg : Params) : List BusAction :=
  readBlockFrame cfg cfg.regs.real 2 ++ (readBlockFrame cfg cfg.regs.imag 2 ++ writeCmdFrame cfg cfg.cmdStandby)

/-- The two commands a StartMeasure step sends before its poll (R182). -/
def startMeasureFrame (cfg : Params) : List BusAction := writeCmdFrame cfg cfg.cmdInit ++ writeCmdFrame cfg cfg.cmdStartSweep

/-- What a poll whose next read sees its bit sends: that read and what follows it (R177, R182, R188). -/
def pollFrame (cfg : Params) : PollJob → List BusAction
  | .sweep => statusFrame cfg ++ sampleFrame cfg
  | .temperature => statusFrame cfg ++ readBlockFrame cfg cfg.regs.temp 2

/-- What PROCESS_STEP sends from each trigger, when a first status read sees its bit (R182 to R186). -/
def stepFrame (cfg : Params) : Trigger → List BusAction
  | .idle => []
  | .startMeasure => startMeasureFrame cfg ++ pollFrame cfg .sweep
  | .dftComplete => []
  | .frequencySweepNext => writeCmdFrame cfg cfg.cmdIncrement
  | .frequencyRepeat => writeCmdFrame cfg cfg.cmdRepeat
  | .stopMeasure => writeCmdFrame cfg cfg.cmdPowerDown

/-- What MEASURE_TEMPERATURE sends, when its first status read sees its bit (R188). -/
def temperatureFrame (cfg : Params) : List BusAction := writeCmdFrame cfg cfg.cmdMeasureTemp ++ pollFrame cfg .temperature

/-- What a sweep operation sends, when its first status read sees its bit (R178, R182 to R186, R188). -/
def sweepFrame (s : State) : Instr → List BusAction
  | .configureSweep startHz deltaHz nInc => configureSweepFrame s.cfg startHz deltaHz nInc
  | .processStep _ => stepFrame s.cfg s.ctx.trigger
  | .measureTemperature => temperatureFrame s.cfg
  | .configure _ => []
  | .start => []
  | .sendAddr _ => []
  | .sendByte _ => []
  | .recvAck => []
  | .recvNack => []
  | .stop => []
  | .setPointer _ => []
  | .writeByte _ _ => []
  | .writeBlock _ _ _ => []
  | .readByte _ => []
  | .readBlock _ _ => []
  | .beginSweep => []
  | .getReal => []
  | .getImag => []
  | .getTemperature => []
  | .setRange _ => []

/-- The status bit a poll waits for (R182, R188). -/
def awaitedBit (cfg : Params) : PollJob → Byte
  | .sweep => cfg.maskDataValid
  | .temperature => cfg.maskTempValid

/-- The first byte of a service is the status byte of a poll that sees its bit: "`(status & mask) != 0`" (R177). -/
def Service.seesBit (cfg : Params) (job : PollJob) (v : Service) : Prop := rxByte v.bytes 0 &&& awaitedBit cfg job ≠ 0

/-- The context after a poll that saw its bit and what followed it, from the bytes received: the status byte, then the two samples
or the temperature (R182, R188). -/
def measured (job : PollJob) (v : Service) (c : Ctx) : Ctx :=
  match job with
  | .sweep => { c with
      lastStatus := .val (rxByte v.bytes 0)
      real := .val (decode16 (receivedWord v 1))
      imag := .val (decode16 (receivedWord v 3))
      trigger := .dftComplete }
  | .temperature => { c with
      lastStatus := .val (rxByte v.bytes 0)
      temperature := .val (decodeTemp (receivedWord v 1)) }

/-- The context after a measurement that ended early (R187), from the bytes received before the end: the status if its read was
over, the two samples once both were in; never the temperature or the trigger, which are written last. -/
def partlyMeasured (job : PollJob) (v : Service) (c : Ctx) : Ctx :=
  match job with
  | .sweep => { c with
      lastStatus := if v.bytes = [] then c.lastStatus else .val (rxByte v.bytes 0)
      real := if v.bytes.length < 5 then c.real else .val (decode16 (receivedWord v 1))
      imag := if v.bytes.length < 5 then c.imag else .val (decode16 (receivedWord v 3)) }
  | .temperature => { c with lastStatus := if v.bytes = [] then c.lastStatus else .val (rxByte v.bytes 0) }

/-- The register the reference slave stores a data byte to, if it stores it (92_eei_decisions.md D39): the same cases and the
same address as `Slave.takeByte`. -/
def Slave.storeAddr (sl : Slave) : Option Byte :=
  match sl.pos with
  | .storing i count => if i < count then some (slaveAddr sl.ptr i) else none
  | .register reg => some reg
  | _ => none

/-! ### A transaction as the sequence of its primitives (41_register_access.md R140) -/

/-- Perform commands one after another, as long as the machine takes a next command. -/
def execAll : List Instr → State → Result
  | [], s => .next s
  | i :: is, s =>
    match exec i s with
    | .next s' =>
      if s'.ctl.faults.isEmpty && !s'.ctl.refused && decide (s'.activity = .idle) then execAll is s' else .next s'
    | .fault r => .fault r
    | .refused r => .refused r

/-- The primitive commands of a register transaction, in the order of its rule (R144 to R148). -/
def expansion (cfg : Params) : Instr → List Instr
  | .setPointer reg => [.start, .sendAddr (addrW cfg), .sendByte cfg.opPointer, .sendByte reg, .stop]
  | .writeByte reg v => [.start, .sendAddr (addrW cfg), .sendByte reg, .sendByte v, .stop]
  | .writeBlock reg n bs =>
    [.start, .sendAddr (addrW cfg), .sendByte cfg.opPointer, .sendByte reg, .stop,
     .start, .sendAddr (addrW cfg), .sendByte cfg.opBlockWrite, .sendByte n] ++ bs.map Instr.sendByte ++ [.stop]
  | .readByte reg =>
    [.start, .sendAddr (addrW cfg), .sendByte cfg.opPointer, .sendByte reg, .stop,
     .start, .sendAddr (addrR cfg), .recvNack, .stop]
  | .readBlock reg n =>
    [.start, .sendAddr (addrW cfg), .sendByte cfg.opPointer, .sendByte reg, .stop,
     .start, .sendAddr (addrW cfg), .sendByte cfg.opBlockRead, .sendByte n, .start, .sendAddr (addrR cfg)] ++
      List.replicate (n.toNat - 1) Instr.recvAck ++ [.recvNack, .stop]
  | i => [i]

/-- The five register transactions. -/
def isTransaction : Instr → Bool
  | .setPointer _ => true
  | .writeByte _ _ => true
  | .writeBlock _ _ _ => true
  | .readByte _ => true
  | .readBlock _ _ => true
  | _ => false

/-- The seven bus primitives. -/
def isPrimitive : Instr → Bool
  | .configure _ => true
  | .start => true
  | .sendAddr _ => true
  | .sendByte _ => true
  | .recvAck => true
  | .recvNack => true
  | .stop => true
  | _ => false

/-- The primitive command of a `Prim`. -/
def Prim.instr : Prim → Instr
  | .start => .start
  | .sendAddr a => .sendAddr a
  | .sendByte b => .sendByte b
  | .recvAck => .recvAck
  | .recvNack => .recvNack
  | .stop => .stop

/-! ### The trigger's transitions (42_sweep_controller.md R192) -/

/-- One row of the table of R192: how a command may move the trigger, given the context it finds. -/
inductive TriggerRow (cfg : Params) (c : Ctx) : Instr → Trigger → Prop where
  | begin : c.trigger = .idle → TriggerRow cfg c .beginSweep .startMeasure
  | measured (ch : Byte) : c.trigger = .startMeasure → TriggerRow cfg c (.processStep ch) .dftComplete
  | sweepDone (ch st : Byte) : c.trigger = .dftComplete → c.lastStatus = .val st → maskSet st cfg.maskSweepDone = true →
      TriggerRow cfg c (.processStep ch) .stopMeasure
  | advance (st : Byte) : c.trigger = .dftComplete → c.lastStatus = .val st → maskSet st cfg.maskSweepDone = false →
      TriggerRow cfg c (.processStep 0) .frequencySweepNext
  | again (st : Byte) : c.trigger = .dftComplete → c.lastStatus = .val st → maskSet st cfg.maskSweepDone = false →
      TriggerRow cfg c (.processStep 1) .frequencyRepeat
  | incremented (ch : Byte) : c.trigger = .frequencySweepNext → TriggerRow cfg c (.processStep ch) .startMeasure
  | repeated (ch : Byte) : c.trigger = .frequencyRepeat → TriggerRow cfg c (.processStep ch) .startMeasure
  | stopped (ch : Byte) : c.trigger = .stopMeasure → TriggerRow cfg c (.processStep ch) .idle
  | programmed (f d : U32) (n : U16) : TriggerRow cfg c (.configureSweep f d n) .idle

/-! ### The invariant -/

/-- An integer field that is unwritten or holds a value in a range. -/
def Reg.within (lo hi : Int) : Reg Int → Prop
  | .unwritten => True
  | .val i => lo ≤ i ∧ i ≤ hi

/-- What the operation in progress implies (40_bus_primitives.md R103, 42_sweep_controller.md R177, R182). -/
def activityOk (s : State) : Prop :=
  match s.activity with
  | .idle => True
  | .waiting _ =>
    s.cfg.pollBudget = none ∧ s.ctl.flag = false ∧ s.ctl.configured = true ∧ s.ctl.stopPending = false
  | .polling job k _ =>
    s.ctl.phase = .free ∧ s.ctl.configured = true ∧ 0 < k ∧ pollsSpent s.cfg k = false ∧
      s.ctx.lastStatus ≠ .unwritten ∧ (job = .sweep → s.ctx.trigger = .startMeasure)

/-- The invariant of the machine. -/
structure State.Inv (s : State) : Prop where
  /-- The trace is a legal history of the wire, and `ctl.phase` is where it leads (10_state.md R26, R27; R106, R107). -/
  wire : replay .free s.ctl.trace = some s.ctl.phase
  /-- CONFIGURE writes its three fields together (R22, R101). -/
  enabled : s.ctl.enabled = s.ctl.configured
  divider : s.ctl.divider = .unwritten ↔ s.ctl.configured = false
  /-- Before CONFIGURE there is no bus activity (R100, R255). -/
  unconfigured : s.ctl.configured = false →
    s.ctl.trace = [] ∧ s.ctl.status = .unwritten ∧ s.ctl.data = .unwritten ∧ s.ctl.stopPending = false ∧ s.ctl.unresponsive = false
  /-- A stop is pending only outside a transaction (R113). -/
  stop : s.ctl.stopPending = true → s.ctl.phase = .free
  /-- The unresponsive mark needs a poll budget (R29, R105). -/
  unresponsive : s.ctl.unresponsive = true → s.cfg.pollBudget ≠ none
  /-- Samples are 16-bit two's complement; the decoded temperature has its range (R17, R32, R174, R175). -/
  real : s.ctx.real.within (-32768) 32767
  imag : s.ctx.imag.within (-32768) 32767
  temperature : s.ctx.temperature.within (-256) 1535
  /-- "`ctx.lastStatus` cannot be unwritten" in `DftComplete` (R183). -/
  dft : s.ctx.trigger = .dftComplete → s.ctx.lastStatus ≠ .unwritten
  activity : activityOk s
  /-- Only a timeout leaves an action that may still complete (R103). -/
  late : s.env.late ≠ none → s.ctl.unresponsive = true
  /-- The reference slave's register file is in canonical form. -/
  memory : s.env.slave.mem.wf = true

/-- What no step ever takes back (10_state.md R22, R27, R29; 60_exceptions.md R226; 70_reset_and_hazards.md R251): the parameters,
the configured bit, the marks, and the events recorded. -/
structure Monotone (s t : State) : Prop where
  cfg : t.cfg = s.cfg
  configured : s.ctl.configured = true → t.ctl.configured = true ∧ t.ctl.enabled = s.ctl.enabled ∧ t.ctl.divider = s.ctl.divider
  unresponsive : s.ctl.unresponsive = true → t.ctl.unresponsive = true
  refused : s.ctl.refused = true → t.ctl.refused = true
  faults : ∀ r, s.ctl.faults.has r = true → t.ctl.faults.has r = true
  trace : ∃ es, t.ctl.trace = s.ctl.trace ++ es

end Sys2Proof.Machine
end

