-- ==== Sys2Proof/Certificates/Slice0/Obligations.lean ====
section
/-! DEFINITION. The statements about the block, for the provers. Each docstring names the rules it formalises or rests on, and
the log entry where a clause is the model's choice. -/

open Sys2Proof Sys2Proof.Machine

/-! ### The command stream (30_encoding.md) -/

/-- Decoding the bytes of a well-formed command gives it back, with every operand at every value, and leaves the bytes
after it (R70 to R73). -/
def Obligations.DecodeOfEncodeIsTheCommand : Prop :=
  ∀ (i : Instr) (rest : List Byte), i.wellFormed = true → decode (encode i ++ rest) = .ok i rest

/-- A byte string that decodes is the encoding of the command it decodes to, which is well-formed, and the rest (R73). -/
def Obligations.DecodedBytesAreTheEncoding : Prop :=
  ∀ (bs : List Byte) (i : Instr) (rest : List Byte), decode bs = .ok i rest → i.wellFormed = true ∧ bs = encode i ++ rest

/-- A first byte is an invalid opcode exactly when it is one of the reserved values R74 lists. -/
def Obligations.ReservedOpcodesAreInvalid : Prop :=
  ∀ (b : Byte) (bs : List Byte), decode (b :: bs) = .invalid .invalidOpcode ↔
    (b.toNat = 0x00 ∨ (0x08 ≤ b.toNat ∧ b.toNat ≤ 0x0F) ∨ (0x15 ≤ b.toNat ∧ b.toNat ≤ 0x1F) ∨ (0x28 ≤ b.toNat ∧ b.toNat ≤ 0xFF))

/-- A command whose last byte is missing is truncated, wherever it is cut after its first byte (R73). -/
def Obligations.CutCommandIsTruncated : Prop :=
  ∀ (i : Instr) (k : Nat), i.wellFormed = true → 0 < k → k < (encode i).length →
    decode ((encode i).take k) = .invalid .truncated

/-- Words of the opcode map, one for each family, written out from R72 (with a WRITE_BLOCK and a CONFIGURE_SWEEP of
95_test_vectors.md V-EN-2 and V-EN-4). -/
def Obligations.WordsFromTheOpcodeMapDecode : Prop :=
  decode [0x01, 0x00] = .ok (.configure 0) [] ∧
  decode [0x03, 0x1A, 0x07] = .ok (.sendAddr 0x1A) [0x07] ∧
  decode [0x12, 0x88, 0x02, 0x01, 0xFF] = .ok (.writeBlock 0x88 2 [0x01, 0xFF]) [] ∧
  decode [0x14, 0x94, 0x02] = .ok (.readBlock 0x94 2) [] ∧
  decode [0x20, 0x00, 0x00, 0x75, 0x30, 0x00, 0x00, 0x00, 0x0A, 0x00, 0x02] = .ok (.configureSweep 30000 10 2) [] ∧
  decode [0x22, 0x01] = .ok (.processStep 1) [] ∧
  decode [0x27, 0x01] = .ok (.setRange 1) []

/-! ### The step -/

/-- With no mark and nothing in progress, a step performs the command at the head of the stream, its bytes taken off
(R70, 20_memory.md R56), unless the environment takes a step of its own first (40_bus_primitives.md R114(a)): it has none to take,
and is as before, or chooses not to take it, and has made that choice. How the choice is drawn is the model's (log entry 11). -/
def Obligations.StepPerformsTheDecodedCommand : Prop :=
  ∀ (s : State) (i : Instr) (rest : List Byte) (e : Env), s.accepting → s.envYields e →
    decode s.client.input = .ok i rest → step s = exec i ((s.setEnv e).setInput rest)

/-- Bytes that are no command are refused: only the mark `ctl.refused` and the client's outcome change, with the reason that
names the defect (30_encoding.md R74, 60_exceptions.md R227). That the bytes stay on the stream is the model's choice (log
entry 23); so is how the environment's choice not to act first is drawn (log entry 11). -/
def Obligations.StepRefusesBytesThatAreNoCommand : Prop :=
  ∀ (s : State) (err : DecodeError) (e : Env), s.accepting → s.envYields e → s.client.input ≠ [] →
    decode s.client.input = .invalid err →
    step s = .next { s with
      ctl := { s.ctl with refused := true }
      client := { s.client with last := some (.refused (match err with
        | .invalidOpcode => .invalidOpcode
        | .truncated => .truncated)) }
      env := e }

/-- After a fault or a refusal the block takes no further step, whatever command is issued (60_exceptions.md R220,
R226, R227). A reason that a fault adds is in the set, which is then not empty, and the other reasons are as before (R29). -/
def Obligations.NoStepAfterAFaultOrARefusal : Prop :=
  (∀ (s : State) (i : Instr),
    (s.ctl.faults.isEmpty = false → step s = .fault .afterFault ∧ exec i s = .fault .afterFault) ∧
    (s.ctl.faults.isEmpty = true → s.ctl.refused = true → step s = .refused .afterRefusal ∧ exec i s = .refused .afterRefusal)) ∧
  (∀ (f : FaultSet) (r : FaultReason),
    (f.add r).has r = true ∧ (f.add r).isEmpty = false ∧ ∀ r', r' ≠ r → (f.add r).has r' = f.has r') ∧
  (∀ f : FaultSet, f.isEmpty = true ↔ ∀ r, f.has r = false)

/-- The environment may take a step of its own before any step of the block, whether commands wait, a status poll is in progress
or the client is idle: `StopDone` while a stop is pending, after which the stop is over and nothing else of the block changes
(40_bus_primitives.md R114(a), R115); else the completion of an action that outlived the poll budget (R103). In a hung wait no
stop can be pending. With no command waiting nothing else happens. When an answer that came too late completes, and how the
environment's choice is drawn, is the model's (log entries 11, 12); so is that `StopDone` leaves the flag (log entry 25). -/
def Obligations.TheEnvironmentMayActBeforeEveryStep : Prop :=
  (∀ (s : State), s.unmarked → (∀ act, s.activity ≠ .waiting act) → s.env.choose.1 = true →
    (s.ctl.stopPending = true →
      step s = .next { s with ctl := { s.ctl with stopPending := false }, env := s.env.choose.2 }) ∧
    (∀ l, s.ctl.stopPending = false → s.env.late = some l →
      step s = .next { s with
        ctl := { s.ctl with
          flag := true
          status := .val l.status
          data := match l.act with
            | .dataIn _ => .val l.data
            | _ => s.ctl.data }
        env := { s.env.choose.2 with late := none } })) ∧
  (∀ (s : State) (e : Env), s.accepting → s.client.input = [] → s.envYields e → step s = .next { s with env := e })

/-- A hang is an infinite run (40_bus_primitives.md R103, 60_exceptions.md R228): in a hung wait every further step is one more
poll of a flag that stays clear, for ever. -/
def Obligations.AHungWaitPollsForEver : Prop :=
  ∀ (s : State) (act : BusAction), s.unmarked → s.activity = .waiting act → ∀ n : Nat, Sys2Proof.core.run n s = .next s

/-- A command issued while an operation is in progress is refused with `Concurrent` (60_exceptions.md R236), whatever its operands:
that this check comes before the one for `BadOperand` is the model's reading (log entry 17; R230 only puts operand refusals before
any state is read). -/
def Obligations.OverlappingCommandIsRefused : Prop :=
  ∀ (s : State) (i : Instr), s.unmarked → s.activity ≠ .idle →
    exec i s = .next { s with
      ctl := { s.ctl with refused := true }
      client := { s.client with last := some (.refused .concurrent) } }

/-- The operand values of R75 are refused before any effect: the refusal sets only the mark. No other operand value is
refused: with any other operands, whatever the next state is, it does not carry the mark (30_encoding.md R75). -/
def Obligations.ExactlyTheseOperandsAreRefused : Prop :=
  ∀ (s : State) (i : Instr), s.accepting →
    (operandRefused s.cfg i →
      exec i s = .next { s with
        ctl := { s.ctl with refused := true }
        client := { s.client with last := some (.refused .badOperand) } }) ∧
    (¬ operandRefused s.cfg i → ∀ t, exec i s = .next t → t.ctl.refused = false)

/-! ### Reset -/

/-- The state at bring-up, for any parameters: every field at the value 10_state.md R41 gives it. The completion flag is any
Bool, and the statement says nothing of it. -/
def Obligations.BringUpHoldsTheResetValues : Prop :=
  ∀ (cfg : Params) (flag : Bool), ∃ s : State, s = State.bringUp cfg flag ∧
    s.ctl.configured = false ∧ s.ctl.enabled = false ∧ s.ctl.divider = .unwritten ∧ s.ctl.status = .unwritten ∧
    s.ctl.data = .unwritten ∧ s.ctl.phase = .free ∧ s.ctl.stopPending = false ∧ s.ctl.trace = [] ∧
    s.ctl.unresponsive = false ∧ (∀ r, s.ctl.faults.has r = false) ∧ s.ctl.refused = false ∧
    s.ctx.trigger = .idle ∧ s.ctx.startCode = .unwritten ∧ s.ctx.deltaCode = .unwritten ∧ s.ctx.nInc = .unwritten ∧
    s.ctx.settleCode = .unwritten ∧ s.ctx.real = .unwritten ∧ s.ctx.imag = .unwritten ∧ s.ctx.temperature = .unwritten ∧
    s.ctx.lastStatus = .unwritten ∧ s.gpio.range = .unwritten

/-- The reset state is a bring-up state, and every bring-up state satisfies the invariant, whatever the parameters
and the flag. The parameters of the reset state are the model's choice (log entry 2). -/
def Obligations.ResetSatisfiesTheInvariant : Prop :=
  State.reset = State.bringUp Params.reference false ∧ ∀ (cfg : Params) (flag : Bool), (State.bringUp cfg flag).Inv

/-! ### Whole-machine rules -/

/-- Every step keeps the invariant: the trace stays a legal history that leads to `ctl.phase` (R26, R106, R107), samples stay
16-bit, `DftComplete` never finds `ctx.lastStatus` unwritten (R183), a pending stop is outside a transaction (R113), and so on. -/
def Obligations.EveryStepKeepsTheInvariant : Prop :=
  ∀ (s t : State), s.Inv → step s = .next t → t.Inv

/-- No step takes anything back: parameters, the configured bit and what CONFIGURE wrote, the marks, and the recorded events
(10_state.md R22, R27, R29; 70_reset_and_hazards.md R251). -/
def Obligations.NoStepTakesBackMarksOrEvents : Prop :=
  ∀ (s t : State), step s = .next t → Monotone s t

/-- The table of R192 holds every change of the trigger: a command moves it only by a row of the table, and a
resumed poll only from `StartMeasure` to `DftComplete`. -/
def Obligations.TriggerMovesOnlyByTheTable : Prop :=
  (∀ (s t : State) (i : Instr), exec i s = .next t →
    t.ctx.trigger = s.ctx.trigger ∨ TriggerRow s.cfg s.ctx i t.ctx.trigger) ∧
  (∀ (s t : State) (job : PollJob) (k : Nat) (st : Option Byte), s.Inv → s.activity = .polling job k st → step s = .next t →
    t.ctx.trigger = s.ctx.trigger ∨
      (job = .sweep ∧ s.ctx.trigger = .startMeasure ∧ t.ctx.trigger = .dftComplete))

/-- "The bus controller has no knowledge of the target chip" (40_bus_primitives.md R116): a bus primitive neither reads nor
writes the device context and the digital output. Whatever they hold, it does the same, and they come out as they went in. -/
def Obligations.BusPrimitivesIgnoreContextAndOutput : Prop :=
  ∀ (i : Instr) (s : State) (c : Ctx) (g : Gpio), isPrimitive i = true →
    (∀ t, exec i s = .next t → exec i ((s.setCtx c).setGpio g) = .next ((t.setCtx c).setGpio g)) ∧
    (∀ t, exec i s = .next t → t.ctx = s.ctx ∧ t.gpio = s.gpio)

/-- "A transaction's meaning is its expansion, and nothing else" (41_register_access.md R140): from `Free`, a register
transaction comes to the state that its primitives, issued one after another as commands of their own, come to. Only the
client's outcome differs. -/
def Obligations.ATransactionIsItsExpansion : Prop :=
  ∀ (i : Instr) (s : State), isTransaction i = true → ¬ operandRefused s.cfg i → s.accepting → s.ctl.phase = .free →
    ∃ t u, exec i s = .next t ∧ execAll (expansion s.cfg i) s = .next u ∧ t.setLast none = u.setLast none

/-- What each command leaves unchanged (10_state.md R36). The command stream and the parameters always; the output but
for SET_RANGE; every field of the context but those R36 lets the command write; and for the commands that do no bus work, also
the bus registers that are not theirs, the environment and every byte of the reference slave. A resumed poll writes the fields of
its operation. -/
def Obligations.WhatEachCommandLeavesUnchanged : Prop :=
  (∀ (i : Instr) (s t : State), exec i s = .next t →
    t.client.input = s.client.input ∧ t.cfg = s.cfg ∧
    ((∀ level, i ≠ .setRange level) → t.gpio = s.gpio) ∧
    t.ctx = (match i with
      | .configureSweep _ _ _ => { s.ctx with
          startCode := t.ctx.startCode, deltaCode := t.ctx.deltaCode, nInc := t.ctx.nInc, settleCode := t.ctx.settleCode
          trigger := t.ctx.trigger }
      | .beginSweep => { s.ctx with trigger := t.ctx.trigger }
      | .processStep _ => { s.ctx with
          trigger := t.ctx.trigger, real := t.ctx.real, imag := t.ctx.imag, lastStatus := t.ctx.lastStatus }
      | .measureTemperature => { s.ctx with temperature := t.ctx.temperature, lastStatus := t.ctx.lastStatus }
      | _ => s.ctx) ∧
    ((∀ speed, i ≠ .configure speed) →
      t.ctl.configured = s.ctl.configured ∧ t.ctl.enabled = s.ctl.enabled ∧ t.ctl.divider = s.ctl.divider) ∧
    ((match i with
      | .configure _ => True
      | .beginSweep => True
      | .getReal => True
      | .getImag => True
      | .getTemperature => True
      | .setRange _ => True
      | _ => False) →
      t.ctl.flag = s.ctl.flag ∧ t.ctl.status = s.ctl.status ∧ t.ctl.data = s.ctl.data ∧ t.ctl.phase = s.ctl.phase ∧
      t.ctl.trace = s.ctl.trace ∧ t.ctl.stopPending = s.ctl.stopPending ∧ t.ctl.unresponsive = s.ctl.unresponsive ∧
      t.env = s.env ∧ ∀ a, Memory.read t.env.slave.mem a = Memory.read s.env.slave.mem a)) ∧
  (∀ (job : PollJob) (k : Nat) (st : Option Byte) (s t : State), s.activity = .polling job k st → step s = .next t →
    t.client.input = s.client.input ∧ t.cfg = s.cfg ∧ t.gpio = s.gpio ∧
    t.ctx = (match job with
      | .sweep => { s.ctx with
          trigger := t.ctx.trigger, real := t.ctx.real, imag := t.ctx.imag, lastStatus := t.ctx.lastStatus }
      | .temperature => { s.ctx with temperature := t.ctx.temperature, lastStatus := t.ctx.lastStatus }))

/-- Which bytes of the reference slave a bus primitive changes (92_eei_decisions.md D39): none, but for a data byte the slave
stores, and then only the register it stores it to. -/
def Obligations.OnlyADataByteChangesTheSlave : Prop :=
  ∀ (p : Prim) (s t : State), s.Inv → exec p.instr s = .next t →
    (∀ a : Nat, (match p with
        | .sendByte _ => ∀ x, s.env.slave.storeAddr = some x → x.toNat ≠ a
        | _ => True) →
      Memory.read t.env.slave.mem a = Memory.read s.env.slave.mem a)

/-- Which bytes of the reference slave a register transaction or a sweep operation changes (92_eei_decisions.md D39, R144 to R148,
R178 to R188): WRITE_BYTE at most its register, WRITE_BLOCK at most the `n` registers from its own on (wrapping mod 256),
CONFIGURE_SWEEP the command register and the four registers it programs, PROCESS_STEP and a resumed sweep poll the command
register, MEASURE_TEMPERATURE the command register, and everything else none. -/
def Obligations.TransactionsStoreOnlyToTheirRegisters : Prop :=
  (∀ (i : Instr) (s t : State), s.Inv → (match i with | .sendByte _ => False | _ => True) → exec i s = .next t →
    (∀ a : Nat, (match i with
        | .writeByte reg _ => reg.toNat ≠ a
        | .writeBlock reg n _ => ∀ k, k < n.toNat → (slaveAddr reg k).toNat ≠ a
        | .configureSweep _ _ _ =>
          (regBase s.cfg .ctrlHi).toNat ≠ a ∧
          (∀ k, k < 3 → (slaveAddr (regBase s.cfg .start) k).toNat ≠ a ∧ (slaveAddr (regBase s.cfg .delta) k).toNat ≠ a) ∧
          (∀ k, k < 2 → (slaveAddr (regBase s.cfg .nInc) k).toNat ≠ a ∧ (slaveAddr (regBase s.cfg .settle) k).toNat ≠ a)
        | .processStep _ => (regBase s.cfg .ctrlHi).toNat ≠ a
        | .measureTemperature => (regBase s.cfg .ctrlHi).toNat ≠ a
        | _ => True) →
      Memory.read t.env.slave.mem a = Memory.read s.env.slave.mem a)) ∧
  (∀ (job : PollJob) (k : Nat) (st : Option Byte) (s t : State), s.Inv → s.activity = .polling job k st → step s = .next t →
    (∀ a : Nat, (job = .sweep → (regBase s.cfg .ctrlHi).toNat ≠ a) →
      Memory.read t.env.slave.mem a = Memory.read s.env.slave.mem a))

/-! ### The bus primitives (40_bus_primitives.md) -/

/-- CONFIGURE speed (R101): a speed outside `SPEED_CLASSES` is refused; else the first call enables the peripheral, programs the
divider and returns `Unit`, and a second call raises `ConfigureTwice` and writes nothing else. -/
def Obligations.ConfigureCompletesOnce : Prop :=
  ∀ (s : State) (speed : Byte), s.accepting →
    encode (.configure speed) = [0x01, speed] ∧
    (speed ∉ s.cfg.speedClasses →
      exec (.configure speed) s = .next { s with
        ctl := { s.ctl with refused := true }
        client := { s.client with last := some (.refused .badOperand) } }) ∧
    (speed ∈ s.cfg.speedClasses → s.ctl.configured = false →
      exec (.configure speed) s = .next { s with
        ctl := { s.ctl with configured := true, enabled := true, divider := .val (Config.divider speed) }
        client := { s.client with last := some (.completed .unit) } }) ∧
    (speed ∈ s.cfg.speedClasses → s.ctl.configured = true →
      exec (.configure speed) s = .next { s with
        ctl := { s.ctl with faults := s.ctl.faults.add .configureTwice }
        client := { s.client with last := some (.faulted .configureTwice) } })

/-- START in `Free` (a start) and in `Tx` or `Rx(true)` (a repeated start), when the environment completes it in time with
status `raw` (R108). -/
def Obligations.StartCompletes : Prop :=
  ∀ (s : State) (act : BusAction) (raw d : Byte) (late : Nat) (env : Env), s.accepting → s.operational → s.stopHarmless →
    (s.ctl.phase = .free ∧ act = .start ∨ (s.ctl.phase = .tx ∨ s.ctl.phase = .rx true) ∧ act = .repStart) →
    s.env.receive s.cfg act = (.done raw d late, env) → inTime s.cfg late = true →
    exec .start s = .next { s with
      ctl := { s.ctl with
        flag := true, status := .val raw, phase := .started, stopPending := false
        trace := s.ctl.trace ++ [if s.ctl.phase = .free then .s else .sr] }
      env := env
      client := { s.client with last := some (.completed (check s.cfg s.cfg.expectStart raw)) } }

/-- SEND_ADDR a after a start: the phase follows bit 0 of `a`, whatever the status (R109, R107). -/
def Obligations.SendAddrCompletes : Prop :=
  ∀ (s : State) (a raw d : Byte) (late : Nat) (env : Env), s.accepting → s.operational → s.stopHarmless →
    s.ctl.phase = .started → s.env.receive s.cfg (.addrOut a) = (.done raw d late, env) → inTime s.cfg late = true →
    exec (.sendAddr a) s = .next { s with
      ctl := { s.ctl with
        flag := true, status := .val raw, data := .val a, stopPending := false
        phase := if a.getLsbD 0 then .rx false else .tx
        trace := s.ctl.trace ++ [.addrOut a] }
      env := env
      client := { s.client with last := some (.completed (check s.cfg s.cfg.expectAddr raw)) } }

/-- SEND_BYTE b in `Tx`: the phase stays (R110). -/
def Obligations.SendByteCompletes : Prop :=
  ∀ (s : State) (b raw d : Byte) (late : Nat) (env : Env), s.accepting → s.operational → s.stopHarmless →
    s.ctl.phase = .tx → s.env.receive s.cfg (.dataOut b) = (.done raw d late, env) → inTime s.cfg late = true →
    exec (.sendByte b) s = .next { s with
      ctl := { s.ctl with
        flag := true, status := .val raw, data := .val b, stopPending := false
        trace := s.ctl.trace ++ [.dataOut b] }
      env := env
      client := { s.client with last := some (.completed (check s.cfg s.cfg.expectData raw)) } }

/-- RECV_ACK in `Rx(false)`: the byte comes back, acknowledged; the status is not checked (R111). -/
def Obligations.RecvAckCompletes : Prop :=
  ∀ (s : State) (raw d : Byte) (late : Nat) (env : Env), s.accepting → s.operational → s.stopHarmless →
    s.ctl.phase = .rx false → s.env.receive s.cfg (.dataIn true) = (.done raw d late, env) → inTime s.cfg late = true →
    exec .recvAck s = .next { s with
      ctl := { s.ctl with
        flag := true, status := .val raw, data := .val d, stopPending := false
        trace := s.ctl.trace ++ [.dataIn d true] }
      env := env
      client := { s.client with last := some (.completed (.byte d)) } }

/-- RECV_NACK in `Rx(false)`: the byte comes back, not acknowledged, and the phase records it (R112). -/
def Obligations.RecvNackCompletes : Prop :=
  ∀ (s : State) (raw d : Byte) (late : Nat) (env : Env), s.accepting → s.operational → s.stopHarmless →
    s.ctl.phase = .rx false → s.env.receive s.cfg (.dataIn false) = (.done raw d late, env) → inTime s.cfg late = true →
    exec .recvNack s = .next { s with
      ctl := { s.ctl with
        flag := true, status := .val raw, data := .val d, stopPending := false, phase := .rx true
        trace := s.ctl.trace ++ [.dataIn d false] }
      env := env
      client := { s.client with last := some (.completed (.byte d)) } }

/-- STOP in `Tx` or `Rx(true)`: no wait, no status; the phase is `Free` and the stop is pending (R113). -/
def Obligations.StopCompletes : Prop :=
  ∀ (s : State), s.accepting → s.operational → s.stopHarmless → (s.ctl.phase = .tx ∨ s.ctl.phase = .rx true) →
    exec .stop s = .next { s with
      ctl := { s.ctl with flag := false, phase := .free, stopPending := true, trace := s.ctl.trace ++ [.p] }
      env := s.env.receiveStop s.cfg
      client := { s.client with last := some (.completed .unit) } }

/-- The checks of the preamble, in its order (R100): not configured; the unresponsive mark (no bus action, no state
change); a pending stop that is cleared (`Ordered`) or faults unless the environment has taken `StopDone` (`Fault`);
a phase R106 does not allow. -/
def Obligations.ThePreambleChecksInOrder : Prop :=
  ∀ (p : Prim) (s : State), s.accepting →
    (s.ctl.configured = false → exec p.instr s = .next (raiseFault .notConfigured s)) ∧
    (s.ctl.configured = true → s.ctl.unresponsive = true →
      exec p.instr s = .next { s with client := { s.client with last := some (.completed .unresponsive) } }) ∧
    (s.operational → s.ctl.stopPending = true → s.cfg.stopOverlap = .fault → s.env.choose.1 = false →
      exec p.instr s = .next (raiseFault .stopOverlap (s.setEnv s.env.choose.2))) ∧
    (s.operational → s.ctl.stopPending = true → s.cfg.stopOverlap = .fault → s.env.choose.1 = true →
      exec p.instr s = exec p.instr ((s.setEnv s.env.choose.2).setCtl { s.ctl with stopPending := false })) ∧
    (s.operational → s.stopHarmless →
      (match p with
        | .start => s.ctl.phase = .started ∨ s.ctl.phase = .rx false
        | .sendAddr _ => s.ctl.phase ≠ .started
        | .sendByte _ => s.ctl.phase ≠ .tx
        | .recvAck => s.ctl.phase ≠ .rx false
        | .recvNack => s.ctl.phase ≠ .rx false
        | .stop => s.ctl.phase ≠ .tx ∧ s.ctl.phase ≠ .rx true) →
      exec p.instr s = .next (raiseFault .protocolOrder (s.setCtl { s.ctl with stopPending := false })))

/-- An action that never completes (R103, R105, R228). With no budget the operation does not complete: no event, no phase
change, and the state waits. With a budget, and likewise for an answer later than it, the primitive returns `Timeout`
and sets the unresponsive mark: no event, no phase change. That a late answer reaches the registers only after the operation has
ended is the model's choice (log entry 12). -/
def Obligations.AWaitHangsOrTimesOut : Prop :=
  ∀ (p : Prim) (s : State), s.accepting → s.operational → s.stopHarmless → p ≠ .stop → p.allowed s.ctl.phase = true →
    (s.cfg.pollBudget = none → (s.env.receive s.cfg (p.action s.ctl.phase)).1 = .wedged →
      exec p.instr s = .next { s with
        ctl := { s.ctl with flag := false, data := (p.action s.ctl.phase).outgoing s.ctl.data, stopPending := false }
        env := (s.env.receive s.cfg (p.action s.ctl.phase)).2
        activity := .waiting (p.action s.ctl.phase)
        client := { s.client with last := none } }) ∧
    (∀ n, s.cfg.pollBudget = some n →
      ((s.env.receive s.cfg (p.action s.ctl.phase)).1 = .wedged ∨
        ∃ raw d late, (s.env.receive s.cfg (p.action s.ctl.phase)).1 = .done raw d late ∧ n ≤ late) →
      ∃ t, exec p.instr s = .next t ∧ t.ctl = { s.ctl with
          flag := false, data := (p.action s.ctl.phase).outgoing s.ctl.data, stopPending := false, unresponsive := true } ∧
        t.client.last = some (.completed .timeout) ∧ t.ctx = s.ctx ∧ t.gpio = s.gpio ∧ t.activity = .idle)

/-- `Check(E, raw)` in both modes (R104), and the consequence drawn there: with two or more codes the historical test gives
`Err(raw)` whatever the bus did, and with exactly one code the two modes agree. That the always-true test leads to the raw-status
branch, not to the success branch, is the spec's own reading (92_eei_decisions.md D9; 93_implementation_defined.md U2). -/
def Obligations.StatusCheckInBothModes : Prop :=
  ∀ (cfg : Params) (E : List Byte) (raw : Byte),
    (cfg.ackCheck = .corrected → check cfg E raw = if statusCode cfg raw ∈ E then .ok else .err raw) ∧
    (cfg.ackCheck = .historical → check cfg E raw = if ∃ e ∈ E, statusCode cfg raw ≠ e then .err raw else .ok) ∧
    (cfg.ackCheck = .historical → (∃ e ∈ E, ∃ f ∈ E, e ≠ f) → check cfg E raw = .err raw) ∧
    (∀ e cfg', E = [e] → cfg' = { cfg with ackCheck := .historical } → cfg.ackCheck = .corrected →
      check cfg' E raw = check cfg E raw)

/-! ### The register transactions (41_register_access.md) -/

/-- A register transaction or a sweep operation issued outside `Free` raises `ProtocolOrder` before any bus action (R140,
70_reset_and_hazards.md R264). CONFIGURE_SWEEP has written its four codes by then, and not its trigger (R178). That it faults also
in an unresponsive block is the model's reading (log entry 15). -/
def Obligations.TransactionsNeedAFreeBus : Prop :=
  ∀ (s : State) (i : Instr), s.accepting → s.ctl.phase ≠ .free → ¬ operandRefused s.cfg i →
    ((isTransaction i = true ∨ i = .measureTemperature ∨
        (∃ choice, i = .processStep choice) ∧ s.ctx.trigger ≠ .idle ∧ s.ctx.trigger ≠ .dftComplete) →
      exec i s = .next { s with
        ctl := { s.ctl with faults := s.ctl.faults.add .protocolOrder }
        client := { s.client with last := some (.faulted .protocolOrder) } }) ∧
    (∀ f d n, i = .configureSweep f d n →
      exec i s = .next { s with
        ctx := { s.ctx with
          startCode := .val (freqCode s.cfg f.toNat)
          deltaCode := .val (freqCode s.cfg d.toNat)
          nInc := .val (n.setWidth 9)
          settleCode := .val (settleCode f.toNat d.toNat n.toNat) }
        ctl := { s.ctl with faults := s.ctl.faults.add .protocolOrder }
        client := { s.client with last := some (.faulted .protocolOrder) } })

/-- SET_POINTER reg, when the environment completes every action in time: the frame of R144 on the wire, nothing else changed,
and the result of R142. -/
def Obligations.SetPointerCompletes : Prop :=
  ∀ (s : State) (reg : Byte) (v : Service), s.readyForTransactions →
    serve s.cfg (setPointerFrame s.cfg reg) (Service.start s) = some v →
    v.events = [.s, .addrOut (addrW s.cfg), .dataOut s.cfg.opPointer, .dataOut reg, .p] ∧
    exec (.setPointer reg) s = .next (afterTransactions s v (reported s.cfg v.firstErr .unit))

/-- WRITE_BYTE reg, v: the frame of R145, with no opcode byte. -/
def Obligations.WriteByteCompletes : Prop :=
  ∀ (s : State) (reg b : Byte) (v : Service), s.readyForTransactions →
    serve s.cfg (writeByteFrame s.cfg reg b) (Service.start s) = some v →
    v.events = [.s, .addrOut (addrW s.cfg), .dataOut reg, .dataOut b, .p] ∧
    exec (.writeByte reg b) s = .next (afterTransactions s v (reported s.cfg v.firstErr .unit))

/-- WRITE_BLOCK reg, n, bs: the frame of R146, the payload in transfer order. -/
def Obligations.WriteBlockCompletes : Prop :=
  ∀ (s : State) (reg n : Byte) (bs : List Byte) (v : Service), s.readyForTransactions →
    serve s.cfg (writeBlockFrame s.cfg reg n bs) (Service.start s) = some v →
    v.events = [.s, .addrOut (addrW s.cfg), .dataOut s.cfg.opPointer, .dataOut reg, .p,
      .s, .addrOut (addrW s.cfg), .dataOut s.cfg.opBlockWrite, .dataOut n] ++ bs.map BusEvent.dataOut ++ [.p] ∧
    exec (.writeBlock reg n bs) s = .next (afterTransactions s v (reported s.cfg v.firstErr .unit))

/-- READ_BYTE reg: the frame of R147, the one byte not acknowledged, and that byte as the value. -/
def Obligations.ReadByteCompletes : Prop :=
  ∀ (s : State) (reg : Byte) (v : Service), s.readyForTransactions →
    serve s.cfg (readByteFrame s.cfg reg) (Service.start s) = some v →
    ∃ b0, v.bytes = [b0] ∧
      v.events = [.s, .addrOut (addrW s.cfg), .dataOut s.cfg.opPointer, .dataOut reg, .p,
        .s, .addrOut (addrR s.cfg), .dataIn b0 false, .p] ∧
      exec (.readByte reg) s = .next (afterTransactions s v (reported s.cfg v.firstErr (.value b0.toNat)))

/-- READ_BLOCK reg, n with n from 1 to 255: the frame of R148, every byte but the last acknowledged, and the value of R150. -/
def Obligations.ReadBlockCompletes : Prop :=
  ∀ (s : State) (reg n : Byte) (v : Service), s.readyForTransactions → n ≠ 0 →
    serve s.cfg (readBlockFrame s.cfg reg n) (Service.start s) = some v →
    ∃ bs b, v.bytes = bs ++ [b] ∧ v.bytes.length = n.toNat ∧
      v.events = [.s, .addrOut (addrW s.cfg), .dataOut s.cfg.opPointer, .dataOut reg, .p,
        .s, .addrOut (addrW s.cfg), .dataOut s.cfg.opBlockRead, .dataOut n, .sr, .addrOut (addrR s.cfg)] ++
        bs.map (fun x => BusEvent.dataIn x true) ++ [.dataIn b false, .p] ∧
      exec (.readBlock reg n) s = .next (afterTransactions s v (reported s.cfg v.firstErr (.value (assemble s.cfg n v.bytes))))

/-- `STOP_OVERLAP = Fault` inside one transaction (R143, 95_test_vectors.md V-RA-17): WRITE_BLOCK, READ_BYTE and READ_BLOCK send
the SET_POINTER frame, and then their second START faults unless the environment has taken `StopDone`. -/
def Obligations.SecondStartMeetsThePendingStop : Prop :=
  ∀ (s : State) (i : Instr) (reg : Byte) (v : Service), s.accepting → s.operational → s.ctl.phase = .free →
    s.ctl.stopPending = false → s.cfg.stopOverlap = .fault → ¬ operandRefused s.cfg i →
    (match i with
      | .writeBlock r _ _ => r = reg
      | .readByte r => r = reg
      | .readBlock r _ => r = reg
      | _ => False) →
    serve s.cfg (setPointerFrame s.cfg reg) (Service.start s) = some v → v.env.choose.1 = false →
    ∃ t, exec i s = .next t ∧ t.ctl.trace = s.ctl.trace ++ v.events ∧ t.ctl.faults = s.ctl.faults.add .stopOverlap ∧
      t.ctl.phase = .free ∧ t.ctl.stopPending = true ∧ t.client.last = some (.faulted .stopOverlap) ∧
      t.ctx = s.ctx ∧ t.gpio = s.gpio ∧ t.env = v.env.choose.2

/-- A timeout inside a register transaction (R141, R142, R105): when the environment serves the actions `acts` of its frame and does
not complete the next one, `a`, within the poll budget, be it late or never, the remaining primitives have no effect and the result
is `Unresponsive` in both modes. The trace, the phase and the status are as the served actions left them; `a` has passed its
preamble, cleared the flag and put its outgoing byte, if it has one, into the data register. That a late answer reaches the registers
only after the operation has ended is the model's choice (log entry 12). -/
def Obligations.ATransactionAfterATimeoutIsUnresponsive : Prop :=
  ∀ (s : State) (i : Instr) (n : Nat) (acts rest : List BusAction) (a : BusAction) (v : Service), s.readyForTransactions →
    isTransaction i = true → ¬ operandRefused s.cfg i → s.cfg.pollBudget = some n →
    transactionFrame s.cfg i = acts ++ a :: rest → a ≠ .stop → serve s.cfg acts (Service.start s) = some v →
    tooLate s.cfg (v.env.receive s.cfg a).1 →
    ∃ t phase, exec i s = .next t ∧ replay .free v.events = some phase ∧
      t.ctl = { s.ctl with
        flag := false
        status := v.status
        data := match a with
          | .addrOut b => .val b
          | .dataOut b => .val b
          | _ => v.data
        phase := phase
        trace := s.ctl.trace ++ v.events
        stopPending := false
        unresponsive := true } ∧
      t.client = { s.client with last := some (.completed .unresponsive) } ∧
      t.ctx = s.ctx ∧ t.gpio = s.gpio ∧ t.cfg = s.cfg ∧ t.activity = .idle

/-- The early end of a sweep operation (R187): when the environment serves the actions `acts` it sends and does not complete the
next one, `a`, within the poll budget, the operation ends with `Unresponsive` and the mark, in both modes. What it wrote before
keeps its new value and what it would have written later its old one: CONFIGURE_SWEEP keeps its codes and the trigger,
PROCESS_STEP keeps the trigger, and the samples until both are in, MEASURE_TEMPERATURE keeps the temperature; the last
status is written once its read is over. The same holds of a resumed poll; that it is a step of its own is the model's choice (log
entry 10). -/
def Obligations.AnEarlyEndKeepsWhatWasWritten : Prop :=
  (∀ (s : State) (i : Instr) (n : Nat) (acts rest : List BusAction) (a : BusAction) (v : Service), s.readyForTransactions →
    ¬ operandRefused s.cfg i → s.cfg.pollBudget = some n →
    sweepFrame s i = acts ++ a :: rest → a ≠ .stop → serve s.cfg acts (Service.start s) = some v →
    (v.bytes ≠ [] → v.seesBit s.cfg (if i = .measureTemperature then .temperature else .sweep)) →
    tooLate s.cfg (v.env.receive s.cfg a).1 →
    ∃ t, exec i s = .next t ∧ t.client = { s.client with last := some (.completed .unresponsive) } ∧
      t.ctl.unresponsive = true ∧ t.ctl.trace = s.ctl.trace ++ v.events ∧ t.gpio = s.gpio ∧ t.activity = .idle ∧
      t.ctx = (match i with
        | .configureSweep f d n => { s.ctx with
            startCode := .val (freqCode s.cfg f.toNat)
            deltaCode := .val (freqCode s.cfg d.toNat)
            nInc := .val (n.setWidth 9)
            settleCode := .val (settleCode f.toNat d.toNat n.toNat) }
        | .measureTemperature => partlyMeasured .temperature v s.ctx
        | _ => partlyMeasured .sweep v s.ctx)) ∧
  (∀ (s : State) (job : PollJob) (k n : Nat) (st : Option Byte) (e : Env) (acts rest : List BusAction) (a : BusAction)
      (v : Service), s.unmarked → s.activity = .polling job k st → s.envYields e → s.operational → s.ctl.phase = .free →
    s.cfg.stopOverlap = .ordered → s.cfg.pollBudget = some n →
    pollFrame s.cfg job = acts ++ a :: rest → a ≠ .stop → serve s.cfg acts (Service.start (s.setEnv e)) = some v →
    (v.bytes ≠ [] → v.seesBit s.cfg job) → tooLate s.cfg (v.env.receive s.cfg a).1 →
    ∃ t, step s = .next t ∧ t.client = { s.client with last := some (.completed .unresponsive) } ∧
      t.ctl.unresponsive = true ∧ t.ctl.trace = s.ctl.trace ++ v.events ∧ t.gpio = s.gpio ∧ t.activity = .idle ∧
      t.ctx = partlyMeasured job v s.ctx)

/-- `Assemble(n, b)` (R150): big-endian for two bytes, and for three under `Combine`; otherwise the first byte. -/
def Obligations.AssembleReceivedBytes : Prop :=
  ∀ (cfg : Params) (n b0 b1 b2 : Byte) (bs : List Byte),
    assemble cfg 2 (b0 :: b1 :: bs) = b0.toNat <<< 8 ||| b1.toNat ∧
    (cfg.read3 = .combine → assemble cfg 3 (b0 :: b1 :: b2 :: bs) = b0.toNat <<< 16 ||| b1.toNat <<< 8 ||| b2.toNat) ∧
    (cfg.read3 = .firstByte → assemble cfg 3 (b0 :: b1 :: b2 :: bs) = b0.toNat) ∧
    (n ≠ 2 → n ≠ 3 → assemble cfg n (b0 :: bs) = b0.toNat)

/-- A value sent as `BE_n` and assembled from the same bytes comes back (20_memory.md R51, R150; 95_test_vectors.md V-RT-1). -/
def Obligations.BigEndianRoundTrip : Prop :=
  (∀ (cfg : Params) (v : U16), assemble cfg 2 (bytes2 v) = v.toNat) ∧
  (∀ (cfg : Params) (v : U24), cfg.read3 = .combine → assemble cfg 3 (bytes3 v) = v.toNat)

/-- Against the reference slave (92_eei_decisions.md D39; 95_test_vectors.md V-RT-1): a 16-bit value written with WRITE_BLOCK and read
with READ_BLOCK comes back, for every value and register, as long as no script overrides the registers and the three
transaction opcodes differ. The slave is no part of the block's guarantees (R115; log entry 18). -/
def Obligations.ReferenceSlaveReturnsWhatWasWritten : Prop :=
  ∀ (s : State) (reg : Byte) (x : U16), s.readyForTransactions → s.env.mode = .slave → s.env.slave.scripts = [] →
    s.env.slave.mem.wf = true → s.cfg.pollBudget ≠ some 0 → s.cfg.errProp = .ignore →
    s.cfg.opPointer ≠ s.cfg.opBlockWrite → s.cfg.opPointer ≠ s.cfg.opBlockRead → s.cfg.opBlockWrite ≠ s.cfg.opBlockRead →
    ∃ t u, exec (.writeBlock reg 2 (bytes2 x)) s = .next t ∧ exec (.readBlock reg 2) t = .next u ∧
      u.client.last = some (.completed (.value x.toNat))

/-- The slave's register file: a write keeps the canonical form, is read back at its address and nowhere else. -/
def Obligations.RegisterFileReadsWhatWasWritten : Prop :=
  ∀ (m : Memory) (a x : Nat) (v : Byte), m.wf = true → a < Memory.size →
    (Memory.write m a v).wf = true ∧ Memory.read (Memory.write m a v) x = if x = a then v else Memory.read m x

/-! ### The sweep controller (42_sweep_controller.md) -/

/-- `round` and the frequency code (R171, R172): the nearest natural number, a tie broken by `ROUND_TIE`, and the low 24 bits. The
settle code (R173): the floor of a thousandth of the last frequency, low 16 bits. -/
def Obligations.FrequencyAndSettleCodes : Prop :=
  (∀ (tie : RoundTie) (num den : Nat), 0 < den →
    (2 * (num % den) < den → roundRatio tie num den = num / den) ∧
    (den < 2 * (num % den) → roundRatio tie num den = num / den + 1) ∧
    (2 * (num % den) = den → roundRatio .halfAwayFromZero num den = num / den + 1 ∧
      roundRatio .halfEven num den % 2 = 0 ∧
      (roundRatio .halfEven num den = num / den ∨ roundRatio .halfEven num den = num / den + 1)) ∧
    (∀ (cfg : Params) (hz : Nat), (freqCode cfg hz).toNat = roundRatio cfg.roundTie (hz * cfg.kNum) cfg.kDen % 2 ^ 24)) ∧
  (∀ (f d n : Nat), (settleCode f d n).toNat = (f + d * n) / 1000 % 2 ^ 16 ∧ (f + d * n < 1000 → settleCode f d n = 0))

/-- Sample decoding (R174): it equals two's complement, and stays in its range. Temperature decoding (R175): piecewise,
truncating toward zero, with the ranges of its corner cases. -/
def Obligations.SamplesAndTemperaturesDecode : Prop :=
  (∀ (v : U16), decode16 v = v.toInt ∧ decode16 v = (if v.toNat > 0x7FFF then (v.toNat : Int) - 0x10000 else v.toNat) ∧
    -32768 ≤ decode16 v ∧ decode16 v ≤ 32767) ∧
  (∀ (raw : U16),
    decodeTemp raw = (if raw.toNat < 8192 then Int.tdiv raw.toNat 32 else Int.tdiv ((raw.toNat : Int) - 16384) 32) ∧
    (raw.toNat < 8192 → 0 ≤ decodeTemp raw ∧ decodeTemp raw ≤ 255) ∧
    (8192 ≤ raw.toNat → raw.toNat < 16384 → -256 ≤ decodeTemp raw ∧ decodeTemp raw ≤ 0) ∧
    (16384 ≤ raw.toNat → 0 ≤ decodeTemp raw ∧ decodeTemp raw ≤ 1535))

/-- CONFIGURE_SWEEP (R178), when the environment completes every action in time: the four codes in the context, the four block
writes and standby on the wire, the trigger `Idle`, from any trigger. -/
def Obligations.ConfigureSweepCompletes : Prop :=
  ∀ (s : State) (f d : U32) (n : U16) (v : Service), s.readyForTransactions → n.toNat ≤ 511 →
    serve s.cfg (configureSweepFrame s.cfg f d n) (Service.start s) = some v →
    exec (.configureSweep f d n) s = .next { afterTransactions s v (reported s.cfg v.firstErr .unit) with
      ctx := { s.ctx with
        startCode := .val (freqCode s.cfg f.toNat)
        deltaCode := .val (freqCode s.cfg d.toNat)
        nInc := .val (n.setWidth 9)
        settleCode := .val (settleCode f.toNat d.toNat n.toNat)
        trigger := .idle } }

/-- CONFIGURE_SWEEP before CONFIGURE (R178, R226; 95_test_vectors.md V-SW-4): the codes are written, then the first START faults,
and the trigger keeps its value. -/
def Obligations.ConfigureSweepFaultKeepsWhatWasWritten : Prop :=
  ∀ (s : State) (f d : U32) (n : U16), s.accepting → s.ctl.phase = .free → s.ctl.configured = false → n.toNat ≤ 511 →
    exec (.configureSweep f d n) s = .next { s with
      ctx := { s.ctx with
        startCode := .val (freqCode s.cfg f.toNat)
        deltaCode := .val (freqCode s.cfg d.toNat)
        nInc := .val (n.setWidth 9)
        settleCode := .val (settleCode f.toNat d.toNat n.toNat) }
      ctl := { s.ctl with faults := s.ctl.faults.add .notConfigured }
      client := { s.client with last := some (.faulted .notConfigured) } }

/-- BEGIN_SWEEP (R179), opcode 0x21: from `Idle` it sets the trigger and nothing else; from any other trigger it raises `SweepBusy`. -/
def Obligations.BeginSweepOnlyFromIdle : Prop :=
  ∀ (s : State), s.accepting →
    encode .beginSweep = [0x21] ∧
    (s.ctx.trigger = .idle →
      exec .beginSweep s = .next { s with
        ctx := { s.ctx with trigger := .startMeasure }
        client := { s.client with last := some (.completed .unit) } }) ∧
    (s.ctx.trigger ≠ .idle →
      exec .beginSweep s = .next { s with
        ctl := { s.ctl with faults := s.ctl.faults.add .sweepBusy }
        client := { s.client with last := some (.faulted .sweepBusy) } })

/-- The `Idle` step (R181): no state written, no bus event, `Unit`. -/
def Obligations.ProcessStepFromIdleDoesNothing : Prop :=
  ∀ (s : State) (choice : Byte), s.accepting → (choice = 0 ∨ choice = 1) → s.ctx.trigger = .idle →
    exec (.processStep choice) s = .next { s with client := { s.client with last := some (.completed .unit) } }

/-- The `DftComplete` step (R183): sweep-done first, then the caller's choice; no bus work; a fault if nothing was ever polled. -/
def Obligations.DftCompleteChoosesTheNextStep : Prop :=
  ∀ (s : State) (choice : Byte), s.accepting → (choice = 0 ∨ choice = 1) → s.ctx.trigger = .dftComplete →
    (∀ st, s.ctx.lastStatus = .val st →
      exec (.processStep choice) s = .next { s with
        ctx := { s.ctx with trigger :=
          if st &&& s.cfg.maskSweepDone ≠ 0 then .stopMeasure
          else if choice = 0 then .frequencySweepNext else .frequencyRepeat }
        client := { s.client with last := some (.completed .unit) } }) ∧
    (s.ctx.lastStatus = .unwritten →
      exec (.processStep choice) s = .next { s with
        ctl := { s.ctl with faults := s.ctl.faults.add .unwrittenRead }
        client := { s.client with last := some (.faulted .unwrittenRead) } })

/-- The `FrequencySweepNext`, `FrequencyRepeat` and `StopMeasure` steps (R184, R185, R186): one command each, then the
trigger. -/
def Obligations.CommandStepsComplete : Prop :=
  ∀ (s : State) (choice c : Byte) (next : Trigger) (v : Service), s.readyForTransactions → (choice = 0 ∨ choice = 1) →
    (s.ctx.trigger = .frequencySweepNext ∧ c = s.cfg.cmdIncrement ∧ next = .startMeasure ∨
      s.ctx.trigger = .frequencyRepeat ∧ c = s.cfg.cmdRepeat ∧ next = .startMeasure ∨
      s.ctx.trigger = .stopMeasure ∧ c = s.cfg.cmdPowerDown ∧ next = .idle) →
    serve s.cfg (writeCmdFrame s.cfg c) (Service.start s) = some v →
    exec (.processStep choice) s = .next { afterTransactions s v (reported s.cfg v.firstErr .unit) with
      ctx := { s.ctx with trigger := next } }

/-- The `StartMeasure` step (R182), when the first status read has the data-valid bit set: init, start-sweep, one poll, the
real and the imaginary sample, standby; then the context and the trigger. -/
def Obligations.StartMeasureCompletes : Prop :=
  ∀ (s : State) (choice : Byte) (v : Service), s.readyForTransactions → (choice = 0 ∨ choice = 1) →
    s.ctx.trigger = .startMeasure →
    serve s.cfg (startMeasureFrame s.cfg ++ (statusFrame s.cfg ++ sampleFrame s.cfg)) (Service.start s) = some v →
    v.seesBit s.cfg .sweep →
    exec (.processStep choice) s = .next { afterTransactions s v (reported s.cfg v.firstErr .unit) with
      ctx := { s.ctx with
        lastStatus := .val (rxByte v.bytes 0)
        real := .val (decode16 (receivedWord v 1))
        imag := .val (decode16 (receivedWord v 3))
        trigger := .dftComplete } }

/-- A `StartMeasure` step, or a MEASURE_TEMPERATURE, whose first status read has its bit clear is not over: with budget left it is
in the middle of its poll, one read made, and only the last status of the context has changed (R177); with the budget spent it ends
with `Unresponsive` (R177, R187). That a step makes one read is the model's choice (log entry 10). -/
def Obligations.AFirstReadWithTheBitClearGoesOnPolling : Prop :=
  ∀ (s : State) (i : Instr) (job : PollJob) (cmds : List BusAction) (v : Service), s.readyForTransactions →
    ((i = .processStep 0 ∨ i = .processStep 1) ∧ s.ctx.trigger = .startMeasure ∧ job = .sweep ∧ cmds = startMeasureFrame s.cfg ∨
      i = .measureTemperature ∧ job = .temperature ∧ cmds = writeCmdFrame s.cfg s.cfg.cmdMeasureTemp) →
    serve s.cfg (cmds ++ statusFrame s.cfg) (Service.start s) = some v → ¬ v.seesBit s.cfg job →
    ∃ t, exec i s = .next t ∧ t.ctl.trace = s.ctl.trace ++ v.events ∧
      t.ctx = { s.ctx with lastStatus := .val (rxByte v.bytes 0) } ∧ t.gpio = s.gpio ∧
      ((∀ n, s.cfg.pollBudget = some n → 1 < n) → t.activity = .polling job 1 v.firstErr ∧ t.client.last = none) ∧
      (∀ n, s.cfg.pollBudget = some n → n ≤ 1 → t.ctl.unresponsive = true ∧ t.activity = .idle ∧
        t.client.last = some (.completed .unresponsive))

/-- A resumed poll (R177, R182, R188): one more status read; when its bit is set the operation goes on and completes as its
first step would have: a sweep poll with the samples, standby and the trigger, a temperature poll with the temperature. That
an operation is resumed in a step of its own, which makes one read, is the model's choice (log entry 10); so is how the
environment's choice not to act first is drawn (log entry 11). -/
def Obligations.ResumedPollCompletes : Prop :=
  ∀ (s : State) (job : PollJob) (k : Nat) (st : Option Byte) (e : Env) (v : Service), s.unmarked →
    s.activity = .polling job k st → s.envYields e → s.operational → s.ctl.phase = .free → s.cfg.stopOverlap = .ordered →
    serve s.cfg (pollFrame s.cfg job) (Service.start (s.setEnv e)) = some v → v.seesBit s.cfg job →
    step s = .next { afterTransactions s v (reported s.cfg (st.or v.firstErr) .unit) with ctx := measured job v s.ctx }

/-- A resumed poll that sees its bit clear (R177): one more frame on the wire and one more count; at the `n`-th read of a
budget of `n` it ends with `Unresponsive`. With no budget it can go on for ever, the trace growing (R228(b)). That a step makes
exactly one read and leaves the operation polling is the model's choice (log entry 10); so is how the environment's choice not to
act first is drawn (log entry 11). -/
def Obligations.ResumedPollGoesOn : Prop :=
  ∀ (s : State) (job : PollJob) (k : Nat) (st : Option Byte) (e : Env) (v : Service), s.unmarked →
    s.activity = .polling job k st → s.envYields e → s.operational → s.ctl.phase = .free → s.cfg.stopOverlap = .ordered →
    serve s.cfg (statusFrame s.cfg) (Service.start (s.setEnv e)) = some v → ¬ v.seesBit s.cfg job →
    ∃ t, step s = .next t ∧ t.ctl.trace = s.ctl.trace ++ v.events ∧ v.events.length = 9 ∧
      t.ctx = { s.ctx with lastStatus := .val (rxByte v.bytes 0) } ∧ t.gpio = s.gpio ∧
      ((∀ n, s.cfg.pollBudget = some n → k + 1 < n) → t.activity = .polling job (k + 1) (st.or v.firstErr)) ∧
      (∀ n, s.cfg.pollBudget = some n → n ≤ k + 1 → t.ctl.unresponsive = true ∧ t.activity = .idle ∧
        t.client.last = some (.completed .unresponsive))

/-- MEASURE_TEMPERATURE (R188), when the first status read has the temperature-valid bit set: from any trigger, which it does
not write. -/
def Obligations.MeasureTemperatureCompletes : Prop :=
  ∀ (s : State) (v : Service), s.readyForTransactions →
    serve s.cfg (writeCmdFrame s.cfg s.cfg.cmdMeasureTemp ++ (statusFrame s.cfg ++ readBlockFrame s.cfg s.cfg.regs.temp 2))
      (Service.start s) = some v →
    v.seesBit s.cfg .temperature →
    exec .measureTemperature s = .next { afterTransactions s v (reported s.cfg v.firstErr .unit) with
      ctx := { s.ctx with
        lastStatus := .val (rxByte v.bytes 0)
        temperature := .val (decodeTemp (receivedWord v 1)) } }

/-- GET_REAL, GET_IMAG and GET_TEMPERATURE (R189, R190, R191): each returns its field, with no state written, or raises
`UnwrittenRead`. -/
def Obligations.AccessorsReturnTheirField : Prop :=
  ∀ (s : State) (i : Instr) (field : Reg Int), s.accepting →
    (i = .getReal ∧ field = s.ctx.real ∨ i = .getImag ∧ field = s.ctx.imag ∨ i = .getTemperature ∧ field = s.ctx.temperature) →
    (∀ v, field = .val v →
      exec i s = .next { s with client := { s.client with last := some (.completed (.int v)) } }) ∧
    (field = .unwritten →
      exec i s = .next { s with
        ctl := { s.ctl with faults := s.ctl.faults.add .unwrittenRead }
        client := { s.client with last := some (.faulted .unwrittenRead) } })

/-! ### The digital output (60_exceptions.md) -/

/-- SET_RANGE level (R232): 0 and 1 set the output, with no bus event, whatever the bus does and whether or not the block is
configured; any other level is refused. -/
def Obligations.SetRangeDrivesTheOutput : Prop :=
  ∀ (s : State) (level : Byte), s.accepting →
    encode (.setRange level) = [0x27, level] ∧
    (level = 0 ∨ level = 1 →
      exec (.setRange level) s = .next { s with
        gpio := { range := .val (if level = 0 then 0 else 1) }
        client := { s.client with last := some (.completed .unit) } }) ∧
    (level ≠ 0 → level ≠ 1 →
      exec (.setRange level) s = .next { s with
        ctl := { s.ctl with refused := true }
        client := { s.client with last := some (.refused .badOperand) } })
end

