-- ==== Sys2Proof/Laws/Decode.lean ====
section
/-! SUPPORT. The laws of the byte order (20_memory.md R51), of the opcode map (30_encoding.md R72, R74) and of the operand fields. -/

namespace Sys2Proof

theorem append_toNat8 {n : Nat} (x : BitVec n) (b : Byte) : (x ++ b).toNat = x.toNat * 256 + b.toNat := by
  rw [BitVec.toNat_append, ← Nat.shiftLeft_add_eq_or_of_lt b.isLt, Nat.shiftLeft_eq]

theorem join2_toNat (a b : Byte) : (join2 a b).toNat = a.toNat * 256 + b.toNat := append_toNat8 a b

theorem join3_toNat (a b c : Byte) : (join3 a b c).toNat = (a.toNat * 256 + b.toNat) * 256 + c.toNat := by
  rw [join3, append_toNat8, append_toNat8]

theorem join4_toNat (a b c d : Byte) :
    (join4 a b c d).toNat = ((a.toNat * 256 + b.toNat) * 256 + c.toNat) * 256 + d.toNat := by
  rw [join4, append_toNat8, append_toNat8, append_toNat8]

theorem byteAt_toNat {n : Nat} (v : BitVec n) (k : Nat) : (v.extractLsb' k 8).toNat = v.toNat / 2 ^ k % 256 := by
  rw [BitVec.extractLsb'_toNat, Nat.shiftRight_eq_div_pow]

/-- Splitting a u16 into bytes and joining them gives it back (R51). -/
theorem join2_bytes2 (v : U16) : join2 (v.extractLsb' 8 8) (v.extractLsb' 0 8) = v := by
  apply BitVec.eq_of_toNat_eq
  rw [join2_toNat, byteAt_toNat, byteAt_toNat]
  have := v.isLt
  omega

theorem join3_bytes3 (v : U24) : join3 (v.extractLsb' 16 8) (v.extractLsb' 8 8) (v.extractLsb' 0 8) = v := by
  apply BitVec.eq_of_toNat_eq
  rw [join3_toNat, byteAt_toNat, byteAt_toNat, byteAt_toNat]
  have := v.isLt
  omega

theorem join4_bytes4 (v : U32) :
    join4 (v.extractLsb' 24 8) (v.extractLsb' 16 8) (v.extractLsb' 8 8) (v.extractLsb' 0 8) = v := by
  apply BitVec.eq_of_toNat_eq
  rw [join4_toNat, byteAt_toNat, byteAt_toNat, byteAt_toNat, byteAt_toNat]
  have := v.isLt
  omega

/-- Joining two bytes and splitting the result gives them back (R51). -/
theorem bytes2_join2 (a b : Byte) : bytes2 (join2 a b) = [a, b] := by
  have ha := a.isLt
  have hb := b.isLt
  simp only [bytes2, List.cons.injEq, and_true]
  refine ⟨?_, ?_⟩ <;> apply BitVec.eq_of_toNat_eq <;> rw [byteAt_toNat, join2_toNat] <;> omega

theorem bytes3_join3 (a b c : Byte) : bytes3 (join3 a b c) = [a, b, c] := by
  have ha := a.isLt
  have hb := b.isLt
  have hc := c.isLt
  simp only [bytes3, List.cons.injEq, and_true]
  refine ⟨?_, ?_, ?_⟩ <;> apply BitVec.eq_of_toNat_eq <;> rw [byteAt_toNat, join3_toNat] <;> omega

theorem bytes4_join4 (a b c d : Byte) : bytes4 (join4 a b c d) = [a, b, c, d] := by
  have ha := a.isLt
  have hb := b.isLt
  have hc := c.isLt
  have hd := d.isLt
  simp only [bytes4, List.cons.injEq, and_true]
  refine ⟨?_, ?_, ?_, ?_⟩ <;> apply BitVec.eq_of_toNat_eq <;> rw [byteAt_toNat, join4_toNat] <;> omega

/-- The opcode map read backwards (R72): byte 0 of an operation selects that operation. -/
@[simp] theorem Opcode.ofByte_byte (op : Opcode) : Opcode.ofByte op.byte = some op := by
  cases op <;> decide

/-- A byte that selects an operation is that operation's byte. -/
theorem Opcode.byte_of_ofByte {b : Byte} {op : Opcode} (h : Opcode.ofByte b = some op) : op.byte = b := by
  have := List.find?_some h
  simpa using this

/-- Every row of R72 is in the table. -/
theorem Opcode.mem_all (op : Opcode) : op ∈ Opcode.all := by
  cases op <;> decide

/-- Splitting off `n` bytes succeeds exactly when they are there (R73). -/
theorem splitExact_eq (n : Nat) : ∀ bs : List Byte, splitExact n bs = if n ≤ bs.length then some (bs.take n, bs.drop n) else none := by
  induction n with
  | zero => intro bs; simp [splitExact]
  | succ n ih =>
    intro bs
    cases bs with
    | nil => simp [splitExact]
    | cons b bs =>
      simp only [splitExact, ih, List.length_cons]
      by_cases h : n ≤ bs.length <;> simp [h]

end Sys2Proof
end

