-- ==== Sys2Proof/Laws/Memory.lean ====
section
/-! SUPPORT. The laws of the slave's register file: every operation keeps the canonical form, a read after a write gives
the value written at its address and leaves every other address alone. -/

namespace Sys2Proof.Machine

theorem Memory.wfFrom_mono {lo lo' : Nat} (h : lo' ≤ lo) : ∀ m : Memory, Memory.wfFrom lo m = true → Memory.wfFrom lo' m = true
  | [], _ => rfl
  | (a, v) :: m, hm => by
    simp only [Memory.wfFrom, Bool.and_eq_true, decide_eq_true_eq] at hm ⊢
    exact ⟨⟨⟨Nat.le_trans h hm.1.1.1, hm.1.1.2⟩, hm.1.2⟩, hm.2⟩

theorem Memory.wfFrom_cons {lo a : Nat} {v : Byte} {m : Memory} (hlo : lo ≤ a) (ha : a < Memory.size)
    (hm : Memory.wfFrom (a + 1) m = true) : Memory.wfFrom lo (Memory.cons a v m) = true := by
  unfold Memory.cons
  split
  · exact Memory.wfFrom_mono (by omega) m hm
  · simp_all [Memory.wfFrom]

theorem Memory.write_wfFrom {lo a : Nat} {v : Byte} (hlo : lo ≤ a) (ha : a < Memory.size) :
    ∀ m : Memory, Memory.wfFrom lo m = true → Memory.wfFrom lo (Memory.write m a v) = true
  | [], _ => Memory.wfFrom_cons hlo ha rfl
  | (b, w) :: m, hm => by
    have hm' := hm
    simp only [Memory.wfFrom, Bool.and_eq_true, decide_eq_true_eq] at hm'
    obtain ⟨⟨⟨h1, h2⟩, h3⟩, h4⟩ := hm'
    unfold Memory.write
    split
    · next h => exact Memory.wfFrom_cons hlo ha (by simp [Memory.wfFrom, h3, h4, h2]; omega)
    · split
      · next h => subst h; exact Memory.wfFrom_cons hlo ha h4
      · have := Memory.write_wfFrom (v := v) (lo := b + 1) (by omega) ha m h4
        simp [Memory.wfFrom, h1, h2, h3, this]

/-- A write keeps the canonical form. -/
theorem Memory.write_wf {m : Memory} {a : Nat} {v : Byte} (ha : a < Memory.size) (hm : m.wf = true) :
    (Memory.write m a v).wf = true := Memory.write_wfFrom (Nat.zero_le a) ha m hm

theorem Memory.read_of_lt {a : Nat} : ∀ (lo : Nat) (m : Memory), Memory.wfFrom lo m = true → a < lo →
    Memory.read m a = Memory.unlisted
  | _, [], _, _ => rfl
  | lo, (b, w) :: m, hm, h => by
    simp only [Memory.wfFrom, Bool.and_eq_true, decide_eq_true_eq] at hm
    have hb : a ≠ b := by omega
    simp only [Memory.read, hb, if_false]
    exact Memory.read_of_lt (b + 1) m hm.2 (by omega)

theorem Memory.read_cons {lo a x : Nat} {v : Byte} {m : Memory} (hm : Memory.wfFrom lo m = true) (h : a < lo) :
    Memory.read (Memory.cons a v m) x = if x = a then v else Memory.read m x := by
  unfold Memory.cons
  by_cases hx : x = a
  · subst hx
    split
    · next hv => simp [Memory.read_of_lt lo m hm h, hv]
    · simp [Memory.read]
  · split <;> simp [Memory.read, hx]

theorem Memory.read_write_from {a x : Nat} {v : Byte} : ∀ (lo : Nat) (m : Memory), Memory.wfFrom lo m = true →
    Memory.read (Memory.write m a v) x = if x = a then v else Memory.read m x
  | _, [], _ => Memory.read_cons (lo := a + 1) rfl (by omega)
  | lo, (b, w) :: m, hm => by
    have hm' := hm
    simp only [Memory.wfFrom, Bool.and_eq_true, decide_eq_true_eq] at hm'
    obtain ⟨⟨⟨h1, h2⟩, h3⟩, h4⟩ := hm'
    unfold Memory.write
    split
    · next h => exact Memory.read_cons (lo := b) (by simp [Memory.wfFrom, h2, h3, h4]) h
    · split
      · next h1' h =>
        subst h
        rw [Memory.read_cons h4 (by omega)]
        by_cases hx : x = a <;> simp [Memory.read, hx]
      · next h1' h =>
        simp only [Memory.read, Memory.read_write_from (b + 1) m h4]
        by_cases hx : x = b
        · subst hx; simp; omega
        · simp [hx]

/-- A read after a write. -/
theorem Memory.read_write {m : Memory} {a x : Nat} {v : Byte} (hm : m.wf = true) :
    Memory.read (Memory.write m a v) x = if x = a then v else Memory.read m x := Memory.read_write_from 0 m hm

end Sys2Proof.Machine
end

