-- ==== Sys2Proof/Laws/Environment.lean ====
section
/-! SUPPORT. What the environment's operations can do: they keep the slave's register file in canonical form, and only a
timeout writes `env.late`. -/

namespace Sys2Proof.Machine

theorem Slave.readReg_mem (sl : Slave) (a : Byte) : (sl.readReg a).2.mem = sl.mem := by
  unfold Slave.readReg
  split <;> rfl

theorem Slave.address_mem (cfg : Params) (sl : Slave) (a : Byte) : (sl.address cfg a).2.mem = sl.mem := by
  unfold Slave.address
  split
  · rfl
  · split <;> rfl

theorem Slave.giveByte_mem (sl : Slave) (float : Byte) : (sl.giveByte float).2.mem = sl.mem := by
  unfold Slave.giveByte
  split <;> simp [Slave.readReg_mem]

theorem Slave.writeReg_wf {sl : Slave} {a v : Byte} (h : sl.mem.wf = true) : (sl.writeReg a v).mem.wf = true :=
  Memory.write_wf a.isLt h

theorem Slave.takeByte_wf {cfg : Params} {sl : Slave} {b : Byte} (h : sl.mem.wf = true) : (sl.takeByte cfg b).mem.wf = true := by
  unfold Slave.takeByte
  split <;> (try exact h) <;> (try exact Slave.writeReg_wf h)
  · split
    · exact h
    · split
      · exact h
      · split <;> exact h
  · split
    · exact Slave.writeReg_wf h
    · exact h

/-- Every bus action keeps the register file in canonical form. -/
theorem Slave.receive_wf {cfg : Params} {sl : Slave} {act : BusAction} {float : Byte} (h : sl.mem.wf = true) :
    (sl.receive cfg act float).2.2.mem.wf = true := by
  cases act with
  | start => exact h
  | repStart => exact h
  | addrOut a => simpa [Slave.receive, Slave.address_mem] using h
  | dataOut b => exact Slave.takeByte_wf h
  | dataIn ack => simpa [Slave.receive, Slave.giveByte_mem] using h
  | stop => exact h

theorem Env.receive_wf {cfg : Params} {e : Env} {act : BusAction} (h : e.slave.mem.wf = true) :
    (e.receive cfg act).2.slave.mem.wf = true := by
  unfold Env.receive
  split
  · unfold Env.oracleAnswer
    split <;> exact h
  · exact Slave.receive_wf h

theorem Env.receive_late (cfg : Params) (e : Env) (act : BusAction) : (e.receive cfg act).2.late = e.late := by
  unfold Env.receive Env.oracleAnswer
  split
  · split <;> rfl
  · rfl

theorem Env.receiveStop_wf {cfg : Params} {e : Env} (h : e.slave.mem.wf = true) : (e.receiveStop cfg).slave.mem.wf = true := by
  unfold Env.receiveStop
  split
  · exact h
  · exact Slave.receive_wf h

theorem Env.receiveStop_late (cfg : Params) (e : Env) : (e.receiveStop cfg).late = e.late := by
  unfold Env.receiveStop
  split <;> rfl

theorem Env.choose_slave (e : Env) : e.choose.2.slave = e.slave := by
  unfold Env.choose
  split
  · rfl
  · split <;> rfl

theorem Env.choose_late (e : Env) : e.choose.2.late = e.late := by
  unfold Env.choose
  split
  · rfl
  · split <;> rfl

theorem Env.choose_mode (e : Env) : e.choose.2.mode = e.mode := by
  unfold Env.choose
  split
  · rfl
  · split <;> rfl

theorem Env.receive_mode (cfg : Params) (e : Env) (act : BusAction) : (e.receive cfg act).2.mode = e.mode := by
  unfold Env.receive Env.oracleAnswer
  split
  · split <;> rfl
  · rfl

theorem Env.receiveStop_mode (cfg : Params) (e : Env) : (e.receiveStop cfg).mode = e.mode := by
  unfold Env.receiveStop
  split <;> rfl

/-- What an action does to the slave: nothing under the oracle, else what the slave does with it. -/
theorem Env.receive_slave (cfg : Params) (e : Env) (act : BusAction) :
    e.mode = .oracle ∧ (e.receive cfg act).2.slave = e.slave ∨
    e.mode = .slave ∧ ∃ float, (e.receive cfg act).2.slave = (e.slave.receive cfg act float).2.2 := by
  unfold Env.receive Env.oracleAnswer
  split
  · next h => split <;> exact .inl ⟨h, rfl⟩
  · next h => exact .inr ⟨h, _, rfl⟩

theorem Env.receiveStop_slave (cfg : Params) (e : Env) :
    e.mode = .oracle ∧ (e.receiveStop cfg).slave = e.slave ∨
    e.mode = .slave ∧ ∃ float, (e.receiveStop cfg).slave = (e.slave.receive cfg .stop float).2.2 := by
  unfold Env.receiveStop
  split
  · next h => exact .inl ⟨h, rfl⟩
  · next h => exact .inr ⟨h, Config.unaddressedByte e.draws, rfl⟩

end Sys2Proof.Machine
end

