-- ==== Sys2Proof/Laws/State.lean ====
section
/-! SUPPORT. The small lemmas of the state: what each setter does to each component, true by unfolding, so that no later proof
unfolds a record update. -/

namespace Sys2Proof.Machine

@[simp] theorem State.setCtl_ctl (s : State) (c : Ctl) : (s.setCtl c).ctl = c := rfl
@[simp] theorem State.setCtl_ctx (s : State) (c : Ctl) : (s.setCtl c).ctx = s.ctx := rfl
@[simp] theorem State.setCtl_gpio (s : State) (c : Ctl) : (s.setCtl c).gpio = s.gpio := rfl
@[simp] theorem State.setCtl_cfg (s : State) (c : Ctl) : (s.setCtl c).cfg = s.cfg := rfl
@[simp] theorem State.setCtl_activity (s : State) (c : Ctl) : (s.setCtl c).activity = s.activity := rfl
@[simp] theorem State.setCtl_client (s : State) (c : Ctl) : (s.setCtl c).client = s.client := rfl
@[simp] theorem State.setCtl_env (s : State) (c : Ctl) : (s.setCtl c).env = s.env := rfl

@[simp] theorem State.setCtx_ctl (s : State) (c : Ctx) : (s.setCtx c).ctl = s.ctl := rfl
@[simp] theorem State.setCtx_ctx (s : State) (c : Ctx) : (s.setCtx c).ctx = c := rfl
@[simp] theorem State.setCtx_gpio (s : State) (c : Ctx) : (s.setCtx c).gpio = s.gpio := rfl
@[simp] theorem State.setCtx_cfg (s : State) (c : Ctx) : (s.setCtx c).cfg = s.cfg := rfl
@[simp] theorem State.setCtx_activity (s : State) (c : Ctx) : (s.setCtx c).activity = s.activity := rfl
@[simp] theorem State.setCtx_client (s : State) (c : Ctx) : (s.setCtx c).client = s.client := rfl
@[simp] theorem State.setCtx_env (s : State) (c : Ctx) : (s.setCtx c).env = s.env := rfl

@[simp] theorem State.setGpio_ctl (s : State) (g : Gpio) : (s.setGpio g).ctl = s.ctl := rfl
@[simp] theorem State.setGpio_ctx (s : State) (g : Gpio) : (s.setGpio g).ctx = s.ctx := rfl
@[simp] theorem State.setGpio_gpio (s : State) (g : Gpio) : (s.setGpio g).gpio = g := rfl
@[simp] theorem State.setGpio_cfg (s : State) (g : Gpio) : (s.setGpio g).cfg = s.cfg := rfl
@[simp] theorem State.setGpio_activity (s : State) (g : Gpio) : (s.setGpio g).activity = s.activity := rfl
@[simp] theorem State.setGpio_client (s : State) (g : Gpio) : (s.setGpio g).client = s.client := rfl
@[simp] theorem State.setGpio_env (s : State) (g : Gpio) : (s.setGpio g).env = s.env := rfl

@[simp] theorem State.setActivity_ctl (s : State) (a : Activity) : (s.setActivity a).ctl = s.ctl := rfl
@[simp] theorem State.setActivity_ctx (s : State) (a : Activity) : (s.setActivity a).ctx = s.ctx := rfl
@[simp] theorem State.setActivity_gpio (s : State) (a : Activity) : (s.setActivity a).gpio = s.gpio := rfl
@[simp] theorem State.setActivity_cfg (s : State) (a : Activity) : (s.setActivity a).cfg = s.cfg := rfl
@[simp] theorem State.setActivity_activity (s : State) (a : Activity) : (s.setActivity a).activity = a := rfl
@[simp] theorem State.setActivity_client (s : State) (a : Activity) : (s.setActivity a).client = s.client := rfl
@[simp] theorem State.setActivity_env (s : State) (a : Activity) : (s.setActivity a).env = s.env := rfl

@[simp] theorem State.setInput_ctl (s : State) (bs : List Byte) : (s.setInput bs).ctl = s.ctl := rfl
@[simp] theorem State.setInput_ctx (s : State) (bs : List Byte) : (s.setInput bs).ctx = s.ctx := rfl
@[simp] theorem State.setInput_gpio (s : State) (bs : List Byte) : (s.setInput bs).gpio = s.gpio := rfl
@[simp] theorem State.setInput_cfg (s : State) (bs : List Byte) : (s.setInput bs).cfg = s.cfg := rfl
@[simp] theorem State.setInput_activity (s : State) (bs : List Byte) : (s.setInput bs).activity = s.activity := rfl
@[simp] theorem State.setInput_client (s : State) (bs : List Byte) : (s.setInput bs).client = { s.client with input := bs } := rfl
@[simp] theorem State.setInput_env (s : State) (bs : List Byte) : (s.setInput bs).env = s.env := rfl

@[simp] theorem State.setLast_ctl (s : State) (o : Option OpOutcome) : (s.setLast o).ctl = s.ctl := rfl
@[simp] theorem State.setLast_ctx (s : State) (o : Option OpOutcome) : (s.setLast o).ctx = s.ctx := rfl
@[simp] theorem State.setLast_gpio (s : State) (o : Option OpOutcome) : (s.setLast o).gpio = s.gpio := rfl
@[simp] theorem State.setLast_cfg (s : State) (o : Option OpOutcome) : (s.setLast o).cfg = s.cfg := rfl
@[simp] theorem State.setLast_activity (s : State) (o : Option OpOutcome) : (s.setLast o).activity = s.activity := rfl
@[simp] theorem State.setLast_client (s : State) (o : Option OpOutcome) : (s.setLast o).client = { s.client with last := o } := rfl
@[simp] theorem State.setLast_env (s : State) (o : Option OpOutcome) : (s.setLast o).env = s.env := rfl

@[simp] theorem State.setEnv_ctl (s : State) (e : Env) : (s.setEnv e).ctl = s.ctl := rfl
@[simp] theorem State.setEnv_ctx (s : State) (e : Env) : (s.setEnv e).ctx = s.ctx := rfl
@[simp] theorem State.setEnv_gpio (s : State) (e : Env) : (s.setEnv e).gpio = s.gpio := rfl
@[simp] theorem State.setEnv_cfg (s : State) (e : Env) : (s.setEnv e).cfg = s.cfg := rfl
@[simp] theorem State.setEnv_activity (s : State) (e : Env) : (s.setEnv e).activity = s.activity := rfl
@[simp] theorem State.setEnv_client (s : State) (e : Env) : (s.setEnv e).client = s.client := rfl
@[simp] theorem State.setEnv_env (s : State) (e : Env) : (s.setEnv e).env = e := rfl

@[simp] theorem State.setTrigger_ctl (s : State) (t : Trigger) : (s.setTrigger t).ctl = s.ctl := rfl
@[simp] theorem State.setTrigger_ctx (s : State) (t : Trigger) : (s.setTrigger t).ctx = { s.ctx with trigger := t } := rfl
@[simp] theorem State.setTrigger_gpio (s : State) (t : Trigger) : (s.setTrigger t).gpio = s.gpio := rfl
@[simp] theorem State.setTrigger_cfg (s : State) (t : Trigger) : (s.setTrigger t).cfg = s.cfg := rfl
@[simp] theorem State.setTrigger_activity (s : State) (t : Trigger) : (s.setTrigger t).activity = s.activity := rfl
@[simp] theorem State.setTrigger_client (s : State) (t : Trigger) : (s.setTrigger t).client = s.client := rfl
@[simp] theorem State.setTrigger_env (s : State) (t : Trigger) : (s.setTrigger t).env = s.env := rfl

@[simp] theorem State.emit_ctl (s : State) (e : BusEvent) : (s.emit e).ctl = { s.ctl with trace := s.ctl.trace ++ [e] } := rfl
@[simp] theorem State.emit_ctx (s : State) (e : BusEvent) : (s.emit e).ctx = s.ctx := rfl
@[simp] theorem State.emit_gpio (s : State) (e : BusEvent) : (s.emit e).gpio = s.gpio := rfl
@[simp] theorem State.emit_cfg (s : State) (e : BusEvent) : (s.emit e).cfg = s.cfg := rfl
@[simp] theorem State.emit_activity (s : State) (e : BusEvent) : (s.emit e).activity = s.activity := rfl
@[simp] theorem State.emit_client (s : State) (e : BusEvent) : (s.emit e).client = s.client := rfl
@[simp] theorem State.emit_env (s : State) (e : BusEvent) : (s.emit e).env = s.env := rfl

@[simp] theorem State.setPhase_ctl (s : State) (p : BusPhase) : (s.setPhase p).ctl = { s.ctl with phase := p } := rfl
@[simp] theorem State.setPhase_ctx (s : State) (p : BusPhase) : (s.setPhase p).ctx = s.ctx := rfl
@[simp] theorem State.setPhase_gpio (s : State) (p : BusPhase) : (s.setPhase p).gpio = s.gpio := rfl
@[simp] theorem State.setPhase_cfg (s : State) (p : BusPhase) : (s.setPhase p).cfg = s.cfg := rfl
@[simp] theorem State.setPhase_activity (s : State) (p : BusPhase) : (s.setPhase p).activity = s.activity := rfl
@[simp] theorem State.setPhase_client (s : State) (p : BusPhase) : (s.setPhase p).client = s.client := rfl
@[simp] theorem State.setPhase_env (s : State) (p : BusPhase) : (s.setPhase p).env = s.env := rfl

@[simp] theorem State.conclude_ctl (s : State) (o : OpOutcome) : (s.conclude o).ctl = s.ctl := rfl
@[simp] theorem State.conclude_ctx (s : State) (o : OpOutcome) : (s.conclude o).ctx = s.ctx := rfl
@[simp] theorem State.conclude_gpio (s : State) (o : OpOutcome) : (s.conclude o).gpio = s.gpio := rfl
@[simp] theorem State.conclude_cfg (s : State) (o : OpOutcome) : (s.conclude o).cfg = s.cfg := rfl
@[simp] theorem State.conclude_activity (s : State) (o : OpOutcome) : (s.conclude o).activity = .idle := rfl
@[simp] theorem State.conclude_client (s : State) (o : OpOutcome) : (s.conclude o).client = { s.client with last := some o } := rfl
@[simp] theorem State.conclude_env (s : State) (o : OpOutcome) : (s.conclude o).env = s.env := rfl

@[simp] theorem launch_ctl (act : BusAction) (s : State) : (launch act s).ctl = { s.ctl with data := act.outgoing s.ctl.data, flag := false } := rfl
@[simp] theorem launch_ctx (act : BusAction) (s : State) : (launch act s).ctx = s.ctx := rfl
@[simp] theorem launch_gpio (act : BusAction) (s : State) : (launch act s).gpio = s.gpio := rfl
@[simp] theorem launch_cfg (act : BusAction) (s : State) : (launch act s).cfg = s.cfg := rfl
@[simp] theorem launch_activity (act : BusAction) (s : State) : (launch act s).activity = s.activity := rfl
@[simp] theorem launch_client (act : BusAction) (s : State) : (launch act s).client = s.client := rfl
@[simp] theorem launch_env (act : BusAction) (s : State) : (launch act s).env = s.env := rfl

@[simp] theorem deliver_ctl (act : BusAction) (raw d : Byte) (s : State) : (deliver act raw d s).ctl = { s.ctl with status := .val raw, data := act.incoming s.ctl.data d, flag := true } := rfl
@[simp] theorem deliver_ctx (act : BusAction) (raw d : Byte) (s : State) : (deliver act raw d s).ctx = s.ctx := rfl
@[simp] theorem deliver_gpio (act : BusAction) (raw d : Byte) (s : State) : (deliver act raw d s).gpio = s.gpio := rfl
@[simp] theorem deliver_cfg (act : BusAction) (raw d : Byte) (s : State) : (deliver act raw d s).cfg = s.cfg := rfl
@[simp] theorem deliver_activity (act : BusAction) (raw d : Byte) (s : State) : (deliver act raw d s).activity = s.activity := rfl
@[simp] theorem deliver_client (act : BusAction) (raw d : Byte) (s : State) : (deliver act raw d s).client = s.client := rfl
@[simp] theorem deliver_env (act : BusAction) (raw d : Byte) (s : State) : (deliver act raw d s).env = s.env := rfl

@[simp] theorem giveUp_ctl (l : Option LateAction) (s : State) : (giveUp l s).ctl = { s.ctl with unresponsive := true } := rfl
@[simp] theorem giveUp_ctx (l : Option LateAction) (s : State) : (giveUp l s).ctx = s.ctx := rfl
@[simp] theorem giveUp_gpio (l : Option LateAction) (s : State) : (giveUp l s).gpio = s.gpio := rfl
@[simp] theorem giveUp_cfg (l : Option LateAction) (s : State) : (giveUp l s).cfg = s.cfg := rfl
@[simp] theorem giveUp_activity (l : Option LateAction) (s : State) : (giveUp l s).activity = s.activity := rfl
@[simp] theorem giveUp_client (l : Option LateAction) (s : State) : (giveUp l s).client = s.client := rfl
@[simp] theorem giveUp_env (l : Option LateAction) (s : State) : (giveUp l s).env = { s.env with late := l } := rfl

@[simp] theorem runStop_ctl (s : State) : (runStop s).ctl = { s.ctl with phase := .free, stopPending := true, flag := false, trace := s.ctl.trace ++ [.p] } := rfl
@[simp] theorem runStop_ctx (s : State) : (runStop s).ctx = s.ctx := rfl
@[simp] theorem runStop_gpio (s : State) : (runStop s).gpio = s.gpio := rfl
@[simp] theorem runStop_cfg (s : State) : (runStop s).cfg = s.cfg := rfl
@[simp] theorem runStop_activity (s : State) : (runStop s).activity = s.activity := rfl
@[simp] theorem runStop_client (s : State) : (runStop s).client = s.client := rfl
@[simp] theorem runStop_env (s : State) : (runStop s).env = s.env.receiveStop s.cfg := rfl

@[simp] theorem raiseFault_ctl (r : FaultReason) (s : State) : (raiseFault r s).ctl = { s.ctl with faults := s.ctl.faults.add r } := rfl
@[simp] theorem raiseFault_ctx (r : FaultReason) (s : State) : (raiseFault r s).ctx = s.ctx := rfl
@[simp] theorem raiseFault_gpio (r : FaultReason) (s : State) : (raiseFault r s).gpio = s.gpio := rfl
@[simp] theorem raiseFault_cfg (r : FaultReason) (s : State) : (raiseFault r s).cfg = s.cfg := rfl
@[simp] theorem raiseFault_activity (r : FaultReason) (s : State) : (raiseFault r s).activity = .idle := rfl
@[simp] theorem raiseFault_client (r : FaultReason) (s : State) : (raiseFault r s).client = { s.client with last := some (.faulted r) } := rfl
@[simp] theorem raiseFault_env (r : FaultReason) (s : State) : (raiseFault r s).env = s.env := rfl

@[simp] theorem refuse_ctl (r : RefusalReason) (s : State) : (refuse r s).ctl = { s.ctl with refused := true } := rfl
@[simp] theorem refuse_ctx (r : RefusalReason) (s : State) : (refuse r s).ctx = s.ctx := rfl
@[simp] theorem refuse_gpio (r : RefusalReason) (s : State) : (refuse r s).gpio = s.gpio := rfl
@[simp] theorem refuse_cfg (r : RefusalReason) (s : State) : (refuse r s).cfg = s.cfg := rfl
@[simp] theorem refuse_activity (r : RefusalReason) (s : State) : (refuse r s).activity = s.activity := rfl
@[simp] theorem refuse_client (r : RefusalReason) (s : State) : (refuse r s).client = { s.client with last := some (.refused r) } := rfl
@[simp] theorem refuse_env (r : RefusalReason) (s : State) : (refuse r s).env = s.env := rfl

@[simp] theorem delay_eq (s : State) : delay s = s := rfl

end Sys2Proof.Machine
end

