-- ==== Sys2Proof/Laws/Ops.lean ====
section
/-! SUPPORT. What the shared operations can do, said once: a frame and an invariant for every piece of bus work, from the
preamble up to a register transaction, and how such facts compose along `Flow.bind`. -/

namespace Sys2Proof.Machine

/-! ### Histories -/

theorem replay_append (p : BusPhase) (l1 l2 : List BusEvent) :
    replay p (l1 ++ l2) = (replay p l1).bind (fun q => replay q l2) := by
  induction l1 generalizing p with
  | nil => rfl
  | cons e es ih =>
    simp only [List.cons_append, replay]
    cases phaseStep p e with
    | none => rfl
    | some q => exact ih q

/-- A completed, allowed primitive extends a legal history by its event and moves the phase as R106 says. -/
theorem phaseStep_event {p : Prim} {ph : BusPhase} (d : Byte) (h : p.allowed ph = true) :
    phaseStep ph ((p.action ph).event d) = some p.phaseAfter := by
  cases p <;> cases ph <;> simp_all [Prim.allowed, Prim.action, Prim.phaseAfter, BusAction.event, phaseStep]

theorem replay_event {p : Prim} {tr : List BusEvent} {ph : BusPhase} (d : Byte) (hw : replay .free tr = some ph)
    (h : p.allowed ph = true) : replay .free (tr ++ [(p.action ph).event d]) = some p.phaseAfter := by
  rw [replay_append, hw]
  simp [replay, phaseStep_event d h]

/-! ### Facts about the end of a piece of pseudocode -/

/-- What holds at each of the four ways a piece of pseudocode can end. -/
def Flow.Holds {α : Type} (x : Flow α) (onDone : α → State → Prop) (onQuit onFault onSpin : State → Prop) : Prop :=
  match x with
  | .done a s => onDone a s
  | .quit s => onQuit s
  | .fault _ s => onFault s
  | .spin s => onSpin s

theorem Flow.Holds.bind {α β : Type} {x : Flow α} {f : α → State → Flow β} {D : α → State → Prop} {D' : β → State → Prop}
    {Q F S : State → Prop} (hx : x.Holds D Q F S) (hf : ∀ a s, D a s → (f a s).Holds D' Q F S) :
    (x.bind f).Holds D' Q F S := by
  cases x with
  | done a s => exact hf a s hx
  | quit s => exact hx
  | fault r s => exact hx
  | spin s => exact hx

theorem Flow.Holds.imp {α : Type} {x : Flow α} {D D' : α → State → Prop} {Q Q' F F' S S' : State → Prop}
    (hx : x.Holds D Q F S) (hD : ∀ a s, D a s → D' a s) (hQ : ∀ s, Q s → Q' s) (hF : ∀ s, F s → F' s)
    (hS : ∀ s, S s → S' s) : x.Holds D' Q' F' S' := by
  cases x with
  | done a s => exact hD a s hx
  | quit s => exact hQ s hx
  | fault r s => exact hF s hx
  | spin s => exact hS s hx

/-! ### Bus work -/

/-- The part of the invariant that speaks of the bus and the environment. -/
structure BusInv (s : State) : Prop where
  wire : replay .free s.ctl.trace = some s.ctl.phase
  unconfigured : s.ctl.configured = false →
    s.ctl.trace = [] ∧ s.ctl.status = .unwritten ∧ s.ctl.data = .unwritten ∧ s.ctl.stopPending = false ∧ s.ctl.unresponsive = false
  stop : s.ctl.stopPending = true → s.ctl.phase = .free
  unresponsive : s.ctl.unresponsive = true → s.cfg.pollBudget ≠ none
  late : s.env.late ≠ none → s.ctl.unresponsive = true
  memory : s.env.slave.mem.wf = true

/-- What any amount of bus work leaves unchanged, what it never takes back, and the invariant it keeps. -/
structure BusWork (s t : State) : Prop where
  ctx : t.ctx = s.ctx
  gpio : t.gpio = s.gpio
  cfg : t.cfg = s.cfg
  client : t.client = s.client
  configured : t.ctl.configured = s.ctl.configured
  enabled : t.ctl.enabled = s.ctl.enabled
  divider : t.ctl.divider = s.ctl.divider
  faults : t.ctl.faults = s.ctl.faults
  refused : t.ctl.refused = s.ctl.refused
  unresponsive : s.ctl.unresponsive = true → t.ctl.unresponsive = true
  trace : ∃ es, t.ctl.trace = s.ctl.trace ++ es
  keeps : BusInv s → BusInv t

theorem BusWork.refl (s : State) : BusWork s s :=
  ⟨rfl, rfl, rfl, rfl, rfl, rfl, rfl, rfl, rfl, id, ⟨[], by simp⟩, id⟩

theorem BusWork.trans {s t u : State} (h1 : BusWork s t) (h2 : BusWork t u) : BusWork s u where
  ctx := h2.ctx.trans h1.ctx
  gpio := h2.gpio.trans h1.gpio
  cfg := h2.cfg.trans h1.cfg
  client := h2.client.trans h1.client
  configured := h2.configured.trans h1.configured
  enabled := h2.enabled.trans h1.enabled
  divider := h2.divider.trans h1.divider
  faults := h2.faults.trans h1.faults
  refused := h2.refused.trans h1.refused
  unresponsive h := h2.unresponsive (h1.unresponsive h)
  trace := by
    obtain ⟨e1, h1'⟩ := h1.trace
    obtain ⟨e2, h2'⟩ := h2.trace
    exact ⟨e1 ++ e2, by rw [h2', h1', List.append_assoc]⟩
  keeps h := h2.keeps (h1.keeps h)

/-- A hung wait: the state says what it waits for, the flag is clear, there is no budget (R103), and no stop is pending (R100). -/
structure Hung (s : State) : Prop where
  activity : ∃ act, s.activity = .waiting act
  budget : s.cfg.pollBudget = none
  flag : s.ctl.flag = false
  configured : s.ctl.configured = true
  stop : s.ctl.stopPending = false

/-- The preamble passes exactly when its four checks do (R100). -/
theorem preamble_pass {p : Prim} {s s' : State} (h : preamble p s = .pass s') :
    s.ctl.configured = true ∧ s.ctl.unresponsive = false ∧ (settleStop s).1 = true ∧ p.allowed s.ctl.phase = true ∧
      s' = (settleStop s).2 := by
  unfold preamble at h
  split at h
  · cases h
  · split at h
    · cases h
    · split at h
      · cases h
      · split at h
        · cases h
        · cases h
          simp_all

/-- A fault of the preamble leaves the state, up to the pending stop (R100). -/
theorem preamble_fault {p : Prim} {s s' : State} {r : FaultReason} (h : preamble p s = .fault r s') :
    s' = s ∨ s.ctl.configured = true ∧ s.ctl.unresponsive = false ∧ s' = (settleStop s).2 := by
  unfold preamble at h
  split at h
  · cases h; exact .inl rfl
  · split at h
    · cases h
    · split at h
      · cases h; exact .inr (by simp_all)
      · split at h
        · cases h; exact .inr (by simp_all)
        · cases h

/-- What settling the pending stop can do: only `stopPending` and the environment change (R114). -/
theorem settleStop_cases (s : State) :
    (settleStop s = (true, s) ∧ s.ctl.stopPending = false) ∨
    (s.ctl.stopPending = true ∧ s.cfg.stopOverlap = .ordered ∧
      settleStop s = (true, s.setCtl { s.ctl with stopPending := false })) ∨
    (s.ctl.stopPending = true ∧ s.cfg.stopOverlap = .fault ∧
      settleStop s = (s.env.choose.1, (s.setEnv s.env.choose.2).setCtl { s.ctl with stopPending := !s.env.choose.1 })) := by
  unfold settleStop
  cases hp : s.ctl.stopPending with
  | false => exact .inl ⟨rfl, rfl⟩
  | true =>
    cases ho : s.cfg.stopOverlap with
    | ordered => exact .inr (.inl ⟨rfl, rfl, rfl⟩)
    | fault => exact .inr (.inr ⟨rfl, rfl, rfl⟩)

theorem settleStop_phase (s : State) : (settleStop s).2.ctl.phase = s.ctl.phase := by
  obtain ⟨h, -⟩ | ⟨-, -, h⟩ | ⟨-, -, h⟩ := settleStop_cases s <;> rw [h] <;> rfl

theorem settleStop_activity (s : State) : (settleStop s).2.activity = s.activity := by
  obtain ⟨h, -⟩ | ⟨-, -, h⟩ | ⟨-, -, h⟩ := settleStop_cases s <;> rw [h] <;> rfl

theorem settleStop_unresponsive (s : State) : (settleStop s).2.ctl.unresponsive = s.ctl.unresponsive := by
  obtain ⟨h, -⟩ | ⟨-, -, h⟩ | ⟨-, -, h⟩ := settleStop_cases s <;> rw [h] <;> rfl

theorem settleStop_clear {s : State} (h : (settleStop s).1 = true) : (settleStop s).2.ctl.stopPending = false := by
  obtain ⟨he, hp⟩ | ⟨-, -, he⟩ | ⟨-, -, he⟩ := settleStop_cases s
  · rw [he]; exact hp
  · rw [he]; rfl
  · rw [he] at h ⊢; simp_all

theorem settleStop_work (s : State) : BusWork s (settleStop s).2 := by
  obtain ⟨he, hp⟩ | ⟨hp, -, he⟩ | ⟨hp, -, he⟩ := settleStop_cases s
  · rw [he]; exact BusWork.refl s
  · rw [he]
    exact
      { BusWork.refl s with
        keeps := fun h => ⟨h.wire, fun hc => ⟨(h.unconfigured hc).1, (h.unconfigured hc).2.1, (h.unconfigured hc).2.2.1, rfl,
          (h.unconfigured hc).2.2.2.2⟩, fun hf => (by cases hf), h.unresponsive, h.late, h.memory⟩ }
  · rw [he]
    refine
      { BusWork.refl s with
        keeps := fun h => ⟨h.wire, fun hc => ?_, fun _ => h.stop hp, h.unresponsive, ?_, ?_⟩ }
    · have := (h.unconfigured hc).2.2.2.1
      rw [hp] at this
      cases this
    · intro hl
      exact h.late (by simpa [Env.choose_late] using hl)
    · simpa [Env.choose_slave] using h.memory

/-- The three ways a wait can come out (R103), and what the controller's registers hold after each. -/
theorem waitFlag_cases (act : BusAction) (ans : EnvAnswer) (s : State) :
    (∃ raw d late, ans = .done raw d late ∧ inTime s.cfg late = true ∧ waitFlag act ans s = .done raw d (deliver act raw d s)) ∨
    (∃ late, s.cfg.pollBudget ≠ none ∧ waitFlag act ans s = .timeout (giveUp late s)) ∨
    (ans = .wedged ∧ s.cfg.pollBudget = none ∧ waitFlag act ans s = .hang (s.setActivity (.waiting act))) := by
  unfold waitFlag
  cases hb : s.cfg.pollBudget with
  | none =>
    cases ans with
    | done raw d late => exact .inl ⟨raw, d, late, rfl, by simp [inTime, hb], rfl⟩
    | wedged => exact .inr (.inr ⟨rfl, rfl, rfl⟩)
  | some n =>
    cases ans with
    | done raw d late =>
      by_cases hl : late < n
      · exact .inl ⟨raw, d, late, rfl, by simp [inTime, hb, hl], by simp [hl]⟩
      · exact .inr (.inl ⟨_, by simp, by simp only [hl, if_false]; rfl⟩)
    | wedged => exact .inr (.inl ⟨_, by simp, rfl⟩)

/-- An action that completes in time is delivered (R103). -/
theorem waitFlag_done {act : BusAction} {raw d : Byte} {late : Nat} {s : State} (h : inTime s.cfg late = true) :
    waitFlag act (.done raw d late) s = .done raw d (deliver act raw d s) := by
  obtain ⟨raw', d', late', he, -, hw⟩ | ⟨late', hb, hw⟩ | ⟨he, -, -⟩ := waitFlag_cases act (.done raw d late) s
  · cases he; exact hw
  · unfold waitFlag at hw
    unfold inTime at h
    cases hc : s.cfg.pollBudget with
    | none => exact absurd hc hb
    | some n => simp_all
  · cases he

/-- Whether a result says that the wait was lost (R105, R142). -/
def lostResult : OpResult → Bool
  | .timeout => true
  | .unresponsive => true
  | _ => false

theorem check_not_lost (cfg : Params) (E : List Byte) (raw : Byte) : lostResult (check cfg E raw) = false := by
  unfold check
  split <;> rfl

theorem Prim.result_not_lost (cfg : Params) (raw d : Byte) (p : Prim) : lostResult (p.result cfg raw d) = false := by
  cases p <;> first | exact check_not_lost _ _ _ | rfl

/-- What a waiting primitive can do once its preamble has passed. -/
theorem runWaiting_holds {p : Prim} {s : State} (hc : s.ctl.configured = true) (hu : s.ctl.unresponsive = false)
    (ha : p.allowed s.ctl.phase = true) (hs : s.ctl.stopPending = false) :
    (runWaiting p s).Holds
      (fun r t => BusWork s t ∧ t.activity = s.activity ∧
        (lostResult r = false → t.ctl.phase = p.phaseAfter ∧ t.ctl.unresponsive = false ∧ t.ctl.stopPending = false))
      (fun _ => False) (fun _ => False) (fun t => BusWork s t ∧ Hung t) := by
  unfold runWaiting
  obtain ⟨raw, d, late, -, -, hw⟩ | ⟨late, hb, hw⟩ | ⟨-, hb, hw⟩ :=
    waitFlag_cases (p.action s.ctl.phase) (s.env.receive s.cfg (p.action s.ctl.phase)).1
      ((launch (p.action s.ctl.phase) s).setEnv (s.env.receive s.cfg (p.action s.ctl.phase)).2)
  · rw [hw]
    refine ⟨?_, rfl, fun _ => ⟨rfl, hu, hs⟩⟩
    refine
      { BusWork.refl s with
        trace := ⟨_, rfl⟩
        keeps := fun h => ⟨replay_event d h.wire ha, fun hf => ?_, fun hf => ?_, h.unresponsive, ?_, ?_⟩ }
    · exact absurd (hc.symm.trans hf) (by decide)
    · exact absurd (hs.symm.trans hf) (by decide)
    · intro hl
      exact h.late (by simpa [Env.receive_late] using hl)
    · exact Env.receive_wf h.memory
  · rw [hw]
    refine ⟨?_, rfl, fun hr => (by cases hr)⟩
    refine
      { BusWork.refl s with
        unresponsive := fun _ => rfl
        keeps := fun h => ⟨h.wire, fun hf => ?_, fun hf => ?_, fun _ => hb, fun _ => rfl, ?_⟩ }
    · exact absurd (hc.symm.trans hf) (by decide)
    · exact absurd (hs.symm.trans hf) (by decide)
    · exact Env.receive_wf h.memory
  · rw [hw]
    refine ⟨?_, ⟨⟨_, rfl⟩, hb, rfl, hc, hs⟩⟩
    refine
      { BusWork.refl s with
        keeps := fun h => ⟨h.wire, fun hf => ?_, fun hf => ?_, h.unresponsive, ?_, ?_⟩ }
    · exact absurd (hc.symm.trans hf) (by decide)
    · exact absurd (hs.symm.trans hf) (by decide)
    · intro hl
      exact h.late (by simpa [Env.receive_late] using hl)
    · exact Env.receive_wf h.memory

/-- What STOP does once its preamble has passed (R113). -/
theorem runStop_work {s : State} (hc : s.ctl.configured = true) (ha : Prim.stop.allowed s.ctl.phase = true) :
    BusWork s (runStop s) := by
  refine
    { BusWork.refl s with
      trace := ⟨[.p], rfl⟩
      keeps := fun h => ⟨replay_event (p := .stop) 0 h.wire ha, fun hf => ?_, fun _ => rfl, h.unresponsive, ?_, ?_⟩ }
  · exact absurd (hc.symm.trans hf) (by decide)
  · intro hl
    exact h.late (by simpa [Env.receiveStop_late] using hl)
  · exact Env.receiveStop_wf h.memory

/-- Everything a bus primitive can do (R100 to R113). A result that is no timeout comes with the phase of R106. -/
theorem runPrim_holds (p : Prim) (s : State) :
    (runPrim p s).Holds
      (fun r t => BusWork s t ∧ t.activity = s.activity ∧
        (lostResult r = false → t.ctl.phase = p.phaseAfter ∧ t.ctl.unresponsive = false ∧ t.ctl.configured = true))
      (fun _ => False) (BusWork s) (fun t => BusWork s t ∧ Hung t) := by
  unfold runPrim
  split
  · exact ⟨BusWork.refl s, rfl, fun h => (by cases h)⟩
  · next r s' hp =>
    obtain rfl | ⟨-, -, rfl⟩ := preamble_fault hp
    · exact BusWork.refl _
    · exact settleStop_work s
  · next s' hp =>
    obtain ⟨hc, hu, h1, ha, rfl⟩ := preamble_pass hp
    have hw := settleStop_work s
    have hc' : (settleStop s).2.ctl.configured = true := hw.configured.trans hc
    have hu' : (settleStop s).2.ctl.unresponsive = false := (settleStop_unresponsive s).trans hu
    have ha' : p.allowed (settleStop s).2.ctl.phase = true := by rw [settleStop_phase]; exact ha
    split
    · next hst =>
      subst hst
      exact ⟨hw.trans (runStop_work hc' ha'), settleStop_activity s, fun _ => ⟨rfl, hu', hc'⟩⟩
    · refine (runWaiting_holds hc' hu' ha' (settleStop_clear h1)).imp ?_ (fun _ h => h) (fun _ h => h.elim) ?_
      · intro r t ⟨h2, h3, h4⟩
        exact ⟨hw.trans h2, h3.trans (settleStop_activity s), fun hr => ⟨(h4 hr).1, (h4 hr).2.1, h2.configured.trans hc'⟩⟩
      · intro t ⟨h2, h3⟩
        exact ⟨hw.trans h2, h3⟩

/-! ### Sequences of primitives -/

theorem Txn.note_lost (t : Txn) (r : OpResult) : (t.note r).lost = (t.lost || lostResult r) := by
  cases r <;> simp [Txn.note, lostResult]

/-- The phase a sequence of primitives ends in, if none is lost. -/
def seqPhase : BusPhase → List Prim → BusPhase
  | p, [] => p
  | _, x :: xs => seqPhase x.phaseAfter xs

theorem seqPhase_append_stop (p : BusPhase) (xs : List Prim) : seqPhase p (xs ++ [.stop]) = .free := by
  induction xs generalizing p with
  | nil => rfl
  | cons x xs ih => exact ih _

/-- Everything a sequence of primitives can do (41_register_access.md R141). -/
theorem runSeq_holds (ps : List Prim) : ∀ (t : Txn) (s : State),
    (runSeq ps t s).Holds
      (fun t' u => BusWork s u ∧ u.activity = s.activity ∧
        (t'.lost = false → t.lost = false ∧ u.ctl.phase = seqPhase s.ctl.phase ps ∧
          ((s.ctl.unresponsive = false ∧ s.ctl.configured = true) ∨ ps ≠ [] → u.ctl.unresponsive = false ∧ u.ctl.configured = true)))
      (fun _ => False) (BusWork s) (fun u => BusWork s u ∧ Hung u) := by
  induction ps with
  | nil => intro t s; exact ⟨BusWork.refl s, rfl, fun h => ⟨h, rfl, fun h => h.resolve_right (fun hn => hn rfl)⟩⟩
  | cons p ps ih =>
    intro t s
    refine Flow.Holds.bind (D := fun r u => BusWork s u ∧ u.activity = s.activity ∧
        (lostResult r = false → u.ctl.phase = p.phaseAfter ∧ u.ctl.unresponsive = false ∧ u.ctl.configured = true))
      (runPrim_holds p s) ?_
    intro r u ⟨h1, h2, h3⟩
    refine (ih (t.note r) u).imp ?_ (fun _ h => h) (fun _ h => h1.trans h) (fun _ h => ⟨h1.trans h.1, h.2⟩)
    intro t' w ⟨h4, h5, h6⟩
    refine ⟨h1.trans h4, h5.trans h2, fun hl => ?_⟩
    obtain ⟨h7, h8, h9⟩ := h6 hl
    rw [Txn.note_lost, Bool.or_eq_false_iff] at h7
    obtain ⟨hp, hu, hc⟩ := h3 h7.2
    exact ⟨h7.1, by rw [h8, hp]; rfl, fun _ => h9 (.inl ⟨hu, hc⟩)⟩

end Sys2Proof.Machine
end

