-- ==== Sys2Proof/Laws/Transactions.lean ====
section
/-! SUPPORT. Register transactions: everything one can do, and the exact run of one in an environment that completes every
action in time. -/

namespace Sys2Proof.Machine

/-! ### Everything a transaction can do -/

/-- What a completed piece of a sweep operation leaves: bus work done, nothing in progress of its own, the bus free. -/
structure TxnDone (s t : State) : Prop where
  work : BusWork s t
  activity : t.activity = s.activity
  phase : t.ctl.phase = .free
  unresponsive : t.ctl.unresponsive = false
  configured : t.ctl.configured = true

/-- Every register transaction ends with its own STOP (41_register_access.md R143). -/
def EndsInStop (ps : List Prim) : Prop := ∃ xs, ps = xs ++ [.stop]

theorem setPointerSeq_ends (cfg : Params) (reg : Byte) : EndsInStop (setPointerSeq cfg reg) :=
  ⟨[.start, .sendAddr (addrW cfg), .sendByte cfg.opPointer, .sendByte reg], rfl⟩
theorem writeByteSeq_ends (cfg : Params) (reg v : Byte) : EndsInStop (writeByteSeq cfg reg v) :=
  ⟨[.start, .sendAddr (addrW cfg), .sendByte reg, .sendByte v], rfl⟩
theorem writeBlockSeq_ends (cfg : Params) (reg n : Byte) (bs : List Byte) : EndsInStop (writeBlockSeq cfg reg n bs) :=
  ⟨setPointerSeq cfg reg ++ ([.start, .sendAddr (addrW cfg), .sendByte cfg.opBlockWrite, .sendByte n] ++ bs.map Prim.sendByte),
    by simp [writeBlockSeq]⟩
theorem readByteSeq_ends (cfg : Params) (reg : Byte) : EndsInStop (readByteSeq cfg reg) :=
  ⟨setPointerSeq cfg reg ++ [.start, .sendAddr (addrR cfg), .recvNack], by simp [readByteSeq]⟩
theorem readBlockSeq_ends (cfg : Params) (reg n : Byte) : EndsInStop (readBlockSeq cfg reg n) :=
  ⟨setPointerSeq cfg reg ++ ([.start, .sendAddr (addrW cfg), .sendByte cfg.opBlockRead, .sendByte n, .start,
      .sendAddr (addrR cfg)] ++ (List.replicate (n.toNat - 1) Prim.recvAck ++ [.recvNack])), by simp [readBlockSeq]⟩

/-- Everything a register transaction can do (R140, R141). -/
theorem transaction_holds {ps : List Prim} (h : EndsInStop ps) (s : State) :
    (transaction ps s).Holds (fun t u => BusWork s u ∧ u.activity = s.activity ∧ (t.lost = false → TxnDone s u))
      (fun _ => False) (BusWork s) (fun u => BusWork s u ∧ Hung u) := by
  unfold transaction
  split
  · exact BusWork.refl s
  · refine (runSeq_holds ps Txn.empty s).imp ?_ (fun _ h => h) (fun _ h => h) (fun _ h => h)
    intro t u ⟨h1, h2, h3⟩
    refine ⟨h1, h2, fun hl => ?_⟩
    obtain ⟨-, hp, hu⟩ := h3 hl
    obtain ⟨xs, rfl⟩ := h
    obtain ⟨hu1, hu2⟩ := hu (.inr (by simp))
    exact ⟨h1, h2, by rw [hp, seqPhase_append_stop], hu1, hu2⟩

/-- Everything a transaction inside a sweep operation can do (42_sweep_controller.md R187). -/
theorem innerTxn_holds {ps : List Prim} (h : EndsInStop ps) (s : State) :
    (innerTxn ps s).Holds (fun _ u => TxnDone s u) (fun u => BusWork s u ∧ u.activity = s.activity) (BusWork s)
      (fun u => BusWork s u ∧ Hung u) := by
  unfold innerTxn
  refine Flow.Holds.bind (D := fun t u => BusWork s u ∧ u.activity = s.activity ∧ (t.lost = false → TxnDone s u))
    ((transaction_holds h s).imp (fun _ _ h => h) (fun _ h => h.elim) (fun _ h => h) (fun _ h => h)) ?_
  intro t u ⟨h1, h2, h3⟩
  cases hl : t.lost with
  | true => exact ⟨h1, h2⟩
  | false => exact h3 hl

theorem writeCmd_holds (c : Byte) (s : State) :
    (writeCmd c s).Holds (fun _ u => TxnDone s u) (fun u => BusWork s u ∧ u.activity = s.activity) (BusWork s)
      (fun u => BusWork s u ∧ Hung u) := innerTxn_holds (writeByteSeq_ends ..) s

theorem writeReg_holds (r : DevReg) (bs : List Byte) (s : State) :
    (writeReg r bs s).Holds (fun _ u => TxnDone s u) (fun u => BusWork s u ∧ u.activity = s.activity) (BusWork s)
      (fun u => BusWork s u ∧ Hung u) := innerTxn_holds (writeBlockSeq_ends ..) s

theorem readReg16_holds (r : DevReg) (s : State) :
    (readReg16 r s).Holds (fun _ u => TxnDone s u) (fun u => BusWork s u ∧ u.activity = s.activity) (BusWork s)
      (fun u => BusWork s u ∧ Hung u) := innerTxn_holds (readBlockSeq_ends ..) s

/-! ### The exact run in an environment that completes every action in time -/

/-- Every primitive of a sequence is allowed in the phase it meets (40_bus_primitives.md R106). -/
def legalSeq : BusPhase → List Prim → Bool
  | _, [] => true
  | ph, p :: ps => p.allowed ph && legalSeq p.phaseAfter ps

/-- The bus actions of a sequence. -/
def seqActions : BusPhase → List Prim → List BusAction
  | _, [] => []
  | ph, p :: ps => p.action ph :: seqActions p.phaseAfter ps

/-- `ctl.flag` after a sequence: STOP leaves it clear, a completed wait leaves it set (R102, R103). -/
def seqFlag : Bool → List Prim → Bool
  | f, [] => f
  | _, p :: ps => seqFlag (decide (p ≠ .stop)) ps

/-- `ctl.stopPending` after a sequence whose stops are `Ordered` (R100, R113). -/
def seqPending : Bool → List Prim → Bool
  | b, [] => b
  | _, p :: ps => seqPending (decide (p = .stop)) ps

theorem settleStop_harmless {s : State} (h : s.stopHarmless) :
    settleStop s = (true, s.setCtl { s.ctl with stopPending := false }) := by
  obtain ⟨he, hp⟩ | ⟨-, -, he⟩ | ⟨hp, ho, -⟩ := settleStop_cases s
  · rw [he, ← hp]; rfl
  · exact he
  · rcases h with h | h
    · rw [hp] at h; cases h
    · rw [ho] at h; cases h

/-- The preamble of a ready block (R100). -/
theorem preamble_ready {p : Prim} {s : State} (ho : s.operational) (hs : s.stopHarmless) (ha : p.allowed s.ctl.phase = true) :
    preamble p s = .pass (s.setCtl { s.ctl with stopPending := false }) := by
  unfold preamble
  rw [settleStop_harmless hs]
  simp [ho.1, ho.2, ha]

/-- The state after a completed, awaited primitive. -/
def afterPrim (p : Prim) (raw d : Byte) (env : Env) (s : State) : State :=
  { s with
    ctl := { s.ctl with
      flag := true
      status := .val raw
      data := (p.action s.ctl.phase).incoming ((p.action s.ctl.phase).outgoing s.ctl.data) d
      phase := p.phaseAfter
      trace := s.ctl.trace ++ [(p.action s.ctl.phase).event d]
      stopPending := false }
    env := env }

/-- The state after a STOP (R113). -/
def afterStop (s : State) : State :=
  { s with
    ctl := { s.ctl with flag := false, phase := .free, trace := s.ctl.trace ++ [.p], stopPending := true }
    env := s.env.receiveStop s.cfg }

/-- A ready, awaited primitive whose action completes in time (R108 to R112). -/
theorem runPrim_done {p : Prim} {s : State} {raw d : Byte} {late : Nat} {env : Env} (ho : s.operational) (hs : s.stopHarmless)
    (ha : p.allowed s.ctl.phase = true) (hp : p ≠ .stop)
    (he : s.env.receive s.cfg (p.action s.ctl.phase) = (.done raw d late, env)) (ht : inTime s.cfg late = true) :
    runPrim p s = .done (p.result s.cfg raw d) (afterPrim p raw d env s) := by
  unfold runPrim
  rw [preamble_ready ho hs ha]
  simp only [hp, if_false, runWaiting, State.setCtl_ctl, State.setCtl_env, State.setCtl_cfg, he]
  rw [waitFlag_done (by exact ht)]
  rfl

/-- A ready STOP (R113). -/
theorem runPrim_stop {s : State} (ho : s.operational) (hs : s.stopHarmless) (ha : Prim.stop.allowed s.ctl.phase = true) :
    runPrim .stop s = .done .unit (afterStop s) := by
  unfold runPrim
  rw [preamble_ready ho hs ha]
  rfl

theorem note_result (t : Txn) (cfg : Params) (raw d : Byte) (p : Prim) (ph : BusPhase) :
    t.note (p.result cfg raw d) =
      { st := t.st.or (actionErr cfg raw (p.action ph)), bytes := t.bytes ++ actionByte d (p.action ph), lost := t.lost } := by
  cases p with
  | start => cases ph <;> (simp only [Prim.result, Prim.action, check, actionErr, actionByte]; split <;> simp [Txn.note])
  | sendAddr a => simp only [Prim.result, Prim.action, check, actionErr, actionByte]; split <;> simp [Txn.note]
  | sendByte b => simp only [Prim.result, Prim.action, check, actionErr, actionByte]; split <;> simp [Txn.note]
  | recvAck => simp [Prim.result, Prim.action, actionErr, actionByte, Txn.note]
  | recvNack => simp [Prim.result, Prim.action, actionErr, actionByte, Txn.note]
  | stop => simp [Prim.result, Prim.action, actionErr, actionByte, Txn.note]

/-- One awaited action served. -/
theorem serve_cons {cfg : Params} {a : BusAction} {acts : List BusAction} {v v' : Service} (ha : a ≠ .stop)
    (h : serve cfg (a :: acts) v = some v') :
    ∃ raw d late env, v.env.receive cfg a = (.done raw d late, env) ∧ inTime cfg late = true ∧
      serve cfg acts (v.add cfg a raw d env) = some v' := by
  have key : (match v.env.receive cfg a with
      | (.done raw d late, env) => if inTime cfg late then serve cfg acts (v.add cfg a raw d env) else none
      | (.wedged, _) => none) = some v' := by
    cases a <;> first | exact absurd rfl ha | exact h
  split at key
  · next raw d late env he =>
    split at key
    · next ht => exact ⟨raw, d, late, env, he, ht, key⟩
    · cases key
  · cases key

/-- The state after a sequence that was served. -/
def afterSeq (ps : List Prim) (es : List BusEvent) (v : Service) (s : State) : State :=
  { s with
    ctl := { s.ctl with
      flag := seqFlag s.ctl.flag ps
      status := v.status
      data := v.data
      phase := seqPhase s.ctl.phase ps
      trace := s.ctl.trace ++ es
      stopPending := seqPending s.ctl.stopPending ps }
    env := v.env }

/-- Only STOP launches a stop condition. -/
theorem Prim.action_ne_stop {p : Prim} (ph : BusPhase) (h : p ≠ .stop) : p.action ph ≠ .stop := by
  cases p <;> cases ph <;> simp_all [Prim.action]

/-- The exact run of a legal sequence in an environment that completes every action in time (41_register_access.md R141). -/
theorem runSeq_serve (ps : List Prim) : ∀ (t : Txn) (s : State) (v v' : Service),
    s.operational → s.cfg.stopOverlap = .ordered → legalSeq s.ctl.phase ps = true →
    v.env = s.env → v.status = s.ctl.status → v.data = s.ctl.data → v.firstErr = t.st → v.bytes = t.bytes →
    serve s.cfg (seqActions s.ctl.phase ps) v = some v' →
    ∃ es, v'.events = v.events ++ es ∧
      runSeq ps t s = .done { st := v'.firstErr, bytes := v'.bytes, lost := t.lost } (afterSeq ps es v' s) := by
  induction ps with
  | nil =>
    intro t s v v' ho hov hl he hst hd hf hb h
    cases h
    refine ⟨[], by simp, ?_⟩
    simp [runSeq, afterSeq, seqFlag, seqPhase, seqPending, hst, hd, he, hf, hb]
  | cons p ps ih =>
    intro t s v v' ho hov hl he hst hd hf hb h
    rw [legalSeq, Bool.and_eq_true] at hl
    by_cases hp : p = .stop
    · subst hp
      obtain ⟨es, h1, h2⟩ := ih t (afterStop s) { v with events := v.events ++ [.p], env := v.env.receiveStop s.cfg } v' ho hov hl.2
        (by rw [he]; rfl) hst hd hf hb h
      refine ⟨.p :: es, by rw [h1]; simp, ?_⟩
      rw [runSeq, runPrim_stop ho (.inr hov) hl.1]
      refine h2.trans ?_
      simp [afterSeq, afterStop, seqFlag, seqPhase, seqPending, Prim.phaseAfter]
    · have hact := Prim.action_ne_stop s.ctl.phase hp
      obtain ⟨raw, d, late, env, hr, ht, h'⟩ := serve_cons hact h
      rw [he] at hr
      have hn := note_result t s.cfg raw d p s.ctl.phase
      obtain ⟨es, h1, h2⟩ := ih (t.note (p.result s.cfg raw d)) (afterPrim p raw d env s)
        (v.add s.cfg (p.action s.ctl.phase) raw d env) v' ho hov hl.2 rfl rfl
        (by simp [Service.add, afterPrim, hd]) (by rw [hn]; simp [Service.add, hf]) (by rw [hn]; simp [Service.add, hb]) h'
      refine ⟨(p.action s.ctl.phase).event d :: es, by rw [h1]; simp [Service.add], ?_⟩
      rw [runSeq, runPrim_done ho (.inr hov) hl.1 hp hr ht]
      refine h2.trans ?_
      rw [hn]
      simp [afterSeq, afterPrim, seqFlag, seqPhase, seqPending, hp]

/-! ### The five transactions are legal sequences with the frames of 30_encoding.md R78 -/

theorem addrW_write (cfg : Params) : isReadAddr (addrW cfg) = false := by
  simp [isReadAddr, addrW]

theorem addrR_read (cfg : Params) : isReadAddr (addrR cfg) = true := by
  simp [isReadAddr, addrR]

theorem legalSeq_append (xs ys : List Prim) : ∀ p, legalSeq p (xs ++ ys) = (legalSeq p xs && legalSeq (seqPhase p xs) ys) := by
  induction xs with
  | nil => intro p; simp [legalSeq, seqPhase]
  | cons x xs ih => intro p; simp [legalSeq, seqPhase, ih, Bool.and_assoc]

theorem seqActions_append (xs ys : List Prim) :
    ∀ p, seqActions p (xs ++ ys) = seqActions p xs ++ seqActions (seqPhase p xs) ys := by
  induction xs with
  | nil => intro p; simp [seqActions, seqPhase]
  | cons x xs ih => intro p; simp [seqActions, seqPhase, ih]

theorem seqPhase_append (xs ys : List Prim) : ∀ p, seqPhase p (xs ++ ys) = seqPhase (seqPhase p xs) ys := by
  induction xs with
  | nil => intro p; rfl
  | cons x xs ih => intro p; exact ih _

theorem sends_legal (bs : List Byte) : legalSeq .tx (bs.map Prim.sendByte) = true ∧
    seqActions .tx (bs.map Prim.sendByte) = bs.map BusAction.dataOut ∧ seqPhase .tx (bs.map Prim.sendByte) = .tx := by
  induction bs with
  | nil => exact ⟨rfl, rfl, rfl⟩
  | cons b bs ih => exact ⟨by simp [legalSeq, Prim.allowed, Prim.phaseAfter, ih.1],
      by simp [seqActions, Prim.action, Prim.phaseAfter, ih.2.1], by simp [seqPhase, Prim.phaseAfter, ih.2.2]⟩

theorem recvs_legal (n : Nat) : legalSeq (.rx false) (List.replicate n Prim.recvAck) = true ∧
    seqActions (.rx false) (List.replicate n Prim.recvAck) = List.replicate n (BusAction.dataIn true) ∧
    seqPhase (.rx false) (List.replicate n Prim.recvAck) = .rx false := by
  induction n with
  | zero => exact ⟨rfl, rfl, rfl⟩
  | succ n ih => exact ⟨by simp [List.replicate_succ, legalSeq, Prim.allowed, Prim.phaseAfter, ih.1],
      by simp [List.replicate_succ, seqActions, Prim.action, Prim.phaseAfter, ih.2.1],
      by simp [List.replicate_succ, seqPhase, Prim.phaseAfter, ih.2.2]⟩

theorem setPointerSeq_legal (cfg : Params) (reg : Byte) : legalSeq .free (setPointerSeq cfg reg) = true ∧
    seqActions .free (setPointerSeq cfg reg) = setPointerFrame cfg reg ∧ seqPhase .free (setPointerSeq cfg reg) = .free := by
  simp [setPointerSeq, setPointerFrame, legalSeq, seqActions, seqPhase, Prim.allowed, Prim.phaseAfter, Prim.action, addrW_write]

theorem writeByteSeq_legal (cfg : Params) (reg v : Byte) : legalSeq .free (writeByteSeq cfg reg v) = true ∧
    seqActions .free (writeByteSeq cfg reg v) = writeByteFrame cfg reg v := by
  simp [writeByteSeq, writeByteFrame, legalSeq, seqActions, Prim.allowed, Prim.phaseAfter, Prim.action, addrW_write]

theorem writeBlockSeq_legal (cfg : Params) (reg n : Byte) (bs : List Byte) :
    legalSeq .free (writeBlockSeq cfg reg n bs) = true ∧
    seqActions .free (writeBlockSeq cfg reg n bs) = writeBlockFrame cfg reg n bs := by
  obtain ⟨h1, h2, h3⟩ := setPointerSeq_legal cfg reg
  obtain ⟨h4, h5, h6⟩ := sends_legal bs
  simp only [writeBlockSeq, writeBlockFrame, legalSeq_append, seqActions_append, h1, h2, h3]
  simp [legalSeq, seqActions, seqPhase, Prim.allowed, Prim.phaseAfter, Prim.action, addrW_write, h4, h5, h6]

theorem readByteSeq_legal (cfg : Params) (reg : Byte) : legalSeq .free (readByteSeq cfg reg) = true ∧
    seqActions .free (readByteSeq cfg reg) = readByteFrame cfg reg := by
  obtain ⟨h1, h2, h3⟩ := setPointerSeq_legal cfg reg
  simp only [readByteSeq, readByteFrame, legalSeq_append, seqActions_append, h1, h2, h3]
  simp [legalSeq, seqActions, Prim.allowed, Prim.phaseAfter, Prim.action, addrR_read]

theorem readBlockSeq_legal (cfg : Params) (reg n : Byte) : legalSeq .free (readBlockSeq cfg reg n) = true ∧
    seqActions .free (readBlockSeq cfg reg n) = readBlockFrame cfg reg n := by
  obtain ⟨h1, h2, h3⟩ := setPointerSeq_legal cfg reg
  obtain ⟨h4, h5, h6⟩ := recvs_legal (n.toNat - 1)
  simp only [readBlockSeq, readBlockFrame, legalSeq_append, seqActions_append, h1, h2, h3]
  simp [legalSeq, seqActions, seqPhase, Prim.allowed, Prim.phaseAfter, Prim.action, addrW_write, addrR_read, h4, h5, h6]

theorem seqFlag_append_stop (xs : List Prim) : ∀ f, seqFlag f (xs ++ [.stop]) = false := by
  induction xs with
  | nil => intro f; rfl
  | cons x xs ih => intro f; exact ih _

theorem seqPending_append_stop (xs : List Prim) : ∀ b, seqPending b (xs ++ [.stop]) = true := by
  induction xs with
  | nil => intro b; rfl
  | cons x xs ih => intro b; exact ih _

/-- The registers, history and environment after transactions that were served: the bus part of `afterTransactions`. -/
def servedState (v : Service) (es : List BusEvent) (s : State) : State :=
  { s with
    ctl := { s.ctl with
      flag := false
      status := v.status
      data := v.data
      phase := .free
      trace := s.ctl.trace ++ es
      stopPending := true }
    env := v.env }

/-- The exact run of a register transaction that is served (R140 to R143). -/
theorem transaction_serve {ps : List Prim} (hends : EndsInStop ps) {s : State} {v v' : Service}
    (ho : s.operational) (hov : s.cfg.stopOverlap = .ordered) (hph : s.ctl.phase = .free) (hl : legalSeq .free ps = true)
    (he : v.env = s.env) (hst : v.status = s.ctl.status) (hd : v.data = s.ctl.data)
    (hf : v.firstErr = none) (hb : v.bytes = []) (h : serve s.cfg (seqActions .free ps) v = some v') :
    ∃ es, v'.events = v.events ++ es ∧
      transaction ps s = .done { st := v'.firstErr, bytes := v'.bytes, lost := false } (servedState v' es s) := by
  obtain ⟨es, h1, h2⟩ := runSeq_serve ps Txn.empty s v v' ho hov (by rw [hph]; exact hl) he hst hd hf hb (by rw [hph]; exact h)
  refine ⟨es, h1, ?_⟩
  unfold transaction
  simp only [hph, ne_eq, not_true_eq_false, if_false]
  rw [h2]
  obtain ⟨xs, rfl⟩ := hends
  simp [afterSeq, servedState, seqFlag_append_stop, seqPending_append_stop, seqPhase_append_stop, Txn.empty]

/-! ### Several transactions one after another -/

/-- A service that has collected nothing yet, at the registers and the environment of `v`. -/
def Service.fresh (v : Service) : Service := { v with events := [], firstErr := none, bytes := [] }

/-- A service `w` that starts from nothing, put after what `v` has collected. -/
def Service.after (v w : Service) : Service :=
  { w with events := v.events ++ w.events, firstErr := v.firstErr.or w.firstErr, bytes := v.bytes ++ w.bytes }

theorem serve_after {cfg : Params} (acts : List BusAction) : ∀ (u v w : Service), serve cfg acts v = some w →
    serve cfg acts (u.after v) = some (u.after w) := by
  induction acts with
  | nil => intro u v w h; cases h; rfl
  | cons a acts ih =>
    intro u v w h
    by_cases ha : a = .stop
    · subst ha
      have := ih u _ _ h
      simpa [serve, Service.after] using this
    · obtain ⟨raw, d, late, env, hr, ht, h'⟩ := serve_cons ha h
      have h2 := ih u _ _ h'
      have h3 : (u.after v).env.receive cfg a = (.done raw d late, env) := hr
      have h4 : (u.after v).add cfg a raw d env = u.after (v.add cfg a raw d env) := by
        simp [Service.after, Service.add, Option.or_assoc]
      cases a <;> first
        | exact absurd rfl ha
        | (simp only [serve, h3, ht, if_true, h4]; exact h2)

theorem Service.after_fresh (v : Service) : v.after v.fresh = v := by
  cases v
  simp [Service.after, Service.fresh]

/-- Whether an environment serves actions does not depend on what was collected before. -/
theorem serve_isSome {cfg : Params} (acts : List BusAction) : ∀ (v w : Service), v.env = w.env →
    (serve cfg acts v).isSome = true → (serve cfg acts w).isSome = true := by
  induction acts with
  | nil => intro v w _ _; rfl
  | cons a acts ih =>
    intro v w he h
    by_cases ha : a = .stop
    · subst ha
      exact ih { v with events := v.events ++ [.p], env := v.env.receiveStop cfg }
        { w with events := w.events ++ [.p], env := w.env.receiveStop cfg } (congrArg (Env.receiveStop cfg) he) h
    · obtain ⟨x, hx⟩ := Option.isSome_iff_exists.mp h
      obtain ⟨raw, d, late, env, hr, ht, h'⟩ := serve_cons ha hx
      have h2 := ih (v.add cfg a raw d env) (w.add cfg a raw d env) rfl (by rw [h']; rfl)
      rw [he] at hr
      cases a <;> first
        | exact absurd rfl ha
        | (simp only [serve, hr, ht, if_true]; exact h2)

/-- A service is a fresh service put after what was collected before. -/
theorem serve_split {cfg : Params} {acts : List BusAction} {v v' : Service} (h : serve cfg acts v = some v') :
    ∃ w, serve cfg acts v.fresh = some w ∧ v' = v.after w := by
  obtain ⟨w, hw⟩ := Option.isSome_iff_exists.mp (serve_isSome acts v v.fresh rfl (by rw [h]; rfl))
  refine ⟨w, hw, ?_⟩
  have := serve_after acts v v.fresh w hw
  rw [Service.after_fresh, h] at this
  exact Option.some.inj this

theorem serve_append (cfg : Params) (xs ys : List BusAction) : ∀ v,
    serve cfg (xs ++ ys) v = (serve cfg xs v).bind (serve cfg ys) := by
  induction xs with
  | nil => intro v; rfl
  | cons a xs ih =>
    intro v
    by_cases ha : a = .stop
    · subst ha
      exact ih _
    · have key : ∀ acts, serve cfg (a :: acts) v = (match v.env.receive cfg a with
          | (.done raw d late, env) => if inTime cfg late then serve cfg acts (v.add cfg a raw d env) else none
          | (.wedged, _) => none) := by
        intro acts
        cases a <;> first | exact absurd rfl ha | rfl
      rw [List.cons_append, key, key]
      split
      · split
        · exact ih _
        · rfl
      · rfl

/-- The exact run of a transaction inside a sweep operation, put after what was served before it
(42_sweep_controller.md R193). -/
theorem innerTxn_serve {ps : List Prim} (hends : EndsInStop ps) {s : State} {v v' : Service}
    (ho : s.operational) (hov : s.cfg.stopOverlap = .ordered) (hph : s.ctl.phase = .free) (hl : legalSeq .free ps = true)
    (he : v.env = s.env) (hst : v.status = s.ctl.status) (hd : v.data = s.ctl.data)
    (h : serve s.cfg (seqActions .free ps) v = some v') :
    ∃ w : Service, serve s.cfg (seqActions .free ps) v.fresh = some w ∧ v' = v.after w ∧
      innerTxn ps s = .done { st := w.firstErr, bytes := w.bytes, lost := false } (servedState v' w.events s) := by
  obtain ⟨w, hw, rfl⟩ := serve_split h
  obtain ⟨es, h1, h2⟩ := transaction_serve hends ho hov hph hl (v := v.fresh) he hst hd rfl rfl hw
  refine ⟨w, hw, rfl, ?_⟩
  unfold innerTxn
  rw [h2]
  have : w.events = es := by simpa [Service.fresh] using h1
  subst this
  rfl

/-- The bus actions of one list served, then those of another. -/
theorem serve_both {cfg : Params} {xs ys : List BusAction} {v v' : Service} (h : serve cfg (xs ++ ys) v = some v') :
    ∃ u, serve cfg xs v = some u ∧ serve cfg ys u = some v' := by
  rw [serve_append] at h
  exact Option.bind_eq_some_iff.mp h

/-- Actions that receive nothing: their events are known beforehand. -/
def receivesNothing : BusAction → Bool
  | .start => true
  | .repStart => true
  | .addrOut _ => true
  | .dataOut _ => true
  | .dataIn _ => false
  | .stop => true

theorem serve_sends {cfg : Params} (acts : List BusAction) : ∀ (v v' : Service), acts.all receivesNothing = true →
    serve cfg acts v = some v' → v'.events = v.events ++ acts.map (BusAction.event 0) ∧ v'.bytes = v.bytes := by
  induction acts with
  | nil => intro v v' _ h; cases h; simp
  | cons a acts ih =>
    intro v v' hq h
    by_cases ha : a = .stop
    · subst ha
      obtain ⟨h1, h2⟩ := ih _ _ (by simpa [receivesNothing] using hq) h
      exact ⟨by rw [h1]; simp [BusAction.event], h2⟩
    · obtain ⟨raw, d, late, env, -, -, h'⟩ := serve_cons ha h
      simp only [List.all_cons, Bool.and_eq_true] at hq
      obtain ⟨h1, h2⟩ := ih _ _ hq.2 h'
      refine ⟨?_, ?_⟩
      · rw [h1]; cases a <;> simp_all [receivesNothing, Service.add, BusAction.event]
      · rw [h2]; cases a <;> simp_all [receivesNothing, Service.add, actionByte]

/-- Receptions that acknowledge every byte. -/
theorem serve_recvs {cfg : Params} (n : Nat) : ∀ (v v' : Service), serve cfg (List.replicate n (BusAction.dataIn true)) v = some v' →
    ∃ bs, bs.length = n ∧ v'.events = v.events ++ bs.map (fun x => BusEvent.dataIn x true) ∧ v'.bytes = v.bytes ++ bs := by
  induction n with
  | zero => intro v v' h; cases h; exact ⟨[], by simp⟩
  | succ n ih =>
    intro v v' h
    obtain ⟨raw, d, late, env, -, -, h'⟩ := serve_cons (by simp) h
    obtain ⟨bs, h1, h2, h3⟩ := ih _ _ h'
    exact ⟨d :: bs, by simp [h1], by rw [h2]; simp [Service.add, BusAction.event],
      by rw [h3]; simp [Service.add, actionByte]⟩

/-! ### The exact run of a transaction that loses an action (R105, R141) -/

/-- In a block with the unresponsive mark a sequence has no effect: every primitive returns `Unresponsive` (R105). -/
theorem runSeq_unresponsive (ps : List Prim) : ∀ (t : Txn) (s : State), s.ctl.configured = true → s.ctl.unresponsive = true →
    runSeq ps t s = .done { t with lost := t.lost || !ps.isEmpty } s := by
  induction ps with
  | nil => intro t s _ _; simp [runSeq]
  | cons p ps ih =>
    intro t s hc hu
    have hp : runPrim p s = .done .unresponsive s := by simp [runPrim, preamble, hc, hu]
    rw [runSeq, hp]
    refine (ih (t.note .unresponsive) s hc hu).trans ?_
    simp [Txn.note]

/-- The state after an awaited action `a` that the environment did not complete within the budget, the ones before it served. -/
def lostState (v : Service) (es : List BusEvent) (phase : BusPhase) (a : BusAction) (env : Env) (s : State) : State :=
  { s with
    ctl := { s.ctl with
      flag := false
      status := v.status
      data := a.outgoing v.data
      phase := phase
      trace := s.ctl.trace ++ es
      stopPending := false
      unresponsive := true }
    env := env }

/-- An answer that comes too late, under a budget (R103). -/
theorem waitFlag_late {act : BusAction} {ans : EnvAnswer} {s : State} (hb : s.cfg.pollBudget ≠ none) (h : tooLate s.cfg ans) :
    ∃ late, waitFlag act ans s = .timeout (giveUp late s) := by
  obtain ⟨raw, d, l, rfl, ht, -⟩ | ⟨late, -, hw⟩ | ⟨-, hn, -⟩ := waitFlag_cases act ans s
  · have : inTime s.cfg l = false := h
    rw [this] at ht
    cases ht
  · exact ⟨late, hw⟩
  · exact absurd hn hb

/-- The exact run of a legal sequence whose actions `acts` are served and whose next one is not: the rest has no effect. -/
theorem runSeq_lost (ps : List Prim) : ∀ (t : Txn) (s : State) (v v' : Service) (acts rest : List BusAction) (a : BusAction),
    s.operational → s.cfg.stopOverlap = .ordered → s.cfg.pollBudget ≠ none → legalSeq s.ctl.phase ps = true →
    v.env = s.env → v.status = s.ctl.status → v.data = s.ctl.data →
    seqActions s.ctl.phase ps = acts ++ a :: rest → a ≠ .stop → serve s.cfg acts v = some v' →
    tooLate s.cfg (v'.env.receive s.cfg a).1 →
    ∃ es phase env t', v'.events = v.events ++ es ∧ replay s.ctl.phase es = some phase ∧ t'.lost = true ∧
      runSeq ps t s = .done t' (lostState v' es phase a env s) := by
  induction ps with
  | nil =>
    intro t s v v' acts rest a _ _ _ _ _ _ _ h
    simp [seqActions] at h
  | cons p ps ih =>
    intro t s v v' acts rest a ho hov hb hl he hst hd hact ha hv hlate
    rw [legalSeq, Bool.and_eq_true] at hl
    rw [seqActions] at hact
    cases acts with
    | nil =>
      cases hv
      obtain ⟨rfl, -⟩ := List.cons.inj hact
      have hp : p ≠ .stop := by rintro rfl; exact ha rfl
      rw [he] at hlate
      obtain ⟨late, hw⟩ := waitFlag_late (act := p.action s.ctl.phase) (s := (launch (p.action s.ctl.phase)
        (s.setCtl { s.ctl with stopPending := false })).setEnv (s.env.receive s.cfg (p.action s.ctl.phase)).2) hb hlate
      have hrun : runPrim p s = .done .timeout (lostState v [] s.ctl.phase (p.action s.ctl.phase)
          { (s.env.receive s.cfg (p.action s.ctl.phase)).2 with late := late } s) := by
        unfold runPrim
        rw [preamble_ready ho (.inr hov) hl.1]
        simp only [hp, if_false, runWaiting, State.setCtl_ctl, State.setCtl_env, State.setCtl_cfg]
        rw [hw]
        simp [lostState, giveUp, launch, State.setCtl, State.setEnv, hst, hd]
      have hseq := runSeq_unresponsive ps (t.note .timeout) (lostState v [] s.ctl.phase (p.action s.ctl.phase)
          { (s.env.receive s.cfg (p.action s.ctl.phase)).2 with late := late } s) ho.1 rfl
      rw [show runSeq ps (t.note .timeout) _ = runSeq (p :: ps) t s by rw [runSeq, hrun]; rfl] at hseq
      exact ⟨[], s.ctl.phase, _, _, by simp, rfl, by simp [Txn.note], hseq⟩
    | cons b acts =>
      obtain ⟨rfl, hact'⟩ := List.cons.inj hact
      by_cases hp : p = .stop
      · subst hp
        obtain ⟨es, phase, env, t', h1, h2, h3, h4⟩ := ih t (afterStop s)
          { v with events := v.events ++ [.p], env := v.env.receiveStop s.cfg } v' acts rest a ho hov hb hl.2
          (by rw [he]; rfl) hst hd hact' ha hv hlate
        refine ⟨.p :: es, phase, env, t', by rw [h1]; simp, ?_, h3, ?_⟩
        · rw [replay, show phaseStep s.ctl.phase .p = some .free from phaseStep_event (p := .stop) 0 hl.1]
          exact h2
        · rw [runSeq, runPrim_stop ho (.inr hov) hl.1]
          refine h4.trans ?_
          simp [lostState, afterStop]
      · have hne := Prim.action_ne_stop s.ctl.phase hp
        obtain ⟨raw, d, late, env, hr, ht, hv'⟩ := serve_cons hne hv
        rw [he] at hr
        obtain ⟨es, phase, env', t', h1, h2, h3, h4⟩ := ih (t.note (p.result s.cfg raw d)) (afterPrim p raw d env s)
          (v.add s.cfg (p.action s.ctl.phase) raw d env) v' acts rest a ho hov hb hl.2 rfl rfl
          (by simp [Service.add, afterPrim, hd]) hact' ha hv' hlate
        refine ⟨(p.action s.ctl.phase).event d :: es, phase, env', t', by rw [h1]; simp [Service.add], ?_, h3, ?_⟩
        · rw [replay, phaseStep_event d hl.1]
          exact h2
        · rw [runSeq, runPrim_done ho (.inr hov) hl.1 hp hr ht]
          refine h4.trans ?_
          simp [lostState, afterPrim]

/-- The exact run of a transaction that loses the action `a`. -/
theorem transaction_lost {ps : List Prim} {s : State} {v v' : Service} {acts rest : List BusAction} {a : BusAction}
    (ho : s.operational) (hov : s.cfg.stopOverlap = .ordered) (hb : s.cfg.pollBudget ≠ none) (hph : s.ctl.phase = .free)
    (hl : legalSeq .free ps = true) (he : v.env = s.env) (hst : v.status = s.ctl.status) (hd : v.data = s.ctl.data)
    (hact : seqActions .free ps = acts ++ a :: rest) (ha : a ≠ .stop) (h : serve s.cfg acts v = some v')
    (hlate : tooLate s.cfg (v'.env.receive s.cfg a).1) :
    ∃ es phase env t, v'.events = v.events ++ es ∧ replay .free es = some phase ∧ t.lost = true ∧
      transaction ps s = .done t (lostState v' es phase a env s) := by
  obtain ⟨es, phase, env, t, h1, h2, h3, h4⟩ := runSeq_lost ps Txn.empty s v v' acts rest a ho hov hb (by rw [hph]; exact hl) he hst hd
    (by rw [hph]; exact hact) ha h hlate
  refine ⟨es, phase, env, t, h1, by rw [hph] at h2; exact h2, h3, ?_⟩
  unfold transaction
  simp only [hph, ne_eq, not_true_eq_false, if_false]
  exact h4

/-- A transaction inside a sweep operation that loses the action `a` ends the operation (42_sweep_controller.md R187). -/
theorem innerTxn_lost {ps : List Prim} {s : State} {v v' : Service} {acts rest : List BusAction} {a : BusAction}
    (ho : s.operational) (hov : s.cfg.stopOverlap = .ordered) (hb : s.cfg.pollBudget ≠ none) (hph : s.ctl.phase = .free)
    (hl : legalSeq .free ps = true) (he : v.env = s.env) (hst : v.status = s.ctl.status) (hd : v.data = s.ctl.data)
    (hact : seqActions .free ps = acts ++ a :: rest) (ha : a ≠ .stop) (h : serve s.cfg acts v = some v')
    (hlate : tooLate s.cfg (v'.env.receive s.cfg a).1) :
    ∃ es phase env, v'.events = v.events ++ es ∧ innerTxn ps s = .quit (lostState v' es phase a env s) := by
  obtain ⟨es, phase, env, t, h1, -, h3, h4⟩ := transaction_lost ho hov hb hph hl he hst hd hact ha h hlate
  refine ⟨es, phase, env, h1, ?_⟩
  unfold innerTxn
  rw [h4]
  simp [Flow.bind, h3]

/-- An action of a list of two parts is in the first or in the second. -/
theorem append_eq_append_cons {α : Type} {xs ys zs rest : List α} {a : α} (h : xs ++ ys = zs ++ a :: rest) :
    (∃ r, xs = zs ++ a :: r) ∨ ∃ zs', zs = xs ++ zs' ∧ ys = zs' ++ a :: rest := by
  obtain ⟨w, h1, h2⟩ | ⟨w, h1, h2⟩ := List.append_eq_append_iff.mp h
  · exact .inr ⟨w, h1, h2⟩
  · cases w with
    | nil => exact .inr ⟨[], by simpa using h1.symm, by simpa using h2.symm⟩
    | cons b w =>
      obtain ⟨rfl, -⟩ := List.cons.inj h2
      exact .inl ⟨w, h1⟩

/-! ### From an operation's body to the command -/

/-- An accepting block performs a command whose operands pass: the answer is how its body ends (60_exceptions.md R230). -/
theorem command_accepting {i : Instr} {s : State} {body : State → Flow OpResult} (h : s.accepting)
    (ho : operandsAccepted s.cfg i = true) : command i s body = finish (body s) := by
  obtain ⟨⟨h1, h2⟩, h3⟩ := h
  simp [command, h1, h2, h3, ho]

theorem exec_prim {p : Prim} {s : State} (h : s.accepting) : exec p.instr s = finish (runPrim p s) := by
  cases p <;> exact command_accepting h rfl

theorem conclude_idle {s : State} (o : OpOutcome) (h : s.activity = .idle) : s.conclude o = s.setLast (some o) := by
  cases s
  simp_all [State.conclude, State.setActivity]

theorem txnResult_reported (cfg : Params) (st : Option Byte) (bs : List Byte) (x : OpResult) :
    txnResult cfg { st := st, bytes := bs, lost := false } x = reported cfg st x := by
  unfold txnResult reported
  cases cfg.errProp <;> cases st <;> rfl

/-- The whole command of a served register transaction. -/
theorem transactionBody_serve {ps : List Prim} (hends : EndsInStop ps) {s : State} {acts : List BusAction} {v : Service}
    {val : Txn → OpResult} (h : s.readyForTransactions) (hl : legalSeq .free ps = true) (ha : seqActions .free ps = acts)
    (hv : serve s.cfg acts (Service.start s) = some v) :
    finish (transactionBody ps val s) =
      .next (afterTransactions s v (reported s.cfg v.firstErr (val { st := v.firstErr, bytes := v.bytes, lost := false }))) := by
  obtain ⟨hacc, ho, hp, hov⟩ := h
  subst ha
  obtain ⟨es, h1, h2⟩ := transaction_serve hends ho hov hp hl (v := Service.start s) rfl rfl rfl rfl rfl hv
  have he : es = v.events := by simpa [Service.start] using h1.symm
  subst he
  unfold transactionBody
  rw [h2]
  simp only [Flow.bind, finish, txnResult_reported]
  have := hacc.2
  cases s
  simp_all [afterTransactions, servedState, State.conclude, State.setActivity, State.setLast]

end Sys2Proof.Machine
end

