-- ==== Sys2Proof/Laws/Sweep.lean ====
section
/-! SUPPORT. Everything the sweep operations can do, said once: their bus work, what they do to the device context, and what they
leave in progress (42_sweep_controller.md R177 to R192). -/

namespace Sys2Proof.Machine

/-- The three integer fields of the context are in their ranges (10_state.md R32). -/
def Ctx.ranged (c : Ctx) : Prop :=
  c.real.within (-32768) 32767 ∧ c.imag.within (-32768) 32767 ∧ c.temperature.within (-256) 1535

/-- What every write to the context keeps. -/
structure CtxKeeps (c c' : Ctx) : Prop where
  ranged : c.ranged → c'.ranged
  status : c.lastStatus ≠ .unwritten → c'.lastStatus ≠ .unwritten

/-- Bus work, and any change of the context that keeps its ranges. -/
structure SweepWork (s t : State) : Prop where
  bus : BusWork s (t.setCtx s.ctx)
  ctx : CtxKeeps s.ctx t.ctx

theorem CtxKeeps.refl (c : Ctx) : CtxKeeps c c := ⟨id, id⟩

theorem CtxKeeps.trans {a b c : Ctx} (h1 : CtxKeeps a b) (h2 : CtxKeeps b c) : CtxKeeps a c :=
  ⟨fun h => h2.ranged (h1.ranged h), fun h => h2.status (h1.status h)⟩

theorem BusInv.setCtx {s : State} (c : Ctx) (h : BusInv s) : BusInv (s.setCtx c) :=
  ⟨h.wire, h.unconfigured, h.stop, h.unresponsive, h.late, h.memory⟩

/-- Bus work, wherever the context stands. -/
theorem BusWork.setCtx {s t : State} (c : Ctx) (h : BusWork s t) : BusWork (s.setCtx c) (t.setCtx c) where
  ctx := rfl
  gpio := h.gpio
  cfg := h.cfg
  client := h.client
  configured := h.configured
  enabled := h.enabled
  divider := h.divider
  faults := h.faults
  refused := h.refused
  unresponsive := h.unresponsive
  trace := h.trace
  keeps hi := BusInv.setCtx c (h.keeps ⟨hi.wire, hi.unconfigured, hi.stop, hi.unresponsive, hi.late, hi.memory⟩)

theorem SweepWork.of_bus {s t : State} (h : BusWork s t) : SweepWork s t :=
  ⟨by rw [← h.ctx]; exact h, by rw [h.ctx]; exact CtxKeeps.refl _⟩

theorem SweepWork.refl (s : State) : SweepWork s s := SweepWork.of_bus (BusWork.refl s)

theorem SweepWork.trans {s t u : State} (h1 : SweepWork s t) (h2 : SweepWork t u) : SweepWork s u :=
  ⟨h1.bus.trans (h2.bus.setCtx s.ctx), h1.ctx.trans h2.ctx⟩

/-- A change of the context alone. -/
theorem SweepWork.setCtx {s : State} {c : Ctx} (h : CtxKeeps s.ctx c) : SweepWork s (s.setCtx c) :=
  ⟨BusWork.refl s, h⟩

theorem decode16_range (v : U16) : -32768 ≤ decode16 v ∧ decode16 v ≤ 32767 := by
  have := v.isLt
  unfold decode16
  split <;> omega

theorem decodeTemp_range (v : U16) : -256 ≤ decodeTemp v ∧ decodeTemp v ≤ 1535 := by
  have := v.isLt
  unfold decodeTemp
  split
  · rw [Int.tdiv_eq_ediv_of_nonneg (by omega)]
    omega
  · by_cases h : v.toNat < 16384
    · rw [show (v.toNat : Int) - 16384 = -(16384 - (v.toNat : Int)) by omega, Int.neg_tdiv,
        Int.tdiv_eq_ediv_of_nonneg (by omega)]
      omega
    · rw [Int.tdiv_eq_ediv_of_nonneg (by omega)]
      omega

/-! ### Pieces between transactions -/

/-- What a piece of a sweep operation leaves when it has run to its end: the bus free and nothing of its own in progress. -/
structure PieceDone (s t : State) : Prop where
  work : SweepWork s t
  activity : t.activity = s.activity
  phase : t.ctl.phase = .free
  unresponsive : t.ctl.unresponsive = false
  configured : t.ctl.configured = true

/-- What one that has not run to its end leaves: the trigger where it was. -/
structure PieceStopped (s t : State) : Prop where
  work : SweepWork s t
  trigger : t.ctx.trigger = s.ctx.trigger

theorem PieceDone.of_txn {s t : State} (h : TxnDone s t) : PieceDone s t :=
  ⟨SweepWork.of_bus h.work, h.activity, h.phase, h.unresponsive, h.configured⟩

theorem PieceDone.trans {s t u : State} (h1 : PieceDone s t) (h2 : PieceDone t u) : PieceDone s u :=
  ⟨h1.work.trans h2.work, h2.activity.trans h1.activity, h2.phase, h2.unresponsive, h2.configured⟩

theorem PieceDone.setCtx {s t : State} {c : Ctx} (h : PieceDone s t) (hc : CtxKeeps t.ctx c) : PieceDone s (t.setCtx c) :=
  ⟨h.work.trans (SweepWork.setCtx hc), h.activity, h.phase, h.unresponsive, h.configured⟩

theorem PieceStopped.of_bus {s t : State} (h : BusWork s t) : PieceStopped s t :=
  ⟨SweepWork.of_bus h, congrArg Ctx.trigger h.ctx⟩

theorem PieceStopped.trans {s t u : State} (h1 : SweepWork s t) (ht : t.ctx.trigger = s.ctx.trigger) (h2 : PieceStopped t u) :
    PieceStopped s u := ⟨h1.trans h2.work, h2.trigger.trans ht⟩

/-- A transaction inside a sweep operation, as a piece of it. -/
theorem innerTxn_piece {ps : List Prim} (h : EndsInStop ps) (s : State) :
    (innerTxn ps s).Holds (fun _ u => PieceDone s u ∧ u.ctx = s.ctx) (fun u => PieceStopped s u ∧ u.activity = s.activity)
      (PieceStopped s) (fun u => PieceStopped s u ∧ Hung u) :=
  (innerTxn_holds h s).imp (fun _ _ h => ⟨PieceDone.of_txn h, h.work.ctx⟩) (fun _ h => ⟨PieceStopped.of_bus h.1, h.2⟩)
    (fun _ h => PieceStopped.of_bus h) (fun _ h => ⟨PieceStopped.of_bus h.1, h.2⟩)

/-- One piece after another: what is left when the second does not run to its end. -/
theorem Flow.Holds.piece {α β : Type} {x : Flow α} {f : α → State → Flow β} {s : State} {D : α → State → Prop}
    {D' : β → State → Prop} {S : State → Prop}
    (hx : x.Holds (fun a u => D a u) (fun u => PieceStopped s u ∧ u.activity = s.activity) (PieceStopped s)
      (fun u => PieceStopped s u ∧ (Hung u ∨ S u)))
    (hd : ∀ a u, D a u → SweepWork s u ∧ u.activity = s.activity ∧ u.ctx.trigger = s.ctx.trigger)
    (hf : ∀ a u, D a u → (f a u).Holds D' (fun w => PieceStopped u w ∧ w.activity = u.activity) (PieceStopped u)
      (fun w => PieceStopped u w ∧ (Hung w ∨ S w))) :
    (x.bind f).Holds D' (fun u => PieceStopped s u ∧ u.activity = s.activity) (PieceStopped s)
      (fun u => PieceStopped s u ∧ (Hung u ∨ S u)) := by
  refine Flow.Holds.bind hx fun a u h => ?_
  obtain ⟨h1, h2, h3⟩ := hd a u h
  exact (hf a u h).imp (fun _ _ h => h) (fun _ h => ⟨PieceStopped.trans h1 h3 h.1, h.2.trans h2⟩)
    (fun _ h => PieceStopped.trans h1 h3 h) (fun _ h => ⟨PieceStopped.trans h1 h3 h.1, h.2⟩)

theorem innerTxn_piece' {ps : List Prim} (h : EndsInStop ps) (s : State) (S : State → Prop) :
    (innerTxn ps s).Holds (fun _ u => PieceDone s u ∧ u.ctx = s.ctx) (fun u => PieceStopped s u ∧ u.activity = s.activity)
      (PieceStopped s) (fun u => PieceStopped s u ∧ (Hung u ∨ S u)) :=
  (innerTxn_piece h s).imp (fun _ _ h => h) (fun _ h => h) (fun _ h => h) (fun _ h => ⟨h.1, .inl h.2⟩)

theorem PieceDone.facts {s u : State} (h : PieceDone s u ∧ u.ctx = s.ctx) :
    SweepWork s u ∧ u.activity = s.activity ∧ u.ctx.trigger = s.ctx.trigger :=
  ⟨h.1.work, h.1.activity, by rw [h.2]⟩

/-! ### The operations -/

theorem afterSweepPoll_holds (st : Option Byte) (s : State) (S : State → Prop) :
    (afterSweepPoll st s).Holds (fun _ u => PieceDone s u ∧ u.ctx.trigger = .dftComplete ∧ u.ctx.lastStatus = s.ctx.lastStatus)
      (fun u => PieceStopped s u ∧ u.activity = s.activity) (PieceStopped s) (fun u => PieceStopped s u ∧ (Hung u ∨ S u)) := by
  unfold afterSweepPoll
  refine Flow.Holds.piece (D := fun _ u => PieceDone s u ∧ u.ctx = s.ctx) (innerTxn_piece' (readBlockSeq_ends ..) s S)
    (fun _ _ h => PieceDone.facts h) fun tr s1 h1 => ?_
  refine Flow.Holds.piece (D := fun _ u => PieceDone s1 u ∧ u.ctx = s1.ctx) (innerTxn_piece' (readBlockSeq_ends ..) s1 S)
    (fun _ _ h => PieceDone.facts h) fun ti s2 h2 => ?_
  have hk : CtxKeeps s2.ctx { s2.ctx with
      real := .val (decode16 (word16 tr.bytes)), imag := .val (decode16 (word16 ti.bytes)) } :=
    ⟨fun h => ⟨decode16_range _, decode16_range _, h.2.2⟩, id⟩
  refine Flow.Holds.bind (D := fun _ u => PieceDone s2 u ∧ u.ctx.lastStatus = s2.ctx.lastStatus)
    ((innerTxn_piece' (writeByteSeq_ends ..) (s2.setCtx { s2.ctx with
      real := .val (decode16 (word16 tr.bytes)), imag := .val (decode16 (word16 ti.bytes)) }) S).imp ?_ ?_ ?_ ?_) ?_
  · intro _ u h
    exact ⟨⟨(SweepWork.setCtx hk).trans h.1.work, h.1.activity, h.1.phase, h.1.unresponsive, h.1.configured⟩, by rw [h.2]; rfl⟩
  · exact fun _ h => ⟨PieceStopped.trans (SweepWork.setCtx hk) rfl h.1, h.2⟩
  · exact fun _ h => PieceStopped.trans (SweepWork.setCtx hk) rfl h
  · exact fun _ h => ⟨PieceStopped.trans (SweepWork.setCtx hk) rfl h.1, h.2⟩
  · intro tw s3 h3
    refine ⟨?_, rfl, ?_⟩
    · exact (h1.1.trans (h2.1.trans h3.1)).setCtx ⟨id, id⟩
    · exact h3.2.trans (by rw [h2.2, h1.2])

theorem afterTemperaturePoll_holds (st : Option Byte) (s : State) (S : State → Prop) :
    (afterTemperaturePoll st s).Holds
      (fun _ u => PieceDone s u ∧ u.ctx.trigger = s.ctx.trigger ∧ u.ctx.lastStatus = s.ctx.lastStatus)
      (fun u => PieceStopped s u ∧ u.activity = s.activity) (PieceStopped s) (fun u => PieceStopped s u ∧ (Hung u ∨ S u)) := by
  unfold afterTemperaturePoll
  refine Flow.Holds.piece (D := fun _ u => PieceDone s u ∧ u.ctx = s.ctx) (innerTxn_piece' (readBlockSeq_ends ..) s S)
    (fun _ _ h => PieceDone.facts h) fun t s1 h1 => ?_
  refine ⟨h1.1.setCtx ⟨fun h => ⟨h.1, h.2.1, decodeTemp_range _⟩, id⟩, ?_, ?_⟩ <;> simp [h1.2]

/-- The trigger after a poll that ran to its end (R182, R188). -/
def PollJob.triggerAfter : PollJob → Trigger → Trigger
  | .sweep, _ => .dftComplete
  | .temperature, t => t

/-- What a poll that goes on leaves in progress (R177). -/
def PollsOn (job : PollJob) (k : Nat) (s t : State) : Prop :=
  (∃ st, t.activity = .polling job (k + 1) st) ∧ t.ctl.phase = .free ∧ t.ctl.configured = true ∧
    pollsSpent s.cfg (k + 1) = false ∧ t.ctx.lastStatus ≠ .unwritten

/-- Everything one turn of a poll, and what follows it, can do (R177). -/
theorem pollTurn_holds (job : PollJob) (k : Nat) (st : Option Byte) (s : State) :
    (pollTurn job k st s).Holds
      (fun _ u => PieceDone s u ∧ u.ctx.trigger = job.triggerAfter s.ctx.trigger ∧ u.ctx.lastStatus ≠ .unwritten)
      (fun u => PieceStopped s u ∧ (s.activity = .idle → u.activity = .idle)) (PieceStopped s)
      (fun u => PieceStopped s u ∧ (Hung u ∨ PollsOn job k s u)) := by
  unfold pollTurn
  refine Flow.Holds.bind (D := fun _ u => PieceDone s u ∧ u.ctx = s.ctx)
    ((innerTxn_piece' (readByteSeq_ends ..) s _).imp (fun _ _ h => h) (fun _ h => ⟨h.1, fun hi => h.2.trans hi⟩)
      (fun _ h => h) (fun _ h => h)) ?_
  intro t s1 ⟨h1, hc⟩
  have hk : CtxKeeps s1.ctx { s1.ctx with lastStatus := .val (rxByte t.bytes 0) } := ⟨id, fun _ => by simp⟩
  have h2 := h1.setCtx hk
  simp only
  split
  · cases job with
    | sweep =>
      refine (afterSweepPoll_holds (st.or t.st) _ (PollsOn .sweep k s)).imp ?_ ?_ ?_ ?_
      · intro _ u ⟨h3, h4, h5⟩
        exact ⟨h2.trans h3, h4, by rw [h5]; simp⟩
      · exact fun u h => ⟨PieceStopped.trans h2.work (by simp [hc]) h.1, fun hi => h.2.trans (h2.activity.trans hi)⟩
      · exact fun u h => PieceStopped.trans h2.work (by simp [hc]) h
      · exact fun u h => ⟨PieceStopped.trans h2.work (by simp [hc]) h.1, h.2⟩
    | temperature =>
      refine (afterTemperaturePoll_holds (st.or t.st) _ (PollsOn .temperature k s)).imp ?_ ?_ ?_ ?_
      · intro _ u ⟨h3, h4, h5⟩
        exact ⟨h2.trans h3, by rw [h4]; simp [hc, PollJob.triggerAfter], by rw [h5]; simp⟩
      · exact fun u h => ⟨PieceStopped.trans h2.work (by simp [hc]) h.1, fun hi => h.2.trans (h2.activity.trans hi)⟩
      · exact fun u h => PieceStopped.trans h2.work (by simp [hc]) h
      · exact fun u h => ⟨PieceStopped.trans h2.work (by simp [hc]) h.1, h.2⟩
  · split
    · next hsp =>
      refine ⟨⟨h2.work.trans (SweepWork.of_bus ?_), by simp [hc]⟩, fun hi => h2.activity.trans hi⟩
      have hb : s1.cfg.pollBudget ≠ none := by
        intro hn
        simp [pollsSpent, hn] at hsp
      exact
        { BusWork.refl _ with
          unresponsive := fun _ => rfl
          keeps := fun h => ⟨h.wire, fun hf => absurd (h1.configured.symm.trans hf) (by decide), h.stop, fun _ => hb, fun _ => rfl,
            h.memory⟩ }
    · next hsp =>
      have hcfg : s1.cfg = s.cfg := h1.work.bus.cfg
      refine ⟨⟨h2.work.trans (SweepWork.of_bus ?_), by simp [hc]⟩, .inr ⟨⟨_, rfl⟩, h1.phase, h1.configured, ?_, by simp⟩⟩
      · exact { BusWork.refl _ with keeps := fun h => ⟨h.wire, h.unconfigured, h.stop, h.unresponsive, h.late, h.memory⟩ }
      · simpa [hcfg] using hsp

theorem programmed_keeps (cfg : Params) (f d : U32) (n : U16) (c : Ctx) : CtxKeeps c (programmed cfg f d n c) := ⟨id, id⟩

/-- Everything CONFIGURE_SWEEP can do (R178). -/
theorem configureSweepBody_holds (f d : U32) (n : U16) (s : State) :
    (configureSweepBody f d n s).Holds (fun _ u => PieceDone s u ∧ u.ctx.trigger = .idle)
      (fun u => PieceStopped s u ∧ u.activity = s.activity) (PieceStopped s) (fun u => PieceStopped s u ∧ (Hung u ∨ False)) := by
  unfold configureSweepBody
  have hk := programmed_keeps s.cfg f d n s.ctx
  refine Flow.Holds.bind (D := fun _ u => PieceDone s u ∧ u.ctx.trigger = s.ctx.trigger)
    ((innerTxn_piece' (writeBlockSeq_ends ..) (s.setCtx (programmed s.cfg f d n s.ctx)) (fun _ => False)).imp ?_ ?_ ?_ ?_) ?_
  · intro _ u h
    exact ⟨⟨(SweepWork.setCtx hk).trans h.1.work, h.1.activity, h.1.phase, h.1.unresponsive, h.1.configured⟩, by rw [h.2]; rfl⟩
  · exact fun _ h => ⟨PieceStopped.trans (SweepWork.setCtx hk) rfl h.1, h.2⟩
  · exact fun _ h => PieceStopped.trans (SweepWork.setCtx hk) rfl h
  · exact fun _ h => ⟨PieceStopped.trans (SweepWork.setCtx hk) rfl h.1, h.2⟩
  · intro t1 s1 h1
    have step : ∀ (x : Flow OpResult), x.Holds (fun _ u => PieceDone s1 u ∧ u.ctx.trigger = .idle)
        (fun u => PieceStopped s1 u ∧ u.activity = s1.activity) (PieceStopped s1) (fun u => PieceStopped s1 u ∧ (Hung u ∨ False)) →
        x.Holds (fun _ u => PieceDone s u ∧ u.ctx.trigger = .idle) (fun u => PieceStopped s u ∧ u.activity = s.activity)
          (PieceStopped s) (fun u => PieceStopped s u ∧ (Hung u ∨ False)) := fun x hx =>
      hx.imp (fun _ _ h => ⟨h1.1.trans h.1, h.2⟩)
        (fun _ h => ⟨PieceStopped.trans h1.1.work h1.2 h.1, h.2.trans h1.1.activity⟩)
        (fun _ h => PieceStopped.trans h1.1.work h1.2 h) (fun _ h => ⟨PieceStopped.trans h1.1.work h1.2 h.1, h.2⟩)
    refine step _ (Flow.Holds.piece (D := fun _ u => PieceDone s1 u ∧ u.ctx = s1.ctx) (innerTxn_piece' (writeBlockSeq_ends ..) s1 _)
      (fun _ _ h => PieceDone.facts h) fun t2 s2 h2 => ?_)
    refine Flow.Holds.piece (D := fun _ u => PieceDone s2 u ∧ u.ctx = s2.ctx) (innerTxn_piece' (writeBlockSeq_ends ..) s2 _)
      (fun _ _ h => PieceDone.facts h) fun t3 s3 h3 => ?_
    refine Flow.Holds.piece (D := fun _ u => PieceDone s3 u ∧ u.ctx = s3.ctx) (innerTxn_piece' (writeBlockSeq_ends ..) s3 _)
      (fun _ _ h => PieceDone.facts h) fun t4 s4 h4 => ?_
    refine Flow.Holds.piece (D := fun _ u => PieceDone s4 u ∧ u.ctx = s4.ctx) (innerTxn_piece' (writeByteSeq_ends ..) s4 _)
      (fun _ _ h => PieceDone.facts h) fun t5 s5 h5 => ?_
    exact ⟨(h2.1.trans (h3.1.trans (h4.1.trans h5.1))).setCtx ⟨id, id⟩, rfl⟩

/-- Everything a step that writes one command can do (R184 to R186). -/
theorem stepCommand_holds (c : Byte) (t : Trigger) (s : State) :
    (stepCommand c t s).Holds (fun _ u => PieceDone s u ∧ u.ctx.trigger = t ∧ u.ctx.lastStatus = s.ctx.lastStatus)
      (fun u => PieceStopped s u ∧ u.activity = s.activity) (PieceStopped s) (fun u => PieceStopped s u ∧ (Hung u ∨ False)) := by
  unfold stepCommand
  refine Flow.Holds.piece (D := fun _ u => PieceDone s u ∧ u.ctx = s.ctx) (innerTxn_piece' (writeByteSeq_ends ..) s _)
    (fun _ _ h => PieceDone.facts h) fun tw s1 h1 => ?_
  exact ⟨h1.1.setCtx ⟨id, id⟩, rfl, by simp [h1.2]⟩

/-- Everything the StartMeasure step can do (R182). -/
theorem stepStartMeasure_holds (s : State) :
    (stepStartMeasure s).Holds (fun _ u => PieceDone s u ∧ u.ctx.trigger = .dftComplete ∧ u.ctx.lastStatus ≠ .unwritten)
      (fun u => PieceStopped s u ∧ (s.activity = .idle → u.activity = .idle)) (PieceStopped s)
      (fun u => PieceStopped s u ∧ (Hung u ∨ PollsOn .sweep 0 s u)) := by
  unfold stepStartMeasure
  refine Flow.Holds.bind (D := fun _ u => PieceDone s u ∧ u.ctx = s.ctx)
    ((innerTxn_piece' (writeByteSeq_ends ..) s _).imp (fun _ _ h => h) (fun _ h => ⟨h.1, fun hi => h.2.trans hi⟩)
      (fun _ h => h) (fun _ h => h)) ?_
  intro t1 s1 ⟨h1, hc1⟩
  refine Flow.Holds.bind (D := fun _ u => PieceDone s u ∧ u.ctx = s.ctx)
    ((innerTxn_piece' (writeByteSeq_ends ..) s1 (PollsOn .sweep 0 s)).imp
      (fun _ _ h => ⟨h1.trans h.1, h.2.trans hc1⟩)
      (fun _ h => ⟨PieceStopped.trans h1.work (by rw [hc1]) h.1, fun hi => h.2.trans (h1.activity.trans hi)⟩)
      (fun _ h => PieceStopped.trans h1.work (by rw [hc1]) h)
      (fun _ h => ⟨PieceStopped.trans h1.work (by rw [hc1]) h.1, h.2⟩)) ?_
  intro t2 s2 ⟨h2, hc2⟩
  refine (pollTurn_holds .sweep 0 (t1.st.or t2.st) s2).imp ?_ ?_ ?_ ?_
  · exact fun _ u h => ⟨h2.trans h.1, h.2.1, h.2.2⟩
  · exact fun u h => ⟨PieceStopped.trans h2.work (by rw [hc2]) h.1, fun hi => h.2 (h2.activity.trans hi)⟩
  · exact fun u h => PieceStopped.trans h2.work (by rw [hc2]) h
  · rintro u ⟨h3, h4⟩
    refine ⟨PieceStopped.trans h2.work (by rw [hc2]) h3, h4.imp_right ?_⟩
    rintro ⟨ha, hb, hc, hd, he⟩
    exact ⟨ha, hb, hc, by rw [← h2.work.bus.cfg]; exact hd, he⟩

/-- Everything MEASURE_TEMPERATURE can do (R188). -/
theorem measureTemperatureBody_holds (s : State) :
    (measureTemperatureBody s).Holds
      (fun _ u => PieceDone s u ∧ u.ctx.trigger = s.ctx.trigger ∧ u.ctx.lastStatus ≠ .unwritten)
      (fun u => PieceStopped s u ∧ (s.activity = .idle → u.activity = .idle)) (PieceStopped s)
      (fun u => PieceStopped s u ∧ (Hung u ∨ PollsOn .temperature 0 s u)) := by
  unfold measureTemperatureBody
  refine Flow.Holds.bind (D := fun _ u => PieceDone s u ∧ u.ctx = s.ctx)
    ((innerTxn_piece' (writeByteSeq_ends ..) s _).imp (fun _ _ h => h) (fun _ h => ⟨h.1, fun hi => h.2.trans hi⟩)
      (fun _ h => h) (fun _ h => h)) ?_
  intro t1 s1 ⟨h1, hc1⟩
  refine (pollTurn_holds .temperature 0 t1.st s1).imp ?_ ?_ ?_ ?_
  · exact fun _ u h => ⟨h1.trans h.1, h.2.1.trans (by rw [hc1]; rfl), h.2.2⟩
  · exact fun u h => ⟨PieceStopped.trans h1.work (by rw [hc1]) h.1, fun hi => h.2 (h1.activity.trans hi)⟩
  · exact fun u h => PieceStopped.trans h1.work (by rw [hc1]) h
  · rintro u ⟨h3, h4⟩
    refine ⟨PieceStopped.trans h1.work (by rw [hc1]) h3, h4.imp_right ?_⟩
    rintro ⟨ha, hb, hc, hd, he⟩
    exact ⟨ha, hb, hc, by rw [← h1.work.bus.cfg]; exact hd, he⟩

end Sys2Proof.Machine
end

