-- ==== Sys2Proof/Laws/Frames.lean ====
section
/-! SUPPORT. Frames of the sweep operations, said once for any relation between states: an operation stays within the relation if
its transactions and its writes to the context do. -/

namespace Sys2Proof.Machine

/-- A relation that an operation's changes to the bus registers, the operation in progress and the client's record stay within. -/
structure FrameRel (R : State → State → Prop) : Prop where
  refl : ∀ s, R s s
  trans : ∀ {s t u}, R s t → R t u → R s u
  cfg : ∀ {s t}, R s t → t.cfg = s.cfg
  setCtl : ∀ s c, R s (s.setCtl c)
  setActivity : ∀ s a, R s (s.setActivity a)
  setLast : ∀ s o, R s (s.setLast o)

/-- However the piece ends, its state is related to `s`. -/
def Flow.Within {α : Type} (x : Flow α) (R : State → State → Prop) (s : State) : Prop :=
  x.Holds (fun _ u => R s u) (R s) (R s) (R s)

theorem Flow.Within.bind {α β : Type} {x : Flow α} {f : α → State → Flow β} {R : State → State → Prop} {s : State}
    (hR : FrameRel R) (hx : x.Within R s) (hf : ∀ a u, R s u → (f a u).Within R u) : (x.bind f).Within R s := by
  refine Flow.Holds.bind (D := fun _ u => R s u) hx fun a u h => ?_
  exact Flow.Holds.imp (hf a u h) (fun _ _ h' => hR.trans h h') (fun _ h' => hR.trans h h') (fun _ h' => hR.trans h h')
    (fun _ h' => hR.trans h h')

theorem Flow.Within.after {α : Type} {x : Flow α} {R : State → State → Prop} {s u : State} (hR : FrameRel R) (h : R s u)
    (hx : x.Within R u) : x.Within R s :=
  Flow.Holds.imp hx (fun _ _ h' => hR.trans h h') (fun _ h' => hR.trans h h') (fun _ h' => hR.trans h h')
    (fun _ h' => hR.trans h h')

/-- The answer of an operation whose body stays within the relation. -/
theorem FrameRel.finish {R : State → State → Prop} {s t : State} {x : Flow OpResult} (hR : FrameRel R) (hx : x.Within R s)
    (h : finish x = .next t) : R s t := by
  have hc : ∀ (u : State) (o : OpOutcome), R u (u.conclude o) := fun u o => hR.trans (hR.setActivity u .idle) (hR.setLast _ _)
  cases x with
  | done r u => cases h; exact hR.trans hx (hc _ _)
  | quit u => cases h; exact hR.trans hx (hc _ _)
  | fault r u => cases h; exact hR.trans hx (hR.trans (hR.setCtl _ _) (hc _ _))
  | spin u => cases h; exact hR.trans hx (hR.setLast _ _)

/-! ### The operations -/

/-- WRITE_CMD stays within the relation, under these parameters. -/
def CmdWithin (R : State → State → Prop) (cfg : Params) : Prop := ∀ c u, u.cfg = cfg → (writeCmd c u).Within R u

/-- Reads of the device stay within the relation, under these parameters. -/
def ReadsWithin (R : State → State → Prop) (cfg : Params) : Prop :=
  (∀ r u, u.cfg = cfg → (readReg16 r u).Within R u) ∧
  ∀ u : State, u.cfg = cfg → (innerTxn (readByteSeq u.cfg (regBase u.cfg .status)) u).Within R u

/-- The writes to the context of a poll and of what follows it stay within the relation (R177, R182, R188). -/
def PollJob.writesWithin (R : State → State → Prop) : PollJob → Prop
  | .sweep => (∀ (u : State) b, R u (u.setCtx { u.ctx with lastStatus := b })) ∧
      (∀ (u : State) r i, R u (u.setCtx { u.ctx with real := r, imag := i })) ∧ ∀ (u : State), R u (u.setTrigger .dftComplete)
  | .temperature => (∀ (u : State) b, R u (u.setCtx { u.ctx with lastStatus := b })) ∧
      ∀ (u : State) t, R u (u.setCtx { u.ctx with temperature := t })

/-- One turn of a poll and what follows it. -/
theorem pollTurn_within {R : State → State → Prop} {job : PollJob} {k : Nat} {st : Option Byte} {s : State} (hR : FrameRel R)
    (hr : ReadsWithin R s.cfg) (hc : job = .sweep → CmdWithin R s.cfg) (hw : job.writesWithin R) :
    (pollTurn job k st s).Within R s := by
  have hls : ∀ (u : State) b, R u (u.setCtx { u.ctx with lastStatus := b }) := by cases job <;> exact hw.1
  unfold pollTurn
  refine Flow.Within.bind hR (hr.2 s rfl) fun t s1 h1 => ?_
  have hcfg := hR.cfg h1
  simp only
  split
  · refine Flow.Within.after hR (hls s1 (.val (rxByte t.bytes 0))) ?_
    cases job with
    | sweep =>
      unfold afterPoll afterSweepPoll
      refine Flow.Within.bind hR (hr.1 _ _ hcfg) fun tr s2 h2 => ?_
      have hcfg2 := (hR.cfg h2).trans hcfg
      refine Flow.Within.bind hR (hr.1 _ _ hcfg2) fun ti s3 h3 => ?_
      have hcfg3 := (hR.cfg h3).trans hcfg2
      refine Flow.Within.bind hR (Flow.Within.after hR (hw.2.1 s3 _ _) (hc rfl _ _ hcfg3)) fun tw s4 h4 => ?_
      exact hw.2.2 s4
    | temperature =>
      unfold afterPoll afterTemperaturePoll
      refine Flow.Within.bind hR (hr.1 _ _ hcfg) fun t2 s2 h2 => ?_
      exact hw.2 s2 _
  · split
    · exact hR.trans (hls s1 _) (hR.setCtl _ _)
    · exact hR.trans (hls s1 _) (hR.setActivity _ _)

/-- PROCESS_STEP (R180). -/
theorem processStepBody_within {R : State → State → Prop} {choice : Byte} {s : State} (hR : FrameRel R) (hr : ReadsWithin R s.cfg)
    (hc : CmdWithin R s.cfg) (hw : PollJob.sweep.writesWithin R) (ht : ∀ (u : State) t, R u (u.setTrigger t)) :
    (processStepBody choice s).Within R s := by
  have cmd : ∀ c t, (stepCommand c t s).Within R s := fun c t => by
    unfold stepCommand
    exact Flow.Within.bind hR (hc _ _ rfl) fun _ u _ => ht u _
  unfold processStepBody
  split
  · exact hR.refl s
  · unfold stepStartMeasure
    refine Flow.Within.bind hR (hc _ _ rfl) fun t1 s1 h1 => ?_
    refine Flow.Within.bind hR (hc _ _ (hR.cfg h1)) fun t2 s2 h2 => ?_
    have hcfg : s2.cfg = s.cfg := (hR.cfg h2).trans (hR.cfg h1)
    exact pollTurn_within hR (hcfg ▸ hr) (fun _ => hcfg ▸ hc) hw
  · unfold stepDftComplete readReg
    split
    · exact hR.refl s
    · exact ht s _
  · exact cmd _ _
  · exact cmd _ _
  · exact cmd _ _

/-- MEASURE_TEMPERATURE (R188). -/
theorem measureTemperatureBody_within {R : State → State → Prop} {s : State} (hR : FrameRel R) (hr : ReadsWithin R s.cfg)
    (hc : CmdWithin R s.cfg) (hw : PollJob.temperature.writesWithin R) : (measureTemperatureBody s).Within R s := by
  unfold measureTemperatureBody
  refine Flow.Within.bind hR (hc _ _ rfl) fun t1 s1 h1 => ?_
  exact pollTurn_within hR (hR.cfg h1 ▸ hr) (by simp) hw

/-- CONFIGURE_SWEEP (R178). -/
theorem configureSweepBody_within {R : State → State → Prop} {f d : U32} {n : U16} {s : State} (hR : FrameRel R)
    (hc : CmdWithin R s.cfg)
    (hw : ∀ r bs (u : State), u.cfg = s.cfg → r = .start ∨ r = .delta ∨ r = .nInc ∨ r = .settle → (writeReg r bs u).Within R u)
    (hp : R s (s.setCtx (programmed s.cfg f d n s.ctx))) (ht : ∀ (u : State), R u (u.setTrigger .idle)) :
    (configureSweepBody f d n s).Within R s := by
  unfold configureSweepBody
  refine Flow.Within.after hR hp ?_
  refine Flow.Within.bind hR (hw _ _ _ rfl (.inl rfl)) fun t1 s1 h1 => ?_
  have c1 : s1.cfg = s.cfg := (hR.cfg h1).trans (hR.cfg hp)
  refine Flow.Within.bind hR (hw _ _ _ c1 (.inr (.inl rfl))) fun t2 s2 h2 => ?_
  have c2 := (hR.cfg h2).trans c1
  refine Flow.Within.bind hR (hw _ _ _ c2 (.inr (.inr (.inl rfl)))) fun t3 s3 h3 => ?_
  have c3 := (hR.cfg h3).trans c2
  refine Flow.Within.bind hR (hw _ _ _ c3 (.inr (.inr (.inr rfl)))) fun t4 s4 h4 => ?_
  have c4 := (hR.cfg h4).trans c3
  exact Flow.Within.bind hR (hc _ _ c4) fun t5 s5 h5 => ht s5

end Sys2Proof.Machine
end

