-- ==== Sys2Proof/Laws/PerInstr.lean ====
section
/-! SUPPORT. Statements about every instruction as syntax, one lemma per constructor. -/

namespace Sys2Proof.Laws.EncodedLength

/-- The payload bytes beyond the fixed length of R72. -/
def payload : Instr → Nat
  | .writeBlock _ n _ => n.toNat
  | _ => 0

/-- The length of a well-formed command is the length column of 30_encoding.md R72, and byte 0 is its opcode. -/
def Statement (i : Instr) : Prop :=
  i.wellFormed = true → (encode i).length = i.opcode.fixedLength + payload i ∧ (encode i).head? = some i.opcode.byte

theorem configure (speed : Byte) : Statement (.configure speed) := fun _ => ⟨rfl, rfl⟩
theorem start : Statement .start := fun _ => ⟨rfl, rfl⟩
theorem sendAddr (a : Byte) : Statement (.sendAddr a) := fun _ => ⟨rfl, rfl⟩
theorem sendByte (b : Byte) : Statement (.sendByte b) := fun _ => ⟨rfl, rfl⟩
theorem recvAck : Statement .recvAck := fun _ => ⟨rfl, rfl⟩
theorem recvNack : Statement .recvNack := fun _ => ⟨rfl, rfl⟩
theorem stop : Statement .stop := fun _ => ⟨rfl, rfl⟩
theorem setPointer (reg : Byte) : Statement (.setPointer reg) := fun _ => ⟨rfl, rfl⟩
theorem writeByte (reg v : Byte) : Statement (.writeByte reg v) := fun _ => ⟨rfl, rfl⟩
theorem writeBlock (reg n : Byte) (bs : List Byte) : Statement (.writeBlock reg n bs) := by
  intro h
  have hl : bs.length = n.toNat := by simpa [Instr.wellFormed] using h
  refine ⟨?_, rfl⟩
  simp [encode, encodeOperands, Instr.opcode, Opcode.fixedLength, payload, hl]
  omega
theorem readByte (reg : Byte) : Statement (.readByte reg) := fun _ => ⟨rfl, rfl⟩
theorem readBlock (reg n : Byte) : Statement (.readBlock reg n) := fun _ => ⟨rfl, rfl⟩
theorem configureSweep (startHz deltaHz : U32) (nInc : U16) : Statement (.configureSweep startHz deltaHz nInc) :=
  fun _ => ⟨rfl, rfl⟩
theorem beginSweep : Statement .beginSweep := fun _ => ⟨rfl, rfl⟩
theorem processStep (choice : Byte) : Statement (.processStep choice) := fun _ => ⟨rfl, rfl⟩
theorem measureTemperature : Statement .measureTemperature := fun _ => ⟨rfl, rfl⟩
theorem getReal : Statement .getReal := fun _ => ⟨rfl, rfl⟩
theorem getImag : Statement .getImag := fun _ => ⟨rfl, rfl⟩
theorem getTemperature : Statement .getTemperature := fun _ => ⟨rfl, rfl⟩
theorem setRange (level : Byte) : Statement (.setRange level) := fun _ => ⟨rfl, rfl⟩

end Sys2Proof.Laws.EncodedLength
end

