-- ==== Sys2Proof/Laws/Step.lean ====
section
/-! SUPPORT. What a command and a step can do, said once: which body a command runs, the four ways its answer comes about, the
kinds of step, the environment's turn, and everything the body of a command can do to the bus, the context and the operation in progress. -/

namespace Sys2Proof.Machine

/-- The pseudocode of each operation, after the checks every command makes first. -/
def bodyOf : Instr → State → Flow OpResult
  | .configure speed => configureBody speed
  | .start => runPrim .start
  | .sendAddr a => runPrim (.sendAddr a)
  | .sendByte a => runPrim (.sendByte a)
  | .recvAck => runPrim .recvAck
  | .recvNack => runPrim .recvNack
  | .stop => runPrim .stop
  | .setPointer reg => fun s => transactionBody (setPointerSeq s.cfg reg) (fun _ => .unit) s
  | .writeByte reg v => fun s => transactionBody (writeByteSeq s.cfg reg v) (fun _ => .unit) s
  | .writeBlock reg n bs => fun s => transactionBody (writeBlockSeq s.cfg reg n bs) (fun _ => .unit) s
  | .readByte reg => fun s => transactionBody (readByteSeq s.cfg reg) (fun t => .value (rxByte t.bytes 0).toNat) s
  | .readBlock reg n => fun s => transactionBody (readBlockSeq s.cfg reg n) (fun t => .value (assemble s.cfg n t.bytes)) s
  | .configureSweep f d n => configureSweepBody f d n
  | .beginSweep => beginSweepBody
  | .processStep c => processStepBody c
  | .measureTemperature => measureTemperatureBody
  | .getReal => fun s => accessor s.ctx.real s
  | .getImag => fun s => accessor s.ctx.imag s
  | .getTemperature => fun s => accessor s.ctx.temperature s
  | .setRange l => setRangeBody l

/-- Every command is `command` over its body. -/
theorem exec_body (i : Instr) (s : State) : exec i s = command i s (bodyOf i) := by
  cases i <;> rfl

/-- A command that answers a next state was refused, or ran its body to an end (60_exceptions.md R220, R230). -/
theorem exec_next {i : Instr} {s t : State} (h : exec i s = .next t) :
    s.unmarked ∧ ((∃ r, t = refuse r s) ∨
    (s.activity = .idle ∧ operandsAccepted s.cfg i = true ∧ finish (bodyOf i s) = .next t)) := by
  rw [exec_body] at h
  unfold command at h
  split at h
  · cases h
  split at h
  · cases h
  split at h
  · cases h; exact ⟨by simp_all [State.unmarked], .inl ⟨_, rfl⟩⟩
  split at h
  · cases h; exact ⟨by simp_all [State.unmarked], .inl ⟨_, rfl⟩⟩
  · exact ⟨by simp_all [State.unmarked], .inr (by simp_all)⟩

/-- The four ways an answer comes about. -/
theorem finish_next {x : Flow OpResult} {t : State} (h : finish x = .next t) :
    (∃ r s, x = .done r s ∧ t = s.conclude (.completed r)) ∨
    (∃ s, x = .quit s ∧ t = s.conclude (.completed .unresponsive)) ∨
    (∃ r s, x = .fault r s ∧ t = raiseFault r s) ∨
    (∃ s, x = .spin s ∧ t = s.setLast none) := by
  cases x <;> cases h <;> simp

/-- What every body but those of CONFIGURE and SET_RANGE satisfies: its work, the triggers it can end in, and what it can leave in
progress. -/
def BodyFacts (s : State) (x : Flow OpResult) (T : Trigger → Prop) (S : State → Prop) : Prop :=
  x.Holds
    (fun _ u => SweepWork s u ∧ u.activity = s.activity ∧ T u.ctx.trigger ∧
      (u.ctx.trigger = .dftComplete → s.ctx.trigger ≠ .dftComplete → u.ctx.lastStatus ≠ .unwritten))
    (fun u => PieceStopped s u ∧ (s.activity = .idle → u.activity = .idle)) (PieceStopped s)
    (fun u => PieceStopped s u ∧ (Hung u ∨ S u))

/-- A client's register transaction (41_register_access.md R140). -/
theorem transactionBody_facts {ps : List Prim} {v : Txn → OpResult} {s : State} (h : EndsInStop ps) :
    BodyFacts s (transactionBody ps v s) (fun t => t = s.ctx.trigger) (fun _ => False) := by
  unfold transactionBody
  refine Flow.Holds.bind (D := fun t u => BusWork s u ∧ u.activity = s.activity ∧ (t.lost = false → TxnDone s u))
    ((transaction_holds h s).imp (fun _ _ h => h) (fun _ h => h.elim)
      (fun _ h => PieceStopped.of_bus h) (fun _ h => ⟨PieceStopped.of_bus h.1, .inl h.2⟩)) ?_
  intro t u ⟨h1, h2, h3⟩
  have hc := h1.ctx
  refine ⟨SweepWork.of_bus h1, h2, by rw [hc], fun h4 h5 => absurd (hc ▸ h4) h5⟩

/-- A bus primitive. -/
theorem prim_facts (p : Prim) (s : State) : BodyFacts s (runPrim p s) (fun t => t = s.ctx.trigger) (fun _ => False) := by
  refine (runPrim_holds p s).imp ?_ (fun _ h => h.elim)
      (fun _ h => PieceStopped.of_bus h) (fun _ h => ⟨PieceStopped.of_bus h.1, .inl h.2⟩)
  intro t u ⟨h1, h2, h3⟩
  have hc := h1.ctx
  refine ⟨SweepWork.of_bus h1, h2, by rw [hc], fun h4 h5 => absurd (hc ▸ h4) h5⟩

/-- The trigger is as before, or moves by a row of R192. -/
def rowOf (s : State) (i : Instr) (t : Trigger) : Prop := t = s.ctx.trigger ∨ TriggerRow s.cfg s.ctx i t

/-- The operation goes on polling; a sweep poll only in `StartMeasure`. -/
def spinOf (s u : State) : Prop := ∃ job, PollsOn job 0 s u ∧ (job = .sweep → s.ctx.trigger = .startMeasure)

/-- An accessor (R189 to R191). -/
theorem accessor_facts (r : Reg Int) (s : State) (T : Trigger → Prop) (hT : T s.ctx.trigger) (S : State → Prop) :
    BodyFacts s (accessor r s) T S := by
  unfold accessor readReg
  split
  · exact PieceStopped.of_bus (BusWork.refl s)
  · exact ⟨SweepWork.refl s, rfl, hT, fun h1 h2 => absurd h1 h2⟩

/-- Everything a body can do, but for CONFIGURE and SET_RANGE. -/
theorem body_facts (i : Instr) (s : State) (ho : operandsAccepted s.cfg i = true) (hc : ∀ sp, i ≠ .configure sp)
    (hr : ∀ sp, i ≠ .setRange sp) : BodyFacts s (bodyOf i s) (rowOf s i) (spinOf s) := by
  have lift : ∀ x, BodyFacts s x (fun t => t = s.ctx.trigger) (fun _ => False) → BodyFacts s x (rowOf s i) (spinOf s) :=
    fun x hx => Flow.Holds.imp hx (fun _ _ h => ⟨h.1, h.2.1, .inl h.2.2.1, h.2.2.2⟩) (fun _ h => h) (fun _ h => h)
      (fun _ h => ⟨h.1, .inl (h.2.resolve_right id)⟩)
  cases i with
  | configure sp => exact absurd rfl (hc sp)
  | setRange sp => exact absurd rfl (hr sp)
  | start => exact lift _ (prim_facts ..)
  | sendAddr => exact lift _ (prim_facts ..)
  | sendByte => exact lift _ (prim_facts ..)
  | recvAck => exact lift _ (prim_facts ..)
  | recvNack => exact lift _ (prim_facts ..)
  | stop => exact lift _ (prim_facts ..)
  | setPointer => exact lift _ (transactionBody_facts (setPointerSeq_ends ..))
  | writeByte => exact lift _ (transactionBody_facts (writeByteSeq_ends ..))
  | writeBlock => exact lift _ (transactionBody_facts (writeBlockSeq_ends ..))
  | readByte => exact lift _ (transactionBody_facts (readByteSeq_ends ..))
  | readBlock => exact lift _ (transactionBody_facts (readBlockSeq_ends ..))
  | configureSweep f d n =>
    refine (configureSweepBody_holds f d n s).imp ?_ (fun _ h => ⟨h.1, fun hi => h.2.trans hi⟩) (fun _ h => h)
        (fun _ h => ⟨h.1, .inl (h.2.resolve_right id)⟩)
    intro r u ⟨h1, h2⟩
    exact ⟨h1.work, h1.activity, .inr (by rw [h2]; exact .programmed f d n), by rw [h2]; simp⟩
  | beginSweep =>
    show BodyFacts s (beginSweepBody s) _ _
    unfold beginSweepBody
    split
    · exact PieceStopped.of_bus (BusWork.refl s)
    · next h =>
      refine ⟨SweepWork.setCtx ⟨id, id⟩, rfl, .inr (.begin (by simpa using h)), by simp⟩
  | processStep c =>
    show BodyFacts s (processStepBody c s) _ _
    have hc : c = 0 ∨ c = 1 := by simpa [operandsAccepted] using ho
    unfold processStepBody
    split
    · next ht => exact ⟨SweepWork.refl s, rfl, .inl rfl, fun h1 h2 => absurd h1 h2⟩
    · next ht =>
      refine (stepStartMeasure_holds s).imp ?_ (fun _ h => h) (fun _ h => h) ?_
      · intro r u ⟨h1, h2, h3⟩
        exact ⟨h1.work, h1.activity, .inr (by rw [h2]; exact .measured c ht), fun _ _ => h3⟩
      · intro u ⟨h1, h2⟩
        exact ⟨h1, h2.imp_right fun h => ⟨_, h, fun _ => ht⟩⟩
    · next ht =>
      unfold stepDftComplete readReg
      split
      · exact PieceStopped.of_bus (BusWork.refl s)
      · next st hst =>
        refine ⟨SweepWork.setCtx ⟨id, id⟩, rfl, .inr ?_, fun _ h => absurd ht h⟩
        simp only [State.setTrigger_ctx, afterDft]
        split
        · exact .sweepDone c st ht hst (by assumption)
        · rcases hc with rfl | rfl
          · exact .advance st ht hst (by simp_all)
          · exact .again st ht hst (by simp_all)
    · next ht =>
      refine (stepCommand_holds ..).imp ?_ (fun _ h => ⟨h.1, fun hi => h.2.trans hi⟩) (fun _ h => h)
        (fun _ h => ⟨h.1, .inl (h.2.resolve_right id)⟩)
      intro r u ⟨h1, h2, h3⟩
      exact ⟨h1.work, h1.activity, .inr (by rw [h2]; exact .incremented c ht), by rw [h2]; simp⟩
    · next ht =>
      refine (stepCommand_holds ..).imp ?_ (fun _ h => ⟨h.1, fun hi => h.2.trans hi⟩) (fun _ h => h)
        (fun _ h => ⟨h.1, .inl (h.2.resolve_right id)⟩)
      intro r u ⟨h1, h2, h3⟩
      exact ⟨h1.work, h1.activity, .inr (by rw [h2]; exact .repeated c ht), by rw [h2]; simp⟩
    · next ht =>
      refine (stepCommand_holds ..).imp ?_ (fun _ h => ⟨h.1, fun hi => h.2.trans hi⟩) (fun _ h => h)
        (fun _ h => ⟨h.1, .inl (h.2.resolve_right id)⟩)
      intro r u ⟨h1, h2, h3⟩
      exact ⟨h1.work, h1.activity, .inr (by rw [h2]; exact .stopped c ht), by rw [h2]; simp⟩
  | measureTemperature =>
    refine (measureTemperatureBody_holds s).imp ?_ (fun _ h => h) (fun _ h => h) ?_
    · intro r u ⟨h1, h2, h3⟩
      exact ⟨h1.work, h1.activity, .inl h2, fun _ _ => h3⟩
    · intro u ⟨h1, h2⟩
      exact ⟨h1, h2.imp_right fun h => ⟨.temperature, h, by simp⟩⟩
  | getReal => exact accessor_facts _ _ _ (.inl rfl) _
  | getImag => exact accessor_facts _ _ _ (.inl rfl) _
  | getTemperature => exact accessor_facts _ _ _ (.inl rfl) _

/-! ### The environment's turn -/

/-- The environment's turn is bus work: it touches the pending stop, the registers a completion writes, and itself (R114, R103). -/
theorem envTurn_work (s : State) : BusWork s (envTurn s).2 := by
  unfold envTurn
  split
  · split
    · unfold envStep
      split
      · next hp =>
        refine
          { BusWork.refl s with
            keeps := fun h => ⟨h.wire, fun hc => ?_, fun hf => (by cases hf), h.unresponsive, ?_, ?_⟩ }
        · exact absurd (hp.symm.trans (h.unconfigured hc).2.2.2.1) (by decide)
        · intro hl
          exact h.late (by simpa [Env.choose_late] using hl)
        · simpa [Env.choose_slave] using h.memory
      · next hp =>
        split
        · exact
            { BusWork.refl s with
              keeps := fun h => ⟨h.wire, h.unconfigured, h.stop, h.unresponsive,
                fun hl => h.late (by simpa [Env.choose_late] using hl), by simpa [Env.choose_slave] using h.memory⟩ }
        · next l hl =>
          have hlate : s.env.late ≠ none := by
            rw [← Env.choose_late s.env]
            simp_all
          exact
            { BusWork.refl s with
              keeps := fun h => ⟨h.wire, fun hc => absurd ((h.late hlate).symm.trans (h.unconfigured hc).2.2.2.2) (by decide),
                h.stop, h.unresponsive, fun hf => absurd rfl hf, by simpa [Env.choose_slave, deliver] using h.memory⟩ }
    · exact
        { BusWork.refl s with
          keeps := fun h => ⟨h.wire, h.unconfigured, h.stop, h.unresponsive,
            fun hl => h.late (by simpa [Env.choose_late] using hl), by simpa [Env.choose_slave] using h.memory⟩ }
  · exact BusWork.refl s

/-- All the environment's turn can change: the pending stop, the registers a completion writes, and itself. -/
theorem envTurn_only (s : State) : ∃ (e : Env) (pending flag : Bool) (status data : Reg Byte),
    (envTurn s).2 =
      (s.setEnv e).setCtl { s.ctl with stopPending := pending, flag := flag, status := status, data := data } := by
  have same : ∀ e : Env, s.setEnv e = (s.setEnv e).setCtl { s.ctl with } := fun _ => rfl
  unfold envTurn envStep
  split
  · split
    · split
      · exact ⟨_, _, _, _, _, rfl⟩
      · split
        · exact ⟨_, _, _, _, _, same _⟩
        · exact ⟨_, _, _, _, _, rfl⟩
    · exact ⟨_, _, _, _, _, same _⟩
  · exact ⟨_, _, _, _, _, same s.env⟩

/-- Where the environment leaves the block its step, it has changed at most itself (R114(a), R115). -/
theorem envTurn_yields {s : State} {e : Env} (h : s.envYields e) : envTurn s = (false, s.setEnv e) := by
  unfold envTurn State.envMayAct
  obtain ⟨⟨h1, h2⟩, rfl⟩ | ⟨hq, hc⟩ := h
  · rw [h1, h2]
    rfl
  · have hm : (s.ctl.stopPending || s.env.late.isSome) = true := by
      unfold State.quiet at hq
      cases hs : s.ctl.stopPending with
      | true => rfl
      | false => cases hl : s.env.late with
        | none => exact absurd ⟨hs, hl⟩ hq
        | some l => rfl
    rw [hm, hc]
    rfl

/-! ### One step -/

/-- The block's step of a status poll, where the environment leaves it (R177). -/
theorem step_poll {s : State} {e : Env} {job : PollJob} {k : Nat} {st : Option Byte} (hu : s.unmarked)
    (ha : s.activity = .polling job k st) (he : s.envYields e) : step s = finish (pollTurn job k st (s.setEnv e)) := by
  unfold step turn afterEnv
  simp [hu.1, hu.2, ha, envTurn_yields he]

/-- The block's step with nothing in progress, where the environment leaves it (30_encoding.md R70, R73). -/
theorem step_idle {s : State} {e : Env} (hs : s.accepting) (he : s.envYields e) :
    step s = match fetch (s.setEnv e) with
      | .answer r => r
      | .perform i s' => exec i s' := by
  unfold step turn afterEnv
  cases hf : fetch (s.setEnv e) <;> simp [hs.1.1, hs.1.2, hs.2, envTurn_yields he, hf]

/-- The kinds of step from a state without marks: a hung wait, the environment's own, one turn of a poll, none with no command
waiting, a refusal of the bytes, or the next command. -/
theorem step_cases {s t : State} (h : step s = .next t) : s.unmarked ∧
    ((∃ act, s.activity = .waiting act ∧ t = s) ∨ t = (envTurn s).2 ∨
    (∃ job k st, s.activity = .polling job k st ∧ finish (pollTurn job k st (envTurn s).2) = .next t) ∨
    (s.activity = .idle ∧
      ((∃ e, t = refuse e (envTurn s).2) ∨ ∃ i rest, exec i ((envTurn s).2.setInput rest) = .next t))) := by
  unfold step turn afterEnv at h
  by_cases h1 : s.ctl.faults.isEmpty = true
  · by_cases h2 : s.ctl.refused = false
    · refine ⟨⟨h1, h2⟩, ?_⟩
      simp only [h1, h2] at h
      cases ha : s.activity with
      | waiting act => simp [ha] at h; exact .inl ⟨act, rfl, h.symm⟩
      | polling job k st =>
        cases hb : (envTurn s).1 with
        | true => simp [ha, hb] at h; exact .inr (.inl h.symm)
        | false => simp [ha, hb] at h; exact .inr (.inr (.inl ⟨job, k, st, rfl, h⟩))
      | idle =>
        cases hb : (envTurn s).1 with
        | true => simp [ha, hb] at h; exact .inr (.inl h.symm)
        | false =>
          simp [ha, hb] at h
          unfold fetch at h
          cases hin : (envTurn s).2.client.input with
          | nil => simp [hin] at h; exact .inr (.inl h.symm)
          | cons b bs =>
            refine .inr (.inr (.inr ⟨rfl, ?_⟩))
            simp only [hin] at h
            cases hd : decode (b :: bs) with
            | invalid e => simp [hd] at h; exact .inl ⟨_, h.symm⟩
            | ok i rest => simp only [hd] at h; exact .inr ⟨i, rest, h⟩
    · simp [h1, h2] at h
  · simp [h1] at h

end Sys2Proof.Machine
end

