-- ==== Sys2Proof/Laws/Stores.lean ====
section
/-! SUPPORT. Which registers of the reference slave a sequence of bus actions can change (92_eei_decisions.md D39), said once for a
bus primitive, for a register transaction, and as a frame relation for the sweep operations. -/

namespace Sys2Proof.Machine

/-! ### The slave -/

/-- The register a bus action stores to, if it stores. -/
def Slave.storesTo (sl : Slave) : BusAction → Option Byte
  | .start => none
  | .repStart => none
  | .addrOut _ => none
  | .dataOut _ => sl.storeAddr
  | .dataIn _ => none
  | .stop => none

/-- One bus action changes no register but the one it stores to. -/
theorem Slave.receive_mem {cfg : Params} {sl : Slave} {act : BusAction} {float : Byte} {a : Nat} (hw : sl.mem.wf = true)
    (h : ∀ x, sl.storesTo act = some x → x.toNat ≠ a) :
    Memory.read (sl.receive cfg act float).2.2.mem a = Memory.read sl.mem a := by
  cases act with
  | start => rfl
  | repStart => rfl
  | addrOut => simp [Slave.receive, Slave.address_mem]
  | dataIn => simp [Slave.receive, Slave.giveByte_mem]
  | stop => rfl
  | dataOut b =>
    simp only [Slave.storesTo, Slave.storeAddr] at h
    simp only [Slave.receive, Slave.takeByte]
    split <;> try rfl
    · split
      · rfl
      · split
        · rfl
        · split <;> rfl
    · next i c hp =>
      rw [hp] at h
      split
      · next hl =>
        have hx := h (slaveAddr sl.ptr i) (by simp [hl])
        simp [Slave.writeReg, Memory.read_write hw, Ne.symm hx]
      · rfl
    · next r hp =>
      rw [hp] at h
      have hx := h r rfl
      simp [Slave.writeReg, Memory.read_write hw, Ne.symm hx]

/-- A list of bus actions stores only to registers of `A`, whatever bytes float. -/
def StoresIn (cfg : Params) (A : Nat → Prop) : Slave → List BusAction → Prop
  | _, [] => True
  | sl, a :: as => (∀ x, sl.storesTo a = some x → A x.toNat) ∧ ∀ float, StoresIn cfg A (sl.receive cfg a float).2.2 as

/-- Actions that send no data byte store nothing. -/
def sendsNothing : BusAction → Bool
  | .start => true
  | .repStart => true
  | .addrOut _ => true
  | .dataOut _ => false
  | .dataIn _ => true
  | .stop => true

theorem StoresIn.quiet {cfg : Params} {A : Nat → Prop} (acts : List BusAction) : ∀ sl : Slave, acts.all sendsNothing = true →
    StoresIn cfg A sl acts := by
  induction acts with
  | nil => intro sl _; trivial
  | cons a as ih =>
    intro sl h
    simp only [List.all_cons, Bool.and_eq_true] at h
    exact ⟨fun x hx => by cases a <;> simp_all [Slave.storesTo, sendsNothing], fun float => ih _ h.2⟩

/-- Data bytes that the slave ignores. -/
theorem StoresIn.ignored {cfg : Params} {A : Nat → Prop} (bs : List Byte) : ∀ sl : Slave, sl.pos = .ignoring →
    StoresIn cfg A sl (bs.map BusAction.dataOut ++ [.stop]) := by
  induction bs with
  | nil => intro sl _; exact StoresIn.quiet _ sl rfl
  | cons b bs ih =>
    intro sl h
    exact ⟨fun x hx => by simp [Slave.storesTo, Slave.storeAddr, h] at hx,
      fun float => ih _ (by simp [Slave.receive, Slave.takeByte, h])⟩

/-- The payload of a block of `c` bytes at the pointer. -/
theorem StoresIn.payload {cfg : Params} {A : Nat → Prop} {c : Nat} {ptr : Byte} (hA : ∀ k, k < c → A (slaveAddr ptr k).toNat)
    (bs : List Byte) : ∀ (i : Nat) (sl : Slave), sl.pos = .storing i c → sl.ptr = ptr →
    StoresIn cfg A sl (bs.map BusAction.dataOut ++ [.stop]) := by
  induction bs with
  | nil => intro i sl _ _; exact StoresIn.quiet _ sl rfl
  | cons b bs ih =>
    intro i sl h hp
    refine ⟨fun x hx => ?_, fun float => ?_⟩
    · simp only [Slave.storesTo, Slave.storeAddr, h] at hx
      split at hx
      · next hl => cases hx; rw [hp]; exact hA i hl
      · cases hx
    · by_cases hl : i < c
      · exact ih (i + 1) _ (by simp [Slave.receive, Slave.takeByte, h, hl]) (by simp [Slave.receive, Slave.takeByte, h, hl, hp, Slave.writeReg])
      · exact ih i _ (by simp [Slave.receive, Slave.takeByte, h, hl]) (by simp [Slave.receive, Slave.takeByte, h, hl, hp])

/-- The SET_POINTER frame stores nothing and moves the pointer. -/
theorem StoresIn.setPointer {cfg : Params} {A : Nat → Prop} {reg : Byte} {rest : List BusAction}
    (h : ∀ sl : Slave, sl.ptr = reg → StoresIn cfg A sl rest) (sl : Slave) :
    StoresIn cfg A sl (setPointerFrame cfg reg ++ rest) := by
  simp only [setPointerFrame, List.cons_append, List.nil_append, StoresIn, Slave.storesTo, Slave.storeAddr, Slave.receive,
    Slave.address, Slave.takeByte, if_true]
  simp only [reduceCtorEq, false_implies, implies_true, true_and]
  exact fun _ _ _ _ _ => h _ rfl

/-- WRITE_BYTE stores at most to its register (R145). -/
theorem StoresIn.writeByte {cfg : Params} {A : Nat → Prop} {reg v : Byte} (h : A reg.toNat) (sl : Slave) :
    StoresIn cfg A sl (writeByteFrame cfg reg v) := by
  simp only [writeByteFrame, StoresIn, Slave.storesTo, Slave.receive, Slave.address, Slave.takeByte, if_true]
  refine ⟨by simp, fun _ => ⟨by simp, fun _ => ⟨by simp [Slave.storeAddr], fun _ => ⟨?_, fun _ => ⟨by simp, fun _ => trivial⟩⟩⟩⟩⟩
  intro x hx
  split at hx
  · simp [Slave.storeAddr] at hx
  · split at hx
    · simp [Slave.storeAddr] at hx
    · split at hx
      · simp [Slave.storeAddr] at hx
      · simp [Slave.storeAddr] at hx
        exact hx ▸ h

/-- WRITE_BLOCK stores at most to the `n` registers from its own on (R146). -/
theorem StoresIn.writeBlock {cfg : Params} {A : Nat → Prop} {reg n : Byte} {bs : List Byte}
    (h : ∀ k, k < n.toNat → A (slaveAddr reg k).toNat) (sl : Slave) : StoresIn cfg A sl (writeBlockFrame cfg reg n bs) := by
  refine StoresIn.setPointer (fun sl hp => ?_) sl
  simp only [List.cons_append, List.nil_append, StoresIn, Slave.storesTo, Slave.receive, Slave.address, Slave.takeByte, if_true]
  refine ⟨by simp, fun _ => ⟨by simp, fun _ => ⟨by simp [Slave.storeAddr], fun _ => ⟨?_, fun _ => ?_⟩⟩⟩⟩
  · intro x hx
    split at hx <;> simp [Slave.storeAddr] at hx
  · by_cases ho : cfg.opBlockWrite = cfg.opPointer
    · exact StoresIn.ignored bs _ (by simp [ho])
    · exact StoresIn.payload h bs 0 _ (by simp [ho]) (by simp [ho, hp])

/-- READ_BYTE stores nothing (R147). -/
theorem StoresIn.readByte {cfg : Params} {A : Nat → Prop} {reg : Byte} (sl : Slave) : StoresIn cfg A sl (readByteFrame cfg reg) :=
  StoresIn.setPointer (fun sl _ => StoresIn.quiet _ sl rfl) sl

/-- READ_BLOCK stores nothing (R148). -/
theorem StoresIn.readBlock {cfg : Params} {A : Nat → Prop} {reg n : Byte} (sl : Slave) :
    StoresIn cfg A sl (readBlockFrame cfg reg n) := by
  refine StoresIn.setPointer (fun sl hp => ?_) sl
  simp only [List.cons_append, List.nil_append, StoresIn, Slave.storesTo, Slave.receive, Slave.address, Slave.takeByte, if_true]
  refine ⟨by simp, fun _ => ⟨by simp, fun _ => ⟨by simp [Slave.storeAddr], fun _ => ⟨?_, fun _ => ⟨by simp, fun _ => ⟨by simp, fun _ => ?_⟩⟩⟩⟩⟩⟩
  · intro x hx
    split at hx
    · simp [Slave.storeAddr] at hx
    · split at hx <;> simp [Slave.storeAddr] at hx
  · refine StoresIn.quiet _ _ ?_
    simp [sendsNothing]

/-! ### A bus primitive and a register transaction -/

/-- The registers outside `A` read as before, and the register file stays in canonical form. -/
structure MemKeeps (A : Nat → Prop) (s t : State) : Prop where
  cfg : t.cfg = s.cfg
  wf : s.env.slave.mem.wf = true → t.env.slave.mem.wf = true
  reads : s.env.slave.mem.wf = true → ∀ a, ¬ A a → Memory.read t.env.slave.mem a = Memory.read s.env.slave.mem a

theorem MemKeeps.of_slave {A : Nat → Prop} {s t : State} (hc : t.cfg = s.cfg) (h : t.env.slave = s.env.slave) : MemKeeps A s t :=
  ⟨hc, fun hw => h ▸ hw, fun _ _ _ => by rw [h]⟩

theorem MemKeeps.rel (A : Nat → Prop) : FrameRel (MemKeeps A) where
  refl _ := ⟨rfl, id, fun _ _ _ => rfl⟩
  trans h1 h2 := ⟨h2.cfg.trans h1.cfg, fun h => h2.wf (h1.wf h), fun h a ha => (h2.reads (h1.wf h) a ha).trans (h1.reads h a ha)⟩
  cfg h := h.cfg
  setCtl _ _ := ⟨rfl, id, fun _ _ _ => rfl⟩
  setActivity _ _ := ⟨rfl, id, fun _ _ _ => rfl⟩
  setLast _ _ := ⟨rfl, id, fun _ _ _ => rfl⟩

/-- How a primitive may leave the environment: the slave untouched, or, in slave mode, having received the primitive's action. -/
structure PrimEnv (p : Prim) (s u : State) : Prop where
  cfg : u.cfg = s.cfg
  mode : u.env.mode = s.env.mode
  slave : u.env.slave = s.env.slave ∨ s.env.mode = .slave ∧
    ∃ float, u.env.slave = (s.env.slave.receive s.cfg (p.action s.ctl.phase) float).2.2

/-- How a primitive that returned `r` leaves the environment: one that completed has had its action received; one that did
not leaves an unresponsive block. -/
structure PrimDone (p : Prim) (s : State) (r : OpResult) (u : State) : Prop where
  env : PrimEnv p s u
  received : lostResult r = false → s.env.mode = .slave →
    ∃ float, u.env.slave = (s.env.slave.receive s.cfg (p.action s.ctl.phase) float).2.2
  lost : lostResult r = true → u.ctl.unresponsive = true ∧ u.ctl.configured = true

theorem settleStop_env (s : State) : (settleStop s).2.env.slave = s.env.slave ∧ (settleStop s).2.env.mode = s.env.mode := by
  obtain ⟨h, -⟩ | ⟨-, -, h⟩ | ⟨-, -, h⟩ := settleStop_cases s <;> rw [h] <;> simp [Env.choose_slave, Env.choose_mode]

/-- Everything a bus primitive can do to the slave. -/
theorem runPrim_env (p : Prim) (s : State) :
    (runPrim p s).Holds (PrimDone p s) (PrimEnv p s) (PrimEnv p s) (PrimEnv p s) := by
  have hcfg : (settleStop s).2.cfg = s.cfg := (settleStop_work s).cfg
  obtain ⟨hs, hm⟩ := settleStop_env s
  unfold runPrim
  split
  · next hp =>
    refine ⟨⟨rfl, rfl, .inl rfl⟩, by simp [lostResult], fun _ => ?_⟩
    unfold preamble at hp
    split at hp
    · cases hp
    · split at hp
      · simp_all
      · split at hp
        · cases hp
        · split at hp <;> cases hp
  · next r s' hp =>
    obtain rfl | ⟨-, -, rfl⟩ := preamble_fault hp
    · exact ⟨rfl, rfl, .inl rfl⟩
    · exact ⟨hcfg, hm, .inl hs⟩
  · next s' hp =>
    obtain ⟨hconf, -, -, -, rfl⟩ := preamble_pass hp
    have hconf' : (settleStop s).2.ctl.configured = true := (settleStop_work s).configured.trans hconf
    split
    · next hst =>
      subst hst
      have hr := Env.receiveStop_slave (settleStop s).2.cfg (settleStop s).2.env
      rw [hs, hm] at hr
      have hrec : s.env.mode = .slave → ∃ float, (runStop (settleStop s).2).env.slave =
          (s.env.slave.receive s.cfg (Prim.stop.action s.ctl.phase) float).2.2 := by
        intro hmode
        obtain ⟨h, -⟩ | ⟨-, float, h⟩ := hr
        · rw [hmode] at h; cases h
        · exact ⟨float, by rw [runStop_env, h, hcfg, Prim.action]⟩
      refine ⟨⟨hcfg, by simp only [runStop_env, Env.receiveStop_mode, hm], ?_⟩, fun _ => hrec, by simp [lostResult]⟩
      obtain ⟨-, h⟩ | ⟨h, -⟩ := hr
      · exact .inl (by simp only [runStop_env, h])
      · exact .inr ⟨h, hrec h⟩
    · have hr := Env.receive_slave (settleStop s).2.cfg (settleStop s).2.env (p.action (settleStop s).2.ctl.phase)
      rw [hs, hm] at hr
      have hmode := Env.receive_mode (settleStop s).2.cfg (settleStop s).2.env (p.action (settleStop s).2.ctl.phase)
      have hrec : ∀ u : State, u.env.slave = ((settleStop s).2.env.receive (settleStop s).2.cfg
            (p.action (settleStop s).2.ctl.phase)).2.slave → s.env.mode = .slave →
          ∃ float, u.env.slave = (s.env.slave.receive s.cfg (p.action s.ctl.phase) float).2.2 := by
        intro u hu hmode
        obtain ⟨h, -⟩ | ⟨-, float, h⟩ := hr
        · rw [hmode] at h; cases h
        · exact ⟨float, by rw [hu, h, hcfg, settleStop_phase]⟩
      have henv : ∀ u : State, u.cfg = (settleStop s).2.cfg → u.env.mode = ((settleStop s).2.env.receive (settleStop s).2.cfg
            (p.action (settleStop s).2.ctl.phase)).2.mode → u.env.slave = ((settleStop s).2.env.receive (settleStop s).2.cfg
            (p.action (settleStop s).2.ctl.phase)).2.slave → PrimEnv p s u := by
        intro u h1 h2 h3
        refine ⟨h1.trans hcfg, h2.trans (hmode.trans hm), ?_⟩
        obtain ⟨-, h⟩ | ⟨h, -⟩ := hr
        · exact .inl (h3.trans h)
        · exact .inr ⟨h, hrec u h3 h⟩
      unfold runWaiting
      obtain ⟨raw, d, late, -, -, hw⟩ | ⟨late, -, hw⟩ | ⟨-, -, hw⟩ :=
        waitFlag_cases (p.action (settleStop s).2.ctl.phase)
          ((settleStop s).2.env.receive (settleStop s).2.cfg (p.action (settleStop s).2.ctl.phase)).1
          ((launch (p.action (settleStop s).2.ctl.phase) (settleStop s).2).setEnv
            ((settleStop s).2.env.receive (settleStop s).2.cfg (p.action (settleStop s).2.ctl.phase)).2)
      · rw [hw]
        exact ⟨henv _ rfl rfl rfl, fun _ => hrec _ rfl, fun h => by rw [Prim.result_not_lost] at h; cases h⟩
      · rw [hw]
        exact ⟨henv _ rfl rfl rfl, fun _ => hrec _ rfl, fun _ => ⟨rfl, hconf'⟩⟩
      · rw [hw]
        exact henv _ rfl rfl rfl

/-- A primitive stores at most where its action does. -/
theorem PrimEnv.keeps {p : Prim} {s u : State} {A : Nat → Prop} (h : PrimEnv p s u)
    (hA : s.env.mode = .slave → ∀ x, s.env.slave.storesTo (p.action s.ctl.phase) = some x → A x.toNat) : MemKeeps A s u := by
  obtain hs | ⟨hm, float, hs⟩ := h.slave
  · exact MemKeeps.of_slave h.cfg hs
  · refine ⟨h.cfg, fun hw => ?_, fun hw a ha => ?_⟩
    · rw [hs]
      exact Slave.receive_wf hw
    · rw [hs]
      exact Slave.receive_mem hw fun x hx hxa => ha (hxa ▸ hA hm x hx)

/-- A sequence of primitives stores at most where its actions, taken one after another, do. -/
theorem runSeq_stores {A : Nat → Prop} (ps : List Prim) : ∀ (t : Txn) (s : State),
    (s.env.mode = .slave → StoresIn s.cfg A s.env.slave (seqActions s.ctl.phase ps)) → (runSeq ps t s).Within (MemKeeps A) s := by
  induction ps with
  | nil => intro t s _; exact (MemKeeps.rel A).refl s
  | cons p ps ih =>
    intro t s h
    have hk : ∀ u, PrimEnv p s u → MemKeeps A s u := fun u hu => hu.keeps fun hm => (h hm).1
    have hp := runPrim_env p s
    have hq := runPrim_holds p s
    unfold runSeq
    cases hx : runPrim p s with
    | quit u => rw [hx] at hp; exact hk u hp
    | fault r u => rw [hx] at hp; exact hk u hp
    | spin u => rw [hx] at hp; exact hk u hp
    | done r u =>
      rw [hx] at hp hq
      refine Flow.Within.after (MemKeeps.rel A) (hk u hp.env) ?_
      cases hl : lostResult r with
      | true =>
        obtain ⟨hu, hc⟩ := hp.lost hl
        show Flow.Within (runSeq ps (t.note r) u) _ _
        rw [runSeq_unresponsive ps _ _ hc hu]
        exact (MemKeeps.rel A).refl u
      | false =>
        refine ih _ _ fun hm => ?_
        obtain ⟨float, hf⟩ := hp.received hl (hp.env.mode ▸ hm)
        rw [(hq.2.2 hl).1, hf, hp.env.cfg]
        exact (h (hp.env.mode ▸ hm)).2 float

/-- A register transaction stores at most where its frame does. -/
theorem transaction_stores {A : Nat → Prop} {ps : List Prim} {s : State} (h : ∀ sl, StoresIn s.cfg A sl (seqActions .free ps)) :
    (transaction ps s).Within (MemKeeps A) s := by
  unfold transaction
  split
  · exact (MemKeeps.rel A).refl s
  · next hp => exact runSeq_stores ps _ _ fun _ => by rw [Decidable.of_not_not hp]; exact h _

theorem transactionBody_stores {A : Nat → Prop} {ps : List Prim} {v : Txn → OpResult} {s : State}
    (h : ∀ sl, StoresIn s.cfg A sl (seqActions .free ps)) : (transactionBody ps v s).Within (MemKeeps A) s := by
  unfold transactionBody
  exact Flow.Within.bind (MemKeeps.rel A) (transaction_stores h) fun _ u _ => (MemKeeps.rel A).refl u

theorem innerTxn_stores {A : Nat → Prop} {ps : List Prim} {s : State} (h : ∀ sl, StoresIn s.cfg A sl (seqActions .free ps)) :
    (innerTxn ps s).Within (MemKeeps A) s := by
  unfold innerTxn
  refine Flow.Within.bind (MemKeeps.rel A) (transaction_stores h) fun t u _ => ?_
  split
  · exact (MemKeeps.rel A).refl u
  · exact (MemKeeps.rel A).refl u

/-! ### The sweep operations' transactions -/

/-- A command is stored at most to the command register (30_encoding.md R80). -/
theorem cmdWithin_stores {A : Nat → Prop} {cfg : Params} (h : A (regBase cfg .ctrlHi).toNat) : CmdWithin (MemKeeps A) cfg := by
  rintro c u rfl
  exact innerTxn_stores fun sl => by rw [(writeByteSeq_legal ..).2]; exact StoresIn.writeByte h sl

/-- Reads store nothing. -/
theorem readsWithin_stores (A : Nat → Prop) (cfg : Params) : ReadsWithin (MemKeeps A) cfg :=
  ⟨fun _ _ _ => innerTxn_stores fun sl => by rw [(readBlockSeq_legal ..).2]; exact StoresIn.readBlock sl,
    fun _ _ => innerTxn_stores fun sl => by rw [(readByteSeq_legal ..).2]; exact StoresIn.readByte sl⟩

/-- A block write to a register of the map stores at most to its bytes (42_sweep_controller.md R178). -/
theorem writeReg_stores {A : Nat → Prop} {r : DevReg} {bs : List Byte} {u : State}
    (h : ∀ k, k < (regWidth r).toNat → A (slaveAddr (regBase u.cfg r) k).toNat) : (writeReg r bs u).Within (MemKeeps A) u :=
  innerTxn_stores fun sl => by rw [(writeBlockSeq_legal ..).2]; exact StoresIn.writeBlock h sl

end Sys2Proof.Machine
end

