-- ==== Sys2Proof/Tests/Slice0.lean ====
section
/-! SUPPORT. The model's own tests: ill-formed terms, words of the opcode map, one step for each operation with the values of
spec/95_test_vectors.md, and a witness for the hypotheses of every obligation. -/

namespace Sys2Proof.Tests

open Sys2Proof Sys2Proof.Machine

/-! ### States to test on -/

/-- "Configured" (95_test_vectors.md, Conventions), the oracle about to give these answers. -/
def ready (answers : List EnvAnswer) : State :=
  { State.reset with
    ctl := { Ctl.bringUp false with configured := true, enabled := true, divider := .val 0 }
    env := { Env.bringUp with answers := answers } }

/-- "Configured", against the reference slave with these registers and scripts. -/
def slave (mem : Memory) (scripts : List (Byte × List Byte)) : State :=
  { ready [] with env := { Env.bringUp with mode := .slave, slave := { Slave.blank with mem := mem, scripts := scripts } } }

/-- The same state with other parameters. -/
def withCfg (f : Params → Params) (s : State) : State := { s with cfg := f s.cfg }

/-- The same state with another trigger and last status. -/
def withSweep (t : Trigger) (st : Reg Byte) (s : State) : State := s.setCtx { s.ctx with trigger := t, lastStatus := st }

/-- An answer before the first poll, with no data. -/
def ok (status : Byte) : EnvAnswer := .done status 0 0

/-- A pending stop under `STOP_OVERLAP = Fault`, the environment about to take `StopDone` or not. -/
def stopPendingAt (m : Bool) : State :=
  let s := withCfg (fun c => { c with stopOverlap := .fault }) (ready [])
  { s with ctl := { s.ctl with stopPending := true }, env := { s.env with moves := [m] } }

/-- Timed out, the answer to the START still outstanding, the environment about to complete it; a GET_REAL waits. -/
def lateAnswer : State :=
  let s := (withCfg (fun c => { c with pollBudget := some 3 }) (ready [])).setInput [0x24]
  { s with
    ctl := { s.ctl with unresponsive := true }
    env := { s.env with moves := [true], late := some { act := .start, status := 0x08, data := 0 } } }

/-- One field of the next state. -/
def field {α : Type} (f : State → α) : Result → Option α
  | .next t => some (f t)
  | .fault _ => none
  | .refused _ => none

/-- The client's outcome in the next state. -/
def outcome (r : Result) : Option OpOutcome := (field (fun t => t.client.last) r).join

/-- One more step. -/
def andStep : Result → Result
  | .next t => step t
  | .fault r => .fault r
  | .refused r => .refused r

/-! ### Well-formedness -/

theorem test_wellFormed_refuses_a_short_payload : (Instr.writeBlock 0x88 3 [1, 0xFF]).wellFormed = false := by decide
theorem test_wellFormed_refuses_a_long_payload : (Instr.writeBlock 0x88 1 [1, 0xFF]).wellFormed = false := by decide
theorem test_wellFormed_accepts_no_payload : (Instr.writeBlock 0x88 0 []).wellFormed = true := by decide

/-! ### Decoding: one word for each row of 30_encoding.md R72, and the invalid ones of V-EN -/

theorem test_decode_configure : decode [0x01, 0x05, 0x02] = .ok (.configure 5) [0x02] := by decide
theorem test_decode_start : decode [0x02] = .ok .start [] := by decide
theorem test_decode_sendAddr : decode [0x03, 0x1A] = .ok (.sendAddr 0x1A) [] := by decide
theorem test_decode_sendByte : decode [0x04, 0xB0] = .ok (.sendByte 0xB0) [] := by decide
theorem test_decode_recvAck : decode [0x05] = .ok .recvAck [] := by decide
theorem test_decode_recvNack : decode [0x06] = .ok .recvNack [] := by decide
theorem test_decode_stop : decode [0x07] = .ok .stop [] := by decide
theorem test_decode_setPointer : decode [0x10, 0x94] = .ok (.setPointer 0x94) [] := by decide
theorem test_decode_writeByte : decode [0x11, 0x80, 0xB0] = .ok (.writeByte 0x80 0xB0) [] := by decide
theorem test_decode_writeBlock : decode [0x12, 0x88, 0x02, 0x01, 0xFF, 0x07] = .ok (.writeBlock 0x88 2 [1, 0xFF]) [0x07] := by
  decide
theorem test_decode_readByte : decode [0x13, 0x83] = .ok (.readByte 0x83) [] := by decide
theorem test_decode_readBlock : decode [0x14, 0x94, 0x02] = .ok (.readBlock 0x94 2) [] := by decide
theorem test_decode_configureSweep :
    decode [0x20, 0x00, 0x00, 0x75, 0x30, 0x00, 0x00, 0x00, 0x0A, 0x02, 0x00] = .ok (.configureSweep 30000 10 512) [] := by decide
theorem test_decode_beginSweep : decode [0x21] = .ok .beginSweep [] := by decide
theorem test_decode_processStep : decode [0x22, 0x01] = .ok (.processStep 1) [] := by decide
theorem test_decode_measureTemperature : decode [0x23] = .ok .measureTemperature [] := by decide
theorem test_decode_getReal : decode [0x24] = .ok .getReal [] := by decide
theorem test_decode_getImag : decode [0x25] = .ok .getImag [] := by decide
theorem test_decode_getTemperature : decode [0x26] = .ok .getTemperature [] := by decide
theorem test_decode_setRange : decode [0x27, 0x01] = .ok (.setRange 1) [] := by decide

/-- V-EN-6 to V-EN-10, and the other ends of the reserved ranges of R74. -/
theorem test_reserved_opcodes :
    [0x00, 0x08, 0x0F, 0x15, 0x1F, 0x28, 0xFF].map (fun b => decode [b]) = List.replicate 7 (.invalid .invalidOpcode) := by decide

/-- V-EN-3: six bytes needed. -/
theorem test_truncated : decode [0x12, 0x88, 0x03, 0x01, 0xFF] = .invalid .truncated := by decide

/-- The numbering of spec/opcode_table.json: byte 0 in bits 7..0. -/
theorem test_table_word : decodeTableWord 24 0x02B011 = some (.writeByte 0xB0 0x02) ∧
    decodeTableWord 8 0x21 = some .beginSweep ∧ decodeTableWord 24 0x000112 = some (.writeBlock 0x01 0 []) ∧
    decodeTableWord 8 0x28 = none := by decide

/-- 30_encoding.md R79. -/
theorem test_asm : (Instr.writeBlock 0x88 2 [1, 0xFF]).asm = "WRITE_BLOCK 136, 2, [1, 255]" := by decide +kernel

/-! ### The operations -/

/-- V-BP-1, through the command stream. -/
theorem test_configure_enables :
    field (fun t => (t.ctl.configured, t.ctl.enabled, t.ctl.phase, t.ctl.trace)) (step (State.reset.withFetchWord 16 0x0001)) =
      some (true, true, .free, []) := by decide
/-- V-BP-2. -/
theorem test_configure_twice :
    field (fun t => (t.client.last, t.ctl.faults.has .configureTwice)) (exec (.configure 1) (ready [])) =
      some (some (.faulted .configureTwice), true) := by decide

/-- V-BP-7: the phase advances on a failure. -/
theorem test_start_fails :
    field (fun t => (t.client.last, t.ctl.phase, t.ctl.trace)) (exec .start (ready [ok 0x38])) =
      some (some (.completed (.err 0x38)), .started, [.s]) := by decide
/-- V-BP-28: a repeated start after a read. -/
theorem test_start_repeated :
    field (fun t => (t.client.last, t.ctl.phase, t.ctl.trace)) (exec .start ((ready [ok 0x10]).setPhase (.rx true))) =
      some (some (.completed .ok), .started, [.sr]) := by decide

/-- V-BP-9. -/
theorem test_sendAddr_write :
    field (fun t => (t.client.last, t.ctl.phase, t.ctl.data)) (exec (.sendAddr 0x1A) ((ready [ok 0x18]).setPhase .started)) =
      some (some (.completed .ok), .tx, .val 0x1A) := by decide
/-- V-BP-10. -/
theorem test_sendAddr_read :
    field (fun t => (t.client.last, t.ctl.phase, t.ctl.trace)) (exec (.sendAddr 0x1B) ((ready [ok 0x40]).setPhase .started)) =
      some (some (.completed .ok), .rx false, [.addrOut 0x1B]) := by decide

/-- V-BP-14. -/
theorem test_sendByte_not_acknowledged :
    field (fun t => (t.client.last, t.ctl.phase, t.ctl.trace)) (exec (.sendByte 0xB0) ((ready [ok 0x30]).setPhase .tx)) =
      some (some (.completed (.err 0x30)), .tx, [.dataOut 0xB0]) := by decide
/-- V-BP-35: the code is masked, here by a table of the one status that comes. -/
theorem test_sendByte_masked_status :
    outcome (exec (.sendByte 0x01) (withCfg (fun c => { c with statusCode := [(0x2B, 0x28)] }) ((ready [ok 0x2B]).setPhase .tx))) =
      some (.completed .ok) := by decide

/-- V-BP-16. -/
theorem test_recvAck :
    field (fun t => (t.client.last, t.ctl.phase, t.ctl.trace))
      (exec .recvAck ((ready [.done 0x50 0x12 0]).setPhase (.rx false))) =
      some (some (.completed (.byte 0x12)), .rx false, [.dataIn 0x12 true]) := by decide
/-- V-BP-19. -/
theorem test_recvAck_while_writing :
    outcome (exec .recvAck ((ready []).setPhase .tx)) = some (.faulted .protocolOrder) := by decide

/-- V-BP-17. -/
theorem test_recvNack :
    field (fun t => (t.client.last, t.ctl.phase, t.ctl.trace))
      (exec .recvNack ((ready [.done 0x58 0x34 0]).setPhase (.rx false))) =
      some (some (.completed (.byte 0x34)), .rx true, [.dataIn 0x34 false]) := by decide

/-- V-BP-24. -/
theorem test_stop :
    field (fun t => (t.client.last, t.ctl.phase, t.ctl.stopPending, t.ctl.trace)) (exec .stop ((ready []).setPhase .tx)) =
      some (some (.completed .unit), .free, true, [.p]) := by decide
/-- V-BP-20: a read must end with a NACK. -/
theorem test_stop_in_a_read :
    outcome (exec .stop ((ready []).setPhase (.rx false))) = some (.faulted .protocolOrder) := by decide

/-- V-RA-1. -/
theorem test_setPointer :
    field (fun t => (t.client.last, t.ctl.trace, t.env.slave.ptr)) (exec (.setPointer 0x94) (slave [] [])) =
      some (some (.completed .unit), [.s, .addrOut 0x1A, .dataOut 0xB0, .dataOut 0x94, .p], 0x94) := by decide

/-- V-RA-2. -/
theorem test_writeByte :
    field (fun t => (t.client.last, t.ctl.trace, t.env.slave.mem)) (exec (.writeByte 0x80 0xB0) (slave [] [])) =
      some (some (.completed .unit), [.s, .addrOut 0x1A, .dataOut 0x80, .dataOut 0xB0, .p], [(0x80, 0xB0)]) := by decide
/-- V-RA-13 under `Propagate`: the first error, and the sequence runs in full. -/
theorem test_writeByte_propagates :
    field (fun t => (t.client.last, t.ctl.trace.length))
      (exec (.writeByte 0x80 0xB0) (withCfg (fun c => { c with errProp := .propagate }) (ready [ok 0x08, ok 0x20, ok 0x30, ok 0x30]))) =
      some (some (.completed (.err 0x20)), 5) := by decide

/-- V-RA-3. -/
theorem test_writeBlock :
    field (fun t => (t.client.last, t.ctl.trace.length, t.env.slave.mem))
      (exec (.writeBlock 0x82 3 [0x0E, 0xA6, 0x46]) (slave [] [])) =
      some (some (.completed .unit), 13, [(0x82, 0x0E), (0x83, 0xA6), (0x84, 0x46)]) := by decide
/-- V-RA-17. -/
theorem test_writeBlock_stop_overlap :
    field (fun t => (t.client.last, t.ctl.trace))
      (exec (.writeBlock 0x88 2 [0, 2]) (withCfg (fun c => { c with stopOverlap := .fault }) (slave [] []))) =
      some (some (.faulted .stopOverlap), [.s, .addrOut 0x1A, .dataOut 0xB0, .dataOut 0x88, .p]) := by decide

/-- V-RA-5. -/
theorem test_readByte :
    field (fun t => (t.client.last, t.ctl.trace.drop 5)) (exec (.readByte 0x8F) (slave [(0x8F, 0x02)] [])) =
      some (some (.completed (.value 0x02)), [.s, .addrOut 0x1B, .dataIn 0x02 false, .p]) := by decide
/-- V-RA-18. -/
theorem test_readByte_times_out :
    field (fun t => (t.client.last, t.ctl.trace, t.ctl.unresponsive))
      (exec (.readByte 0x8F) (withCfg (fun c => { c with pollBudget := some 2 }) (ready [ok 0x08, ok 0x18, .wedged]))) =
      some (some (.completed .unresponsive), [.s, .addrOut 0x1A], true) := by decide

/-- V-RA-6. -/
theorem test_readBlock :
    field (fun t => (t.client.last, t.ctl.trace.drop 5)) (exec (.readBlock 0x94 2) (slave [(0x94, 0x12), (0x95, 0x34)] [])) =
      some (some (.completed (.value 0x1234)),
        [.s, .addrOut 0x1A, .dataOut 0xA1, .dataOut 0x02, .sr, .addrOut 0x1B, .dataIn 0x12 true, .dataIn 0x34 false, .p]) := by
  decide
/-- V-RA-9: the fallback. -/
theorem test_readBlock_fallback :
    field (fun t => (t.client.last, t.ctl.trace.length))
      (exec (.readBlock 0x82 4) (slave [(0x82, 0x01), (0x83, 0x02), (0x84, 0x03)] [])) =
      some (some (.completed (.value 0x01)), 16) := by decide

/-- V-SW-1. -/
theorem test_configureSweep :
    field (fun t => (t.ctl.trace.length, [t.ctx.startCode, t.ctx.deltaCode], t.ctx.nInc, t.ctx.settleCode))
      (exec (.configureSweep 30000 10 2) (slave [] [])) =
      some (55, [.val 0x0EA646, .val 0x000140], .val 2, .val 0x001E) := by decide
/-- V-SW-1: what the slave holds afterwards. -/
theorem test_configureSweep_writes :
    field (fun t => (List.range 12).map (fun k => Memory.read t.env.slave.mem (0x80 + k)))
      (exec (.configureSweep 30000 10 2) (slave [] [])) =
      some [0xB0, 0x00, 0x0E, 0xA6, 0x46, 0x00, 0x01, 0x40, 0x00, 0x02, 0x00, 0x1E] := by decide

/-- V-SW-5. -/
theorem test_beginSweep :
    field (fun t => (t.client.last, t.ctx.trigger)) (exec .beginSweep State.reset) =
      some (some (.completed .unit), .startMeasure) := by decide
/-- V-SW-6. -/
theorem test_beginSweep_busy :
    outcome (exec .beginSweep (withSweep .startMeasure .unwritten (ready []))) = some (.faulted .sweepBusy) := by decide

/-- V-SW-8: two polls, so the operation takes two steps of the model. -/
theorem test_processStep_measures :
    field (fun t => (t.ctl.trace.length, [t.ctx.real, t.ctx.imag], t.ctx.lastStatus, t.ctx.trigger))
      (andStep (exec (.processStep 0) (withSweep .startMeasure .unwritten
        (slave [(0x95, 0x64), (0x96, 0xFF), (0x97, 0x9C)] [(0x8F, [0x00, 0x02])])))) =
      some (61, [.val 100, .val (-100)], .val 0x02, .dftComplete) := by decide
/-- V-SW-12: sweep-done overrides the choice. -/
theorem test_processStep_sweep_done :
    field (fun t => (t.client.last, t.ctx.trigger)) (exec (.processStep 1) (withSweep .dftComplete (.val 0x06) (ready []))) =
      some (some (.completed .unit), .stopMeasure) := by decide

/-- V-SW-22: two polls. -/
theorem test_measureTemperature :
    field (fun t => (t.client.last, t.ctl.trace.length, t.ctx.temperature, t.ctx.lastStatus, t.ctx.trigger))
      (andStep (exec .measureTemperature (slave [(0x92, 0x1F), (0x93, 0xFF)] [(0x8F, [0x00, 0x01])]))) =
      some (some (.completed .unit), 37, .val 255, .val 0x01, .idle) := by decide
/-- V-SW-22 stopped by a budget of one poll (V-SW-19's way). -/
theorem test_measureTemperature_out_of_polls :
    field (fun t => (t.client.last, t.ctl.unresponsive, t.ctx.temperature))
      (exec .measureTemperature (withCfg (fun c => { c with pollBudget := some 1 }) (slave [] []))) =
      some (some (.completed .unresponsive), true, .unwritten) := by decide

/-- V-SW-24. -/
theorem test_getReal_unwritten : outcome (exec .getReal State.reset) = some (.faulted .unwrittenRead) := by decide
/-- V-SW-25. -/
theorem test_getReal :
    outcome (exec .getReal (State.reset.setCtx { Ctx.bringUp with real := .val 100, imag := .val (-100) })) =
      some (.completed (.int 100)) := by decide
/-- V-SW-25. -/
theorem test_getImag :
    outcome (exec .getImag (State.reset.setCtx { Ctx.bringUp with real := .val 100, imag := .val (-100) })) =
      some (.completed (.int (-100))) := by decide
/-- V-SW-26. -/
theorem test_getTemperature_unwritten : outcome (exec .getTemperature State.reset) = some (.faulted .unwrittenRead) := by decide
/-- V-SW-27. -/
theorem test_getTemperature :
    outcome (exec .getTemperature (State.reset.setCtx { Ctx.bringUp with temperature := .val 255 })) =
      some (.completed (.int 255)) := by decide

/-- V-EN-13, through the command stream: no CONFIGURE is needed. -/
theorem test_setRange :
    field (fun t => (t.client.last, t.gpio.range, t.ctl.trace)) (step (State.reset.withFetchWord 16 0x0127)) =
      some (some (.completed .unit), .val 1, []) := by decide
/-- V-EN-15. -/
theorem test_setRange_bad_level :
    field (fun t => (t.client.last, t.gpio.range)) (exec (.setRange 2) State.reset) =
      some (some (.refused .badOperand), .unwritten) := by decide

/-- V-BP-34: the hang, and one more poll of it. -/
theorem test_hang :
    field (fun t => (t.client.last, t.ctl.trace, t.activity)) (andStep (exec .start (ready [.wedged]))) =
      some (none, [], .waiting .start) := by decide
/-- 40_bus_primitives.md R114(a): after STOP, with a command waiting, the environment takes `StopDone` first or does not. -/
theorem test_stop_done_before_a_waiting_command :
    (let s := (stopPendingAt true).setInput [0x24]
     field (fun t => (t.ctl.stopPending, t.client.input, t.ctl.faults.isEmpty)) (step s) = some (false, [0x24], true)) ∧
    (let s := (stopPendingAt false).setInput [0x24]
     field (fun t => (t.ctl.stopPending, t.client.input, t.ctl.faults.has .unwrittenRead)) (step s) = some (true, [], true)) := by
  decide
/-- R103: an action that outlived the budget completes later, whatever the block does. -/
theorem test_late_completion :
    field (fun t => (t.ctl.flag, t.ctl.status, t.ctl.unresponsive, t.client.input, t.env.late)) (step lateAnswer) =
      some (true, .val 0x08, true, [0x24], none) := by decide
/-- V-BP-33: after a timeout, the preamble answers before the phase is looked at. -/
theorem test_unresponsive :
    outcome (exec (.sendAddr 0x1A) (withCfg (fun c => { c with pollBudget := some 3 })
      ((ready []).setCtl { (ready []).ctl with unresponsive := true }))) = some (.completed .unresponsive) := by decide
/-- V-EN-18. -/
theorem test_marks_are_sticky :
    (match andStep (exec .start State.reset) with
      | .fault .afterFault => true
      | _ => false) = true := by decide

/-! ### Codecs -/

/-- V-FC-1, V-FC-6, V-FC-8, V-FC-9, V-FC-10, V-FC-14. -/
theorem test_freqCode :
    [0, 30000, 500000, 524249, 524250, 4294967295].map (freqCode Params.reference) =
      [0, 0x0EA646, 0xF42888, 0xFFFFE0, 0, 0x97FA3D] := by decide
/-- V-FC-13: the tie. -/
theorem test_freqCode_tie :
    freqCode Params.reference 1500000 = 0xDC7997 ∧
    freqCode { Params.reference with roundTie := .halfEven } 1500000 = 0xDC7996 := by decide
/-- V-ST-2, V-ST-4, V-ST-5, V-ST-6. -/
theorem test_settleCode :
    settleCode 999 0 0 = 0 ∧ settleCode 100000 1000 511 = 0x0263 ∧ settleCode 65536000 0 0 = 0 ∧
    settleCode 4294967295 4294967295 511 = 0x6E97 := by decide
/-- The table of R174. -/
theorem test_decode16 : [0x0001, 0x7FFF, 0x8000, 0xFF9C, 0xFFFF].map decode16 = [1, 32767, -32768, -100, -1] := by decide
/-- The table of R175. -/
theorem test_decodeTemp :
    [31, 32, 8191, 8192, 8193, 16352, 16353, 16383, 16384, 65535].map decodeTemp = [0, 1, 255, -256, -255, -1, 0, 0, 0, 1535] := by
  decide
/-- V-BR-1 to V-BR-3. -/
theorem test_assemble :
    assemble Params.reference 2 [0x12, 0x34] = 0x1234 ∧ assemble Params.reference 3 [1, 2, 3] = 0x010203 ∧
    assemble { Params.reference with read3 := .firstByte } 3 [1, 2, 3] = 0x01 ∧ assemble Params.reference 4 [5, 6, 7, 8] = 0x05 := by
  decide
/-- 60_exceptions.md R222. -/
theorem test_typedFailure :
    typedFailure Params.reference (.err 0x38) = some (.arbitrationLost, 0x38) ∧
    typedFailure Params.reference (.err 0x21) = some (.unexpectedStatus, 0x21) ∧ typedFailure Params.reference .ok = none := by
  decide

/-! ### Witnesses: the hypotheses of each obligation, met by a concrete state and concrete operands -/

theorem next_of {r : Result} (h : field (fun _ => ()) r = some ()) : ∃ t, r = .next t := by
  cases r with
  | next t => exact ⟨t, rfl⟩
  | fault r => cases h
  | refused r => cases h

theorem served {o : Option Service} {p : Service → Bool} (h : o.map p = some true) : ∃ v, o = some v ∧ p v = true := by
  cases o with
  | none => cases h
  | some v => exact ⟨v, rfl, Option.some.inj h⟩

theorem served_with {o : Option Service} (P : Service → Prop) [DecidablePred P] (h : o.map (fun v => decide (P v)) = some true) :
    ∃ v, o = some v ∧ P v := by
  obtain ⟨v, h1, h2⟩ := served h
  exact ⟨v, h1, of_decide_eq_true h2⟩

theorem ready_accepting (a : List EnvAnswer) : (ready a).accepting := ⟨⟨rfl, rfl⟩, rfl⟩
theorem slave_ready (m : Memory) (sc : List (Byte × List Byte)) : (slave m sc).readyForTransactions :=
  ⟨⟨⟨rfl, rfl⟩, rfl⟩, ⟨rfl, rfl⟩, rfl, rfl⟩

/-- In a write transaction with a block write of two bytes begun. -/
def talking : State :=
  { slave [] [] with
    ctl := { (slave [] []).ctl with
      phase := .tx, status := .val 0x28, data := .val 2, trace := [.s, .addrOut 0x1A, .dataOut 0xA0, .dataOut 2] }
    env := { (slave [] []).env with slave := { Slave.blank with pos := .storing 1 2, ptr := 0xFF } } }

theorem talking_inv : talking.Inv :=
  ⟨rfl, rfl, by decide, by decide, by decide, by decide, trivial, trivial, trivial, by decide, trivial, by decide, rfl⟩

theorem talking_input_inv (bs : List Byte) : (talking.setInput bs).Inv :=
  ⟨talking_inv.1, talking_inv.2, talking_inv.3, talking_inv.4, talking_inv.5, talking_inv.6, talking_inv.7, talking_inv.8,
    talking_inv.9, talking_inv.10, trivial, talking_inv.12, talking_inv.13⟩

/-- In the middle of a sweep poll, one read made; the next one sees the data-valid bit. -/
def midPoll : State :=
  (withSweep .startMeasure (.val 0) (slave [(0x8F, 0x02), (0x95, 0x64)] [])).setActivity (.polling .sweep 1 none)

/-- Configured, with a poll budget, and the third action of the next transaction never completed. -/
def wedgedAt (budget : Nat) : State := withCfg (fun c => { c with pollBudget := some budget }) (ready [ok 0x08, ok 0x18, .wedged])

/-- In the middle of a poll, one read made, every byte to be received the given one; a stop may be pending, which the
environment then leaves. -/
def resumed (job : PollJob) (pending : Bool) (d : Byte) : State :=
  let s := withSweep .startMeasure (.val 0) (ready (List.replicate 60 (.done 0x28 d 0)))
  { s with
    ctl := { s.ctl with stopPending := pending }
    env := { s.env with moves := [false] }
    activity := .polling job 1 none }

theorem midPoll_inv : midPoll.Inv :=
  ⟨rfl, rfl, by decide, by decide, by decide, by decide, trivial, trivial, trivial, by decide,
    ⟨rfl, rfl, by decide, rfl, by decide, by decide⟩, by decide, rfl⟩

theorem witness_DecodeOfEncodeIsTheCommand : (Instr.writeBlock 0x00 255 (List.replicate 255 0xFF)).wellFormed = true := by
  decide +kernel
theorem witness_DecodedBytesAreTheEncoding :
    decode [0x20, 0xFF, 0xFF, 0xFF, 0xFF, 0x00, 0x00, 0x00, 0x00, 0xFF, 0xFF, 0x07] =
      .ok (.configureSweep 0xFFFFFFFF 0 0xFFFF) [0x07] := by decide
theorem witness_ReservedOpcodesAreInvalid :
    [0x01, 0x07, 0x10, 0x14, 0x20, 0x27].map (fun b => decide (decode (b :: List.replicate 10 0) = .invalid .invalidOpcode)) =
      List.replicate 6 false := by decide
theorem witness_CutCommandIsTruncated :
    (Instr.configureSweep 1 2 3).wellFormed = true ∧ 0 < 10 ∧ 10 < (encode (.configureSweep 1 2 3)).length := by decide
/-- Nothing for the environment to do, and a pending stop that it leaves for now. -/
theorem witness_StepPerformsTheDecodedCommand :
    (let s := (ready []).setInput [0x11, 0x80, 0xB0, 0x02]
     s.accepting ∧ s.envYields s.env ∧ decode s.client.input = .ok (.writeByte 0x80 0xB0) [0x02]) ∧
    (let s := (stopPendingAt false).setInput [0x02]
     s.accepting ∧ s.envYields s.env.choose.2 ∧ decode s.client.input = .ok .start []) :=
  ⟨⟨⟨⟨rfl, rfl⟩, rfl⟩, .inl ⟨⟨rfl, rfl⟩, rfl⟩, by decide⟩,
    ⟨⟨rfl, rfl⟩, rfl⟩, .inr ⟨fun h => Bool.noConfusion h.1, rfl⟩, by decide⟩
theorem witness_StepRefusesBytesThatAreNoCommand :
    (let s := (ready []).setInput [0x28]
     s.accepting ∧ s.envYields s.env ∧ s.client.input ≠ [] ∧ decode s.client.input = .invalid .invalidOpcode) ∧
    (let s := (stopPendingAt false).setInput [0x11, 0x80]
     s.accepting ∧ s.envYields s.env.choose.2 ∧ s.client.input ≠ [] ∧ decode s.client.input = .invalid .truncated) :=
  ⟨⟨⟨⟨rfl, rfl⟩, rfl⟩, .inl ⟨⟨rfl, rfl⟩, rfl⟩, by decide, by decide⟩,
    ⟨⟨rfl, rfl⟩, rfl⟩, .inr ⟨fun h => Bool.noConfusion h.1, rfl⟩, by decide, by decide⟩
theorem witness_NoStepAfterAFaultOrARefusal :
    (raiseFault .protocolOrder (ready [])).ctl.faults.isEmpty = false ∧
    (refuse .badOperand (ready [])).ctl.faults.isEmpty = true ∧ (refuse .badOperand (ready [])).ctl.refused = true ∧
    FaultReason.stopOverlap ≠ .protocolOrder := by decide
/-- `StopDone` with commands waiting, in a status poll and with the client idle; a late answer; an idle client. -/
theorem witness_TheEnvironmentMayActBeforeEveryStep :
    (let s := (stopPendingAt true).setInput [0x24]
     s.unmarked ∧ s.activity = .idle ∧ s.env.choose.1 = true ∧ s.ctl.stopPending = true) ∧
    (let s := (stopPendingAt true).setActivity (.polling .sweep 1 none)
     s.unmarked ∧ (∀ act, s.activity ≠ .waiting act) ∧ s.env.choose.1 = true ∧ s.ctl.stopPending = true) ∧
    (lateAnswer.unmarked ∧ lateAnswer.activity = .idle ∧ lateAnswer.env.choose.1 = true ∧ lateAnswer.ctl.stopPending = false ∧
      lateAnswer.env.late = some { act := .start, status := 0x08, data := 0 }) ∧
    ((stopPendingAt false).accepting ∧ (stopPendingAt false).client.input = [] ∧
      (stopPendingAt false).envYields (stopPendingAt false).env.choose.2) :=
  ⟨⟨⟨rfl, rfl⟩, rfl, rfl, rfl⟩, ⟨⟨rfl, rfl⟩, fun _ => Activity.noConfusion, rfl, rfl⟩, ⟨⟨rfl, rfl⟩, rfl, rfl, rfl, rfl⟩,
    ⟨⟨⟨rfl, rfl⟩, rfl⟩, rfl, .inr ⟨fun h => Bool.noConfusion h.1, rfl⟩⟩⟩
theorem witness_AHungWaitPollsForEver :
    let s := (ready []).setActivity (.waiting .start)
    s.unmarked ∧ s.activity = .waiting .start := ⟨⟨rfl, rfl⟩, rfl⟩
theorem witness_OverlappingCommandIsRefused : midPoll.unmarked ∧ midPoll.activity ≠ .idle := ⟨⟨rfl, rfl⟩, by decide⟩
theorem witness_ExactlyTheseOperandsAreRefused :
    (ready []).accepting ∧ operandRefused (ready []).cfg (.configure 2) ∧ operandRefused (ready []).cfg (.processStep 2) ∧
    operandRefused (ready []).cfg (.setRange 2) ∧ operandRefused (ready []).cfg (.configureSweep 0 0 512) ∧
    operandRefused (ready []).cfg (.readBlock 0x82 0) ∧ ¬ operandRefused (ready []).cfg (.configureSweep 0 0 511) ∧
    ¬ operandRefused (ready []).cfg (.readBlock 0x82 1) ∧ ¬ operandRefused (ready []).cfg .start :=
  ⟨ready_accepting [], by simp [operandRefused, ready, State.reset, State.bringUp, Params.reference], by simp [operandRefused],
    by simp [operandRefused], by simp [operandRefused], rfl, by simp [operandRefused], by simp [operandRefused], id⟩

theorem witness_EveryStepKeepsTheInvariant :
    (∃ s t : State, s.Inv ∧ s.activity ≠ .idle ∧ step s = .next t) ∧
    (∃ s t : State, s.Inv ∧ s.ctl.phase = .tx ∧ step s = .next t) := by
  obtain ⟨t, ht⟩ := next_of (r := step midPoll) (by decide)
  obtain ⟨u, hu⟩ := next_of (r := step (talking.setInput [0x04, 0x55])) (by decide)
  exact ⟨⟨midPoll, t, midPoll_inv, by decide, ht⟩, ⟨talking.setInput [0x04, 0x55], u, talking_input_inv _, rfl, hu⟩⟩
theorem witness_NoStepTakesBackMarksOrEvents : ∃ t, step (talking.setInput [0x04, 0x55]) = .next t := next_of (by decide)
theorem witness_TriggerMovesOnlyByTheTable :
    (∃ t, exec .beginSweep State.reset = .next t) ∧
    (midPoll.Inv ∧ midPoll.activity = .polling .sweep 1 none ∧ ∃ t, step midPoll = .next t) :=
  ⟨next_of (by decide), midPoll_inv, rfl, next_of (by decide)⟩
theorem witness_BusPrimitivesIgnoreContextAndOutput :
    isPrimitive (.sendByte 0x55) = true ∧ ∃ t, exec (.sendByte 0x55) talking = .next t := ⟨rfl, next_of (by decide)⟩
theorem witness_ATransactionIsItsExpansion :
    isTransaction (.readBlock 0x94 255) = true ∧ ¬ operandRefused (slave [] []).cfg (.readBlock 0x94 255) ∧
    (slave [] []).accepting ∧ (slave [] []).ctl.phase = .free := ⟨rfl, by simp [operandRefused], ⟨⟨rfl, rfl⟩, rfl⟩, rfl⟩
/-- A command that uses the bus, one that does not, a sweep operation that ends early, and a resumed poll. -/
theorem witness_WhatEachCommandLeavesUnchanged :
    (∃ t, exec (.writeByte 0x80 0xB0) (slave [] []) = .next t) ∧ (∃ t, exec (.setRange 1) (slave [] []) = .next t) ∧
    (∃ t, exec .measureTemperature (wedgedAt 2) = .next t) ∧ (midPoll.activity = .polling .sweep 1 none ∧ ∃ t, step midPoll = .next t) :=
  ⟨next_of (by decide), next_of (by decide), next_of (by decide), rfl, next_of (by decide)⟩
/-- The address of a stored byte wraps: `ptr` is 0xFF and byte 1 goes to 0x00. -/
theorem witness_OnlyADataByteChangesTheSlave :
    talking.Inv ∧ talking.env.slave.storeAddr = some 0 ∧ (∃ t, exec (Prim.sendByte 0x55).instr talking = .next t) :=
  ⟨talking_inv, by decide, next_of (by decide)⟩

/-- A block write that wraps, each sweep operation, and a resumed poll. -/
theorem witness_TransactionsStoreOnlyToTheirRegisters :
    (let s := slave [(0x01, 0x77)] []
     s.Inv ∧ (slaveAddr 0xFF 1).toNat = 0 ∧ ∃ t, exec (.writeBlock 0xFF 2 [1, 2]) s = .next t) ∧
    (let s := slave [(0x01, 0x77)] []
     s.Inv ∧ (regBase s.cfg .settle).toNat = 0x8A ∧ ∃ t, exec (.configureSweep 30000 10 2) s = .next t) ∧
    (let s := withSweep .startMeasure .unwritten (slave [(0x8F, 0x02)] [])
     s.Inv ∧ (∃ t, exec (.processStep 0) s = .next t) ∧ ∃ t, exec .measureTemperature s = .next t) ∧
    (midPoll.Inv ∧ midPoll.activity = .polling .sweep 1 none ∧ ∃ t, step midPoll = .next t) :=
  have inv (m : Memory) (h : m.wf = true) : (slave m []).Inv :=
    ⟨rfl, rfl, by simp [slave, ready], by simp [slave, ready], by simp [slave, ready, Ctl.bringUp], by simp [slave, ready, Ctl.bringUp], trivial, trivial, trivial,
      by simp [slave, ready, State.reset, State.bringUp, Ctx.bringUp], trivial, by simp [slave, ready, Env.bringUp], h⟩
  have i := inv [(0x8F, 0x02)] (by decide)
  ⟨⟨inv _ (by decide), by decide, next_of (by decide)⟩, ⟨inv _ (by decide), by decide, next_of (by decide)⟩,
    ⟨⟨i.1, i.2, i.3, i.4, i.5, i.6, trivial, trivial, trivial, Trigger.noConfusion, trivial, i.12, i.13⟩, next_of (by decide),
      next_of (by decide)⟩, midPoll_inv, rfl, next_of (by decide)⟩

theorem witness_ConfigureCompletesOnce :
    (State.reset.accepting ∧ (2 : Byte) ∉ State.reset.cfg.speedClasses) ∧
    (State.reset.accepting ∧ (1 : Byte) ∈ State.reset.cfg.speedClasses ∧ State.reset.ctl.configured = false) ∧
    ((ready []).accepting ∧ (1 : Byte) ∈ (ready []).cfg.speedClasses ∧ (ready []).ctl.configured = true) :=
  ⟨⟨⟨⟨rfl, rfl⟩, rfl⟩, by decide⟩, ⟨⟨⟨rfl, rfl⟩, rfl⟩, by decide, rfl⟩, ready_accepting [], by decide, rfl⟩
theorem witness_StartCompletes :
    (let s := ready [ok 0x08]
     s.accepting ∧ s.operational ∧ s.stopHarmless ∧ s.ctl.phase = .free ∧
      ∃ env, s.env.receive s.cfg .start = (.done 0x08 0 0, env) ∧ inTime s.cfg 0 = true) ∧
    (let s := (withCfg (fun c => { c with pollBudget := some 3 }) (ready [.done 0x10 0 2])).setPhase (.rx true)
     s.accepting ∧ s.operational ∧ s.stopHarmless ∧ s.ctl.phase = .rx true ∧
      ∃ env, s.env.receive s.cfg .repStart = (.done 0x10 0 2, env) ∧ inTime s.cfg 2 = true) :=
  ⟨⟨ready_accepting _, ⟨rfl, rfl⟩, .inl rfl, rfl, _, rfl, rfl⟩,
    ⟨⟨⟨rfl, rfl⟩, rfl⟩, ⟨rfl, rfl⟩, .inl rfl, rfl, _, rfl, by decide⟩⟩
theorem witness_SendAddrCompletes :
    let s := (ready [ok 0x18]).setPhase .started
    s.accepting ∧ s.operational ∧ s.stopHarmless ∧ s.ctl.phase = .started ∧
      ∃ env, s.env.receive s.cfg (.addrOut 0x1A) = (.done 0x18 0 0, env) ∧ inTime s.cfg 0 = true :=
  ⟨⟨⟨rfl, rfl⟩, rfl⟩, ⟨rfl, rfl⟩, .inl rfl, rfl, _, rfl, rfl⟩
theorem witness_SendByteCompletes :
    talking.accepting ∧ talking.operational ∧ talking.stopHarmless ∧ talking.ctl.phase = .tx ∧
      ∃ env, talking.env.receive talking.cfg (.dataOut 0x55) = (.done 0x28 0 0, env) ∧ inTime talking.cfg 0 = true :=
  ⟨⟨⟨rfl, rfl⟩, rfl⟩, ⟨rfl, rfl⟩, .inl rfl, rfl, _, rfl, rfl⟩
theorem witness_RecvCompletes (ack : Bool) :
    let s := (ready [.done 0x50 0x12 0]).setPhase (.rx false)
    s.accepting ∧ s.operational ∧ s.stopHarmless ∧ s.ctl.phase = .rx false ∧
      ∃ env, s.env.receive s.cfg (.dataIn ack) = (.done 0x50 0x12 0, env) ∧ inTime s.cfg 0 = true :=
  ⟨⟨⟨rfl, rfl⟩, rfl⟩, ⟨rfl, rfl⟩, .inl rfl, rfl, _, rfl, rfl⟩
theorem witness_StopCompletes :
    talking.accepting ∧ talking.operational ∧ talking.stopHarmless ∧ talking.ctl.phase = .tx :=
  ⟨⟨⟨rfl, rfl⟩, rfl⟩, ⟨rfl, rfl⟩, .inl rfl, rfl⟩

theorem witness_ThePreambleChecksInOrder :
    (State.reset.accepting ∧ State.reset.ctl.configured = false) ∧
    (let s := (ready []).setCtl { (ready []).ctl with unresponsive := true }
     s.accepting ∧ s.ctl.configured = true ∧ s.ctl.unresponsive = true) ∧
    (∀ m, (stopPendingAt m).accepting ∧ (stopPendingAt m).operational ∧ (stopPendingAt m).ctl.stopPending = true ∧
      (stopPendingAt m).cfg.stopOverlap = .fault ∧ (stopPendingAt m).env.choose.1 = m) ∧
    (talking.accepting ∧ talking.operational ∧ talking.stopHarmless ∧ talking.ctl.phase ≠ .started) :=
  ⟨⟨⟨⟨rfl, rfl⟩, rfl⟩, rfl⟩, ⟨⟨⟨rfl, rfl⟩, rfl⟩, rfl, rfl⟩, fun _ => ⟨⟨⟨rfl, rfl⟩, rfl⟩, ⟨rfl, rfl⟩, rfl, rfl, rfl⟩,
    ⟨⟨⟨rfl, rfl⟩, rfl⟩, ⟨rfl, rfl⟩, .inl rfl, by decide⟩⟩

theorem witness_AWaitHangsOrTimesOut :
    (let s := ready [.wedged]
     s.accepting ∧ s.operational ∧ s.stopHarmless ∧ Prim.start.allowed s.ctl.phase = true ∧ s.cfg.pollBudget = none ∧
      (s.env.receive s.cfg .start).1 = .wedged) ∧
    (let s := withCfg (fun c => { c with pollBudget := some 3 }) (ready [.done 0x08 0 3])
     s.accepting ∧ s.operational ∧ s.stopHarmless ∧ Prim.start.allowed s.ctl.phase = true ∧ s.cfg.pollBudget = some 3 ∧
      (s.env.receive s.cfg .start).1 = .done 0x08 0 3 ∧ 3 ≤ 3) :=
  ⟨⟨⟨⟨rfl, rfl⟩, rfl⟩, ⟨rfl, rfl⟩, .inl rfl, rfl, rfl, rfl⟩, ⟨⟨⟨rfl, rfl⟩, rfl⟩, ⟨rfl, rfl⟩, .inl rfl, rfl, rfl, rfl, by decide⟩⟩
/-- In the reference configuration START is checked against two codes (V-BP-8), and SEND_BYTE against one (V-BP-13). -/
theorem witness_StatusCheckInBothModes :
    Params.reference.ackCheck = .corrected ∧ ({ Params.reference with ackCheck := .historical } : Params).ackCheck = .historical ∧
    (∃ e ∈ Params.reference.expectStart, ∃ f ∈ Params.reference.expectStart, e ≠ f) ∧ Params.reference.expectData = [0x28] := by
  decide

/-- A transaction, and the three sweep operations that use the bus. -/
theorem witness_TransactionsNeedAFreeBus :
    (talking.accepting ∧ talking.ctl.phase ≠ .free) ∧
    (¬ operandRefused talking.cfg (.writeByte 0x80 0x10) ∧ isTransaction (.writeByte 0x80 0x10) = true) ∧
    ¬ operandRefused talking.cfg .measureTemperature ∧
    (let s := withSweep .stopMeasure (.val 0x06) talking
     s.accepting ∧ s.ctl.phase ≠ .free ∧ ¬ operandRefused s.cfg (.processStep 1) ∧ s.ctx.trigger ≠ .idle ∧ s.ctx.trigger ≠ .dftComplete) ∧
    ¬ operandRefused talking.cfg (.configureSweep 0 0 511) :=
  ⟨⟨⟨⟨rfl, rfl⟩, rfl⟩, by decide⟩, ⟨id, rfl⟩, id,
    ⟨⟨⟨rfl, rfl⟩, rfl⟩, by decide, by simp [operandRefused], by decide, by decide⟩, by simp [operandRefused]⟩
theorem witness_SetPointerCompletes :
    (slave [] []).readyForTransactions ∧
    ∃ v, serve (slave [] []).cfg (setPointerFrame (slave [] []).cfg 0x94) (Service.start (slave [] [])) = some v ∧ true = true :=
  ⟨slave_ready [] [], served (p := fun _ => true) (by decide)⟩
theorem witness_WriteByteCompletes :
    (slave [] []).readyForTransactions ∧
    ∃ v, serve (slave [] []).cfg (writeByteFrame (slave [] []).cfg 0x80 0xB0) (Service.start (slave [] [])) = some v ∧ true = true :=
  ⟨slave_ready [] [], served (p := fun _ => true) (by decide)⟩
/-- No payload, and a payload of two. -/
theorem witness_WriteBlockCompletes :
    (slave [] []).readyForTransactions ∧
    (∃ v, serve (slave [] []).cfg (writeBlockFrame (slave [] []).cfg 0x88 0 []) (Service.start (slave [] [])) = some v ∧ true = true) ∧
    (∃ v, serve (slave [] []).cfg (writeBlockFrame (slave [] []).cfg 0x88 2 [1, 0xFF]) (Service.start (slave [] [])) = some v ∧
      true = true) :=
  ⟨slave_ready [] [], served (p := fun _ => true) (by decide), served (p := fun _ => true) (by decide)⟩
theorem witness_ReadByteCompletes :
    (slave [] []).readyForTransactions ∧
    ∃ v, serve (slave [] []).cfg (readByteFrame (slave [] []).cfg 0x8F) (Service.start (slave [] [])) = some v ∧ true = true :=
  ⟨slave_ready [] [], served (p := fun _ => true) (by decide)⟩
/-- One byte, and three. -/
theorem witness_ReadBlockCompletes :
    (slave [] []).readyForTransactions ∧ (1 : Byte) ≠ 0 ∧
    (∃ v, serve (slave [] []).cfg (readBlockFrame (slave [] []).cfg 0x82 1) (Service.start (slave [] [])) = some v ∧ true = true) ∧
    (∃ v, serve (slave [] []).cfg (readBlockFrame (slave [] []).cfg 0x82 3) (Service.start (slave [] [])) = some v ∧ true = true) :=
  ⟨slave_ready [] [], by decide, served (p := fun _ => true) (by decide), served (p := fun _ => true) (by decide)⟩
theorem witness_SecondStartMeetsThePendingStop :
    let s := withCfg (fun c => { c with stopOverlap := .fault }) (slave [] [])
    s.accepting ∧ s.operational ∧ s.ctl.phase = .free ∧ s.ctl.stopPending = false ∧ s.cfg.stopOverlap = .fault ∧
    ¬ operandRefused s.cfg (.readBlock 0x94 2) ∧
    ∃ v, serve s.cfg (setPointerFrame s.cfg 0x94) (Service.start s) = some v ∧ (!v.env.choose.1) = true :=
  ⟨⟨⟨rfl, rfl⟩, rfl⟩, ⟨rfl, rfl⟩, rfl, rfl, rfl, by simp [operandRefused], served (by decide)⟩
/-- The first data byte of a WRITE_BYTE is never taken; the second START of a READ_BYTE is answered at the end of the budget. -/
theorem witness_ATransactionAfterATimeoutIsUnresponsive :
    (let s := withCfg (fun c => { c with pollBudget := some 2 }) (ready [ok 0x08, ok 0x18, .wedged])
     s.readyForTransactions ∧ ¬ operandRefused s.cfg (.writeByte 0x80 0xB0) ∧ s.cfg.pollBudget = some 2 ∧
      transactionFrame s.cfg (.writeByte 0x80 0xB0) = [.start, .addrOut 0x1A] ++ .dataOut 0x80 :: [.dataOut 0xB0, .stop] ∧
      ∃ v, serve s.cfg [.start, .addrOut 0x1A] (Service.start s) = some v ∧ tooLate s.cfg (v.env.receive s.cfg (.dataOut 0x80)).1) ∧
    (let s := withCfg (fun c => { c with pollBudget := some 2 })
       (ready [ok 0x08, ok 0x18, ok 0x28, ok 0x28, .done 0x08 0 2])
     s.readyForTransactions ∧ ¬ operandRefused s.cfg (.readByte 0x8F) ∧ s.cfg.pollBudget = some 2 ∧
      transactionFrame s.cfg (.readByte 0x8F) = setPointerFrame s.cfg 0x8F ++ .start :: [.addrOut 0x1B, .dataIn false, .stop] ∧
      ∃ v, serve s.cfg (setPointerFrame s.cfg 0x8F) (Service.start s) = some v ∧ tooLate s.cfg (v.env.receive s.cfg .start).1) :=
  ⟨⟨⟨⟨⟨rfl, rfl⟩, rfl⟩, ⟨rfl, rfl⟩, rfl, rfl⟩, id, rfl, by decide, _, rfl, trivial⟩,
    ⟨⟨⟨⟨rfl, rfl⟩, rfl⟩, ⟨rfl, rfl⟩, rfl, rfl⟩, id, rfl, by decide, _, rfl, rfl⟩⟩
/-- CONFIGURE_SWEEP, a `StartMeasure` step and MEASURE_TEMPERATURE whose first data byte is never taken, and both resumed polls. -/
theorem witness_AnEarlyEndKeepsWhatWasWritten :
    (∃ rest, sweepFrame (wedgedAt 2) (.configureSweep 30000 10 2) = [.start, .addrOut 0x1A] ++ .dataOut 0xB0 :: rest) ∧
    (∃ rest, sweepFrame (withSweep .startMeasure .unwritten (wedgedAt 2)) (.processStep 0) =
      [.start, .addrOut 0x1A] ++ .dataOut 0x80 :: rest) ∧
    (∃ rest, sweepFrame (wedgedAt 2) .measureTemperature = [.start, .addrOut 0x1A] ++ .dataOut 0x80 :: rest) ∧
    ((wedgedAt 2).readyForTransactions ∧ (wedgedAt 2).cfg.pollBudget = some 2 ∧
      (∀ b, ∃ v, serve (wedgedAt 2).cfg [.start, .addrOut 0x1A] (Service.start (wedgedAt 2)) = some v ∧ v.bytes = [] ∧
        tooLate (wedgedAt 2).cfg (v.env.receive (wedgedAt 2).cfg (.dataOut b)).1)) ∧
    (∀ job, let s := (wedgedAt 2).setActivity (.polling job 1 none)
      s.unmarked ∧ s.activity = .polling job 1 none ∧ s.envYields s.env ∧ s.operational ∧ s.ctl.phase = .free ∧
      s.cfg.stopOverlap = .ordered ∧ (∃ rest, pollFrame s.cfg job = [.start, .addrOut 0x1A] ++ .dataOut 0xB0 :: rest) ∧
      ∃ v, serve s.cfg [.start, .addrOut 0x1A] (Service.start (s.setEnv s.env)) = some v ∧ v.bytes = [] ∧
        tooLate s.cfg (v.env.receive s.cfg (.dataOut 0xB0)).1) :=
  ⟨⟨_, rfl⟩, ⟨_, rfl⟩, ⟨_, rfl⟩, ⟨⟨⟨⟨rfl, rfl⟩, rfl⟩, ⟨rfl, rfl⟩, rfl, rfl⟩, rfl, fun _ => ⟨_, rfl, rfl, trivial⟩⟩,
    fun job => ⟨⟨rfl, rfl⟩, rfl, .inl ⟨⟨rfl, rfl⟩, rfl⟩, ⟨rfl, rfl⟩, rfl, rfl, by cases job <;> exact ⟨_, rfl⟩, _, rfl, rfl, trivial⟩⟩
/-- Between the two samples of a sweep poll: the status and the real sample are in, the imaginary one is never begun. -/
theorem test_early_end_keeps_the_samples :
    let s := withCfg (fun c => { c with pollBudget := some 2 }) (ready
      (List.replicate 6 (ok 0x28) ++ [.done 0x58 0x02 0] ++ List.replicate 10 (ok 0x28) ++ [.done 0x50 0x12 0, .done 0x58 0x34 0, .wedged]))
    field (fun t => (t.client.last, t.ctx.lastStatus, [t.ctx.real, t.ctx.imag], t.ctx.trigger))
      (step ((withSweep .startMeasure (.val 0) s).setActivity (.polling .sweep 1 none))) =
      some (some (.completed .unresponsive), .val 0x02, [.unwritten, .unwritten], .startMeasure) := by decide
theorem witness_AssembleReceivedBytes :
    Params.reference.read3 = .combine ∧ ({ Params.reference with read3 := .firstByte } : Params).read3 = .firstByte ∧
    ((4 : Byte) ≠ 2 ∧ (4 : Byte) ≠ 3) := by decide
theorem witness_BigEndianRoundTrip : Params.reference.read3 = .combine := rfl
theorem witness_ReferenceSlaveReturnsWhatWasWritten :
    let s := slave [(0x00, 0x77)] []
    s.readyForTransactions ∧ s.env.mode = .slave ∧ s.env.slave.scripts = [] ∧ s.env.slave.mem.wf = true ∧
    s.cfg.pollBudget ≠ some 0 ∧ s.cfg.errProp = .ignore ∧ s.cfg.opPointer ≠ s.cfg.opBlockWrite ∧
    s.cfg.opPointer ≠ s.cfg.opBlockRead ∧ s.cfg.opBlockWrite ≠ s.cfg.opBlockRead :=
  ⟨slave_ready _ _, rfl, rfl, rfl, by decide, rfl, by decide, by decide, by decide⟩
/-- V-RT-1 at the end of the register space, where the address of the second byte wraps to 0x00. -/
theorem test_round_trip_wraps :
    (match exec (.writeBlock 0xFF 2 [0x01, 0xFF]) (slave [(0x00, 0x77)] []) with
      | .next t => outcome (exec (.readBlock 0xFF 2) t)
      | .fault _ => none
      | .refused _ => none) = some (.completed (.value 0x01FF)) := by decide
theorem witness_RegisterFileReadsWhatWasWritten :
    Memory.wf [(0x00, 0x77), (0xFF, 0x01)] = true ∧ 0xFF < Memory.size := by decide

theorem witness_FrequencyAndSettleCodes :
    (0 < 2 ∧ 2 * (5 % 3) > 3 ∧ 2 * (4 % 3) < 3 ∧ 2 * (3 % 2) = 2) ∧ 999 + 0 * 511 < 1000 := by decide
theorem witness_SamplesAndTemperaturesDecode :
    (0x1FFF : U16).toNat < 8192 ∧ (8192 ≤ (0x2000 : U16).toNat ∧ (0x3FFF : U16).toNat < 16384) ∧ 16384 ≤ (0x4000 : U16).toNat := by
  decide
theorem witness_ConfigureSweepCompletes :
    (slave [] []).readyForTransactions ∧ (511 : U16).toNat ≤ 511 ∧
    ∃ v, serve (slave [] []).cfg (configureSweepFrame (slave [] []).cfg 30000 10 511) (Service.start (slave [] [])) = some v ∧
      true = true := ⟨slave_ready [] [], by decide, served (p := fun _ => true) (by decide)⟩
theorem witness_ConfigureSweepFaultKeepsWhatWasWritten :
    State.reset.accepting ∧ State.reset.ctl.phase = .free ∧ State.reset.ctl.configured = false ∧ (511 : U16).toNat ≤ 511 :=
  ⟨⟨⟨rfl, rfl⟩, rfl⟩, rfl, rfl, by decide⟩
theorem witness_BeginSweepOnlyFromIdle :
    (State.reset.accepting ∧ State.reset.ctx.trigger = .idle) ∧
    ((withSweep .stopMeasure .unwritten (ready [])).accepting ∧ (withSweep .stopMeasure .unwritten (ready [])).ctx.trigger ≠ .idle) :=
  ⟨⟨⟨⟨rfl, rfl⟩, rfl⟩, rfl⟩, ⟨⟨rfl, rfl⟩, rfl⟩, by decide⟩
theorem witness_ProcessStepFromIdleDoesNothing :
    State.reset.accepting ∧ ((1 : Byte) = 0 ∨ (1 : Byte) = 1) ∧ State.reset.ctx.trigger = .idle :=
  ⟨⟨⟨rfl, rfl⟩, rfl⟩, by decide, rfl⟩
theorem witness_DftCompleteChoosesTheNextStep (st : Reg Byte) :
    (withSweep .dftComplete st (ready [])).accepting ∧ ((1 : Byte) = 0 ∨ (1 : Byte) = 1) ∧
    (withSweep .dftComplete st (ready [])).ctx.trigger = .dftComplete ∧
    (withSweep .dftComplete st (ready [])).ctx.lastStatus = st := ⟨⟨⟨rfl, rfl⟩, rfl⟩, by decide, rfl, rfl⟩
theorem witness_CommandStepsComplete :
    let s := withSweep .stopMeasure (.val 0x06) (slave [] [])
    s.readyForTransactions ∧ ((1 : Byte) = 0 ∨ (1 : Byte) = 1) ∧
    (s.ctx.trigger = .stopMeasure ∧ s.cfg.cmdPowerDown = s.cfg.cmdPowerDown ∧ Trigger.idle = .idle) ∧
    ∃ v, serve s.cfg (writeCmdFrame s.cfg s.cfg.cmdPowerDown) (Service.start s) = some v ∧ true = true :=
  ⟨⟨⟨⟨rfl, rfl⟩, rfl⟩, ⟨rfl, rfl⟩, rfl, rfl⟩, by decide, ⟨rfl, rfl, rfl⟩, served (p := fun _ => true) (by decide)⟩
theorem witness_StartMeasureCompletes :
    let s := withSweep .startMeasure .unwritten (slave [(0x8F, 0x02)] [])
    s.readyForTransactions ∧ ((0 : Byte) = 0 ∨ (0 : Byte) = 1) ∧ s.ctx.trigger = .startMeasure ∧
    ∃ v, serve s.cfg (startMeasureFrame s.cfg ++ (statusFrame s.cfg ++ sampleFrame s.cfg)) (Service.start s) = some v ∧
      v.seesBit s.cfg .sweep :=
  ⟨⟨⟨⟨rfl, rfl⟩, rfl⟩, ⟨rfl, rfl⟩, rfl, rfl⟩, by decide, rfl,
    served_with (fun v => rxByte v.bytes 0 &&& awaitedBit _ .sweep ≠ 0) (by decide)⟩
/-- Both operations, with no budget, with a budget of one poll and with one of two. -/
theorem witness_AFirstReadWithTheBitClearGoesOnPolling :
    ∀ budget ∈ [none, some 1, some 2],
      let s := withCfg (fun c => { c with pollBudget := budget }) (withSweep .startMeasure .unwritten (slave [] []))
      s.readyForTransactions ∧ s.ctx.trigger = .startMeasure ∧ s.cfg.pollBudget = budget ∧
      (∃ v, serve s.cfg (startMeasureFrame s.cfg ++ statusFrame s.cfg) (Service.start s) = some v ∧ ¬ v.seesBit s.cfg .sweep) ∧
      (∃ v, serve s.cfg (writeCmdFrame s.cfg s.cfg.cmdMeasureTemp ++ statusFrame s.cfg) (Service.start s) = some v ∧
        ¬ v.seesBit s.cfg .temperature) := by
  intro budget h
  refine ⟨⟨⟨⟨rfl, rfl⟩, rfl⟩, ⟨rfl, rfl⟩, rfl, rfl⟩, rfl, rfl,
    served_with (fun v => ¬ (rxByte v.bytes 0 &&& awaitedBit _ .sweep ≠ 0)) ?_,
    served_with (fun v => ¬ (rxByte v.bytes 0 &&& awaitedBit _ .temperature ≠ 0)) ?_⟩ <;> revert budget <;> decide
/-- Both polls, with nothing for the environment to do and with a pending stop that it leaves. -/
theorem witness_ResumedPollCompletes :
    ∀ job, ∀ pending ∈ [false, true], let s := resumed job pending 0x03
      s.unmarked ∧ s.activity = .polling job 1 none ∧ s.envYields (if pending then s.env.choose.2 else s.env) ∧ s.operational ∧
      s.ctl.phase = .free ∧ s.cfg.stopOverlap = .ordered ∧
      ∃ v, serve s.cfg (pollFrame s.cfg job) (Service.start (s.setEnv (if pending then s.env.choose.2 else s.env))) = some v ∧
        v.seesBit s.cfg job := by
  intro job pending _
  refine ⟨⟨rfl, rfl⟩, rfl, ?_, ⟨rfl, rfl⟩, rfl, rfl, served_with (fun v => rxByte v.bytes 0 &&& awaitedBit _ job ≠ 0) ?_⟩
  · cases pending
    · exact .inl ⟨⟨rfl, rfl⟩, rfl⟩
    · exact .inr ⟨fun h => Bool.noConfusion h.1, rfl⟩
  · cases job <;> cases pending <;> decide
/-- The same, the bit clear, and at the last read of a budget of two. -/
theorem witness_ResumedPollGoesOn :
    ∀ job, ∀ pending ∈ [false, true], ∀ budget ∈ [none, some 2, some 3],
      let s := withCfg (fun c => { c with pollBudget := budget }) (resumed job pending 0)
      s.unmarked ∧ s.activity = .polling job 1 none ∧ s.envYields (if pending then s.env.choose.2 else s.env) ∧ s.operational ∧
      s.ctl.phase = .free ∧ s.cfg.stopOverlap = .ordered ∧ s.cfg.pollBudget = budget ∧
      ∃ v, serve s.cfg (statusFrame s.cfg) (Service.start (s.setEnv (if pending then s.env.choose.2 else s.env))) = some v ∧
        ¬ v.seesBit s.cfg job := by
  intro job pending _ budget h
  refine ⟨⟨rfl, rfl⟩, rfl, ?_, ⟨rfl, rfl⟩, rfl, rfl, rfl, served_with (fun v => ¬ (rxByte v.bytes 0 &&& awaitedBit _ job ≠ 0)) ?_⟩
  · cases pending
    · exact .inl ⟨⟨rfl, rfl⟩, rfl⟩
    · exact .inr ⟨fun h => Bool.noConfusion h.1, rfl⟩
  · revert budget; cases job <;> cases pending <;> decide
theorem witness_MeasureTemperatureCompletes :
    let s := slave [(0x8F, 0x01), (0x92, 0x1F), (0x93, 0xFF)] []
    s.readyForTransactions ∧
    ∃ v, serve s.cfg (writeCmdFrame s.cfg s.cfg.cmdMeasureTemp ++ (statusFrame s.cfg ++ readBlockFrame s.cfg s.cfg.regs.temp 2))
        (Service.start s) = some v ∧ v.seesBit s.cfg .temperature :=
  ⟨slave_ready _ _, served_with (fun v => rxByte v.bytes 0 &&& awaitedBit _ .temperature ≠ 0) (by decide)⟩
theorem witness_AccessorsReturnTheirField (r : Reg Int) :
    let s := (ready []).setCtx { Ctx.bringUp with real := r, imag := r, temperature := r }
    s.accepting ∧ s.ctx.real = r ∧ s.ctx.imag = r ∧ s.ctx.temperature = r := ⟨⟨⟨rfl, rfl⟩, rfl⟩, rfl, rfl, rfl⟩
theorem witness_SetRangeDrivesTheOutput :
    State.reset.accepting ∧ ((1 : Byte) = 0 ∨ (1 : Byte) = 1) ∧ ((2 : Byte) ≠ 0 ∧ (2 : Byte) ≠ 1) :=
  ⟨⟨⟨rfl, rfl⟩, rfl⟩, by decide, by decide⟩

end Sys2Proof.Tests
end

section
/-! PROOFS. The invariant along a step (10_state.md R26 to R32): bring-up satisfies it, and the environment's turn, every
command and every turn of a poll keep it. -/

namespace Sys2Proof.Machine

/-! ### Bring-up -/

@[simp] theorem FaultSet.empty_has (r : FaultReason) : FaultSet.empty.has r = false := by
  cases r <;> rfl

/-- Settles O13: each field of the bring-up state is the literal of the table of R41. -/
theorem bringUpHoldsTheResetValues : Obligations.BringUpHoldsTheResetValues := by
  intro cfg flag
  have hfaults : ∀ r, (State.bringUp cfg flag).ctl.faults.has r = false := FaultSet.empty_has
  exact ⟨State.bringUp cfg flag, rfl, rfl, rfl, rfl, rfl, rfl, rfl, rfl, rfl, rfl, hfaults, rfl, rfl, rfl, rfl, rfl, rfl, rfl, rfl,
    rfl, rfl, rfl⟩

/-- At bring-up the trace is empty, nothing is configured, written or in progress, and the slave's registers are blank. -/
theorem State.bringUp_inv (cfg : Params) (flag : Bool) : (State.bringUp cfg flag).Inv where
  wire := rfl
  enabled := rfl
  divider := ⟨fun _ => rfl, fun _ => rfl⟩
  unconfigured _ := ⟨rfl, rfl, rfl, rfl, rfl⟩
  stop _ := rfl
  unresponsive h := absurd h Bool.false_ne_true
  real := trivial
  imag := trivial
  temperature := trivial
  dft := nofun
  activity := trivial
  late h := absurd rfl h
  memory := rfl

/-- Settles O14, by the invariant of every bring-up state. -/
theorem resetSatisfiesTheInvariant : Obligations.ResetSatisfiesTheInvariant :=
  ⟨rfl, State.bringUp_inv⟩

/-! ### What the invariant reads -/

/-- The invariant reads neither the marks, the output nor the client's record. -/
theorem State.Inv.setUnread {s : State} (h : s.Inv) (f : FaultSet) (r : Bool) (g : Gpio) (c : Client) :
    State.Inv { s with ctl := { s.ctl with faults := f, refused := r }, gpio := g, client := c } :=
  { h with }

theorem State.Inv.setIdle {s : State} (h : s.Inv) : (s.setActivity .idle).Inv :=
  { h with activity := trivial }

theorem State.Inv.bus {s : State} (h : s.Inv) : BusInv s :=
  { h with }

/-- Bus work and writes to the context keep the invariant, up to its clauses about `DftComplete` and the operation in progress. -/
theorem State.Inv.of_work {s t : State} (hs : s.Inv) (h : SweepWork s t)
    (hd : t.ctx.trigger = .dftComplete → t.ctx.lastStatus ≠ .unwritten) (ha : activityOk t) : t.Inv := by
  have hbus : BusInv (t.setCtx s.ctx) := h.bus.keeps hs.bus
  have hconf : t.ctl.configured = s.ctl.configured := h.bus.configured
  have hdiv : t.ctl.divider = s.ctl.divider := h.bus.divider
  have hen : t.ctl.enabled = s.ctl.enabled := h.bus.enabled
  obtain ⟨hreal, himag, htemp⟩ := h.ctx.ranged ⟨hs.real, hs.imag, hs.temperature⟩
  exact
    { hbus with
      enabled := by rw [hen, hconf]; exact hs.enabled
      divider := by rw [hdiv, hconf]; exact hs.divider
      real := hreal
      imag := himag
      temperature := htemp
      dft := hd
      activity := ha }

theorem SweepWork.setActivity {s t : State} (h : SweepWork s t) (a : Activity) : SweepWork s (t.setActivity a) :=
  ⟨{ h.bus with keeps := fun hi => { h.bus.keeps hi with } }, h.ctx⟩

/-- A piece that stopped early leaves the trigger, so `DftComplete` still finds a status (R183). -/
theorem PieceStopped.dft {s t : State} (h : PieceStopped s t) (hs : s.Inv) :
    t.ctx.trigger = .dftComplete → t.ctx.lastStatus ≠ .unwritten :=
  fun ht => h.work.ctx.status (hs.dft (h.trigger.symm.trans ht))

/-! ### The operation in progress -/

theorem activityOk_of_hung {s : State} (h : Hung s) : activityOk s := by
  obtain ⟨act, ha⟩ := h.activity
  unfold activityOk
  rw [ha]
  exact ⟨h.budget, h.flag, h.configured, h.stop⟩

theorem activityOk_of_pollsOn {job : PollJob} {k : Nat} {s t : State} (hp : PieceStopped s t) (h : PollsOn job k s t)
    (hj : job = .sweep → s.ctx.trigger = .startMeasure) : activityOk t := by
  obtain ⟨⟨st, ha⟩, hphase, hconf, hspent, hstatus⟩ := h
  have hcfg : t.cfg = s.cfg := hp.work.bus.cfg
  unfold activityOk
  rw [ha]
  exact ⟨hphase, hconf, Nat.succ_pos k, hcfg ▸ hspent, hstatus, fun h => hp.trigger.trans (hj h)⟩

/-- A sweep poll is in progress only in `StartMeasure` (R182). -/
theorem State.Inv.sweepPoll {s : State} {job : PollJob} {k : Nat} {st : Option Byte} (h : s.Inv)
    (ha : s.activity = .polling job k st) : job = .sweep → s.ctx.trigger = .startMeasure := by
  have hok := h.activity
  unfold activityOk at hok
  rw [ha] at hok
  obtain ⟨-, -, -, -, -, hj⟩ := hok
  exact hj

/-- While a wait hangs the environment has no step to take: no stop is pending, and a late answer would need a budget. -/
theorem State.Inv.quiet_of_waiting {s : State} {act : BusAction} (h : s.Inv) (ha : s.activity = .waiting act) : s.quiet := by
  have hok := h.activity
  unfold activityOk at hok
  rw [ha] at hok
  obtain ⟨hbudget, -, -, hstop⟩ := hok
  refine ⟨hstop, ?_⟩
  by_contra hlate
  exact h.unresponsive (h.late hlate) hbudget

/-! ### The environment's turn -/

theorem envTurn_activity (s : State) : (envTurn s).2.activity = s.activity := by
  obtain ⟨e, pending, flag, status, data, he⟩ := envTurn_only s
  rw [he]
  rfl

theorem State.Inv.envTurnActivity {s : State} (h : s.Inv) : activityOk (envTurn s).2 := by
  have hok := h.activity
  cases ha : s.activity with
  | waiting act =>
    rw [envTurn_yields (.inl ⟨h.quiet_of_waiting ha, rfl⟩)]
    exact hok
  | idle =>
    unfold activityOk
    rw [envTurn_activity, ha]
    trivial
  | polling job k st =>
    obtain ⟨e, pending, flag, status, data, he⟩ := envTurn_only s
    rw [he]
    unfold activityOk at hok ⊢
    simp only [State.setCtl_activity, State.setEnv_activity, ha] at hok ⊢
    exact hok

theorem State.Inv.afterEnvTurn {s : State} (h : s.Inv) : (envTurn s).2.Inv := by
  have hw := envTurn_work s
  exact h.of_work (SweepWork.of_bus hw) (by rw [hw.ctx]; exact h.dft) h.envTurnActivity

/-! ### Facts about an answer, from facts about the body -/

/-- What holds of the states a body ends in holds of its answer, if the ways an operation ends keep it (60_exceptions.md R220). -/
theorem Flow.Within.answer {R : State → State → Prop} {s t : State} {x : Flow OpResult} (hx : x.Within R s)
    (conclude : ∀ u o, R s u → R s (u.conclude o)) (fault : ∀ u r, R s u → R s (raiseFault r u))
    (last : ∀ u o, R s u → R s (u.setLast o)) (h : finish x = .next t) : R s t := by
  obtain ⟨r, u, rfl, rfl⟩ | ⟨u, rfl, rfl⟩ | ⟨r, u, rfl, rfl⟩ | ⟨u, rfl, rfl⟩ := finish_next h
  · exact conclude u _ hx
  · exact conclude u _ hx
  · exact fault u r hx
  · exact last u none hx

/-- The work of a body, however it ends. -/
theorem BodyFacts.within {R : State → State → Prop} {s : State} {x : Flow OpResult} {T : Trigger → Prop} {S : State → Prop}
    (hx : BodyFacts s x T S) (hR : ∀ u, SweepWork s u → R s u) : x.Within R s :=
  Flow.Holds.imp hx (fun _ u h => hR u h.1) (fun u h => hR u h.1.work) (fun u h => hR u h.work) (fun u h => hR u h.1.work)

/-- The two ends of the body of CONFIGURE (40_bus_primitives.md R101). -/
theorem configureBody_within {R : State → State → Prop} {speed : Byte} {s : State} (twice : s.ctl.configured = true → R s s)
    (once : s.ctl.configured = false →
      R s (s.setCtl { s.ctl with enabled := true, divider := .val (Config.divider speed), configured := true })) :
    (configureBody speed s).Within R s := by
  unfold configureBody
  cases hc : s.ctl.configured with
  | true => exact twice hc
  | false => exact once hc

/-- The two ends of the body of BEGIN_SWEEP (42_sweep_controller.md R179). -/
theorem beginSweepBody_within {R : State → State → Prop} {s : State} (busy : R s s) (idle : R s (s.setTrigger .startMeasure)) :
    (beginSweepBody s).Within R s := by
  unfold beginSweepBody
  split
  · exact busy
  · exact idle

/-- The two ends of an accessor (R189 to R191): neither changes the state. -/
theorem accessor_within {R : State → State → Prop} {s : State} (r : Reg Int) (same : R s s) : (accessor r s).Within R s := by
  cases r with
  | unwritten => exact same
  | val v => exact same

/-! ### Commands and polls -/

/-- How the body of an operation ends keeps the invariant, if what it leaves in progress is in order. -/
theorem BodyFacts.inv {s t : State} {x : Flow OpResult} {T : Trigger → Prop} {S : State → Prop} (hx : BodyFacts s x T S)
    (hs : s.Inv) (hS : ∀ u, PieceStopped s u → S u → activityOk u) (h : finish x = .next t) : t.Inv := by
  have ended : ∀ u, SweepWork s u → (u.ctx.trigger = .dftComplete → u.ctx.lastStatus ≠ .unwritten) →
      (u.setActivity .idle).Inv := fun u hw hd => hs.of_work (hw.setActivity .idle) hd trivial
  cases x with
  | done r u =>
    cases h
    obtain ⟨hw, -, -, hd⟩ := hx
    refine (ended u hw fun hu => ?_).setUnread _ _ _ _
    by_cases hsd : s.ctx.trigger = .dftComplete
    · exact hw.ctx.status (hs.dft hsd)
    · exact hd hu hsd
  | quit u =>
    cases h
    obtain ⟨hp, -⟩ := hx
    exact (ended u hp.work (hp.dft hs)).setUnread _ _ _ _
  | fault r u =>
    cases h
    have hp : PieceStopped s u := hx
    exact (ended u hp.work (hp.dft hs)).setUnread _ _ _ _
  | spin u =>
    cases h
    obtain ⟨hp, hspin⟩ := hx
    exact (hs.of_work hp.work (hp.dft hs) (hspin.elim activityOk_of_hung (hS u hp))).setUnread _ _ _ _

/-- CONFIGURE sets its three fields together (R101). -/
theorem State.Inv.configureBodyEnds {s : State} (speed : Byte) (hs : s.Inv) (hidle : s.activity = .idle) :
    (configureBody speed s).Within (fun _ u => u.Inv) s :=
  configureBody_within (fun _ => hs) fun _ =>
    { hs with
      enabled := rfl
      divider := ⟨nofun, nofun⟩
      unconfigured := nofun
      activity := by simp [activityOk, hidle] }

/-- CONFIGURE and SET_RANGE stand apart from the other commands, whose bodies `body_facts` describes. -/
theorem configure_or_setRange_or_other (i : Instr) : (∃ speed, i = .configure speed) ∨ (∃ level, i = .setRange level) ∨
    (∀ speed, i ≠ .configure speed) ∧ ∀ level, i ≠ .setRange level := by
  cases i with
  | configure speed => exact .inl ⟨speed, rfl⟩
  | setRange level => exact .inr (.inl ⟨level, rfl⟩)
  | _ => exact .inr (.inr ⟨nofun, nofun⟩)

theorem State.Inv.afterExec {s t : State} {i : Instr} (hs : s.Inv) (h : exec i s = .next t) : t.Inv := by
  have ends : ∀ x : Flow OpResult, x.Within (fun _ u => u.Inv) s → finish x = .next t → t.Inv := fun x hx hf =>
    hx.answer (fun _ _ hu => hu.setIdle.setUnread _ _ _ _) (fun _ _ hu => hu.setIdle.setUnread _ _ _ _)
      (fun _ _ hu => hu.setUnread _ _ _ _) hf
  obtain ⟨-, ⟨r, rfl⟩ | ⟨hidle, ho, hf⟩⟩ := exec_next h
  · exact hs.setUnread _ _ _ _
  · obtain ⟨speed, rfl⟩ | ⟨level, rfl⟩ | ⟨hc, hr⟩ := configure_or_setRange_or_other i
    · exact ends _ (hs.configureBodyEnds speed hidle) hf
    · exact ends (setRangeBody level s) (hs.setUnread _ _ _ _) hf
    · refine (body_facts i s ho hc hr).inv hs (fun u hp hspin => ?_) hf
      obtain ⟨job, hpolls, hj⟩ := hspin
      exact activityOk_of_pollsOn hp hpolls hj

/-- One turn of a poll, in the terms of `body_facts` (R177). -/
theorem pollTurn_facts (job : PollJob) (k : Nat) (st : Option Byte) (s : State) :
    BodyFacts s (pollTurn job k st s) (fun t => t = job.triggerAfter s.ctx.trigger) (PollsOn job k s) :=
  (pollTurn_holds job k st s).imp (fun _ _ h => ⟨h.1.work, h.1.activity, h.2.1, fun _ _ => h.2.2⟩) (fun _ h => h) (fun _ h => h)
    (fun _ h => h)

/-- Settles O15, by the kinds of step: a hung wait, the environment's turn, a turn of a poll, a refusal, a command. -/
theorem everyStepKeepsTheInvariant : Obligations.EveryStepKeepsTheInvariant := by
  intro s t hs h
  obtain ⟨-, ⟨act, -, rfl⟩ | rfl | ⟨job, k, st, ha, hf⟩ | ⟨-, ⟨e, rfl⟩ | ⟨i, rest, he⟩⟩⟩ := step_cases h
  · exact hs
  · exact hs.afterEnvTurn
  · have hj := hs.afterEnvTurn.sweepPoll ((envTurn_activity s).trans ha)
    exact (pollTurn_facts job k st _).inv hs.afterEnvTurn (fun u hp hpolls => activityOk_of_pollsOn hp hpolls hj) hf
  · exact hs.afterEnvTurn.setUnread _ _ _ _
  · exact State.Inv.afterExec (hs.afterEnvTurn.setUnread _ _ _ _) he

end Sys2Proof.Machine
end

section
/-! PROOFS. What no step takes back (10_state.md R22, R27, R29), and what each command and each resumed poll leaves unchanged (R36). -/

namespace Sys2Proof.Machine

/-! ### What no step takes back -/

@[simp] theorem FaultSet.has_add (f : FaultSet) (q r : FaultReason) : (f.add q).has r = (decide (q = r) || f.has r) := by
  cases q <;> cases r <;> simp [FaultSet.add, FaultSet.has]

theorem Monotone.refl (s : State) : Monotone s s :=
  ⟨rfl, fun h => ⟨h, rfl, rfl⟩, id, id, fun _ => id, ⟨[], (List.append_nil _).symm⟩⟩

theorem Monotone.trans {s t u : State} (h1 : Monotone s t) (h2 : Monotone t u) : Monotone s u where
  cfg := h2.cfg.trans h1.cfg
  configured hc := by
    obtain ⟨hc1, he1, hd1⟩ := h1.configured hc
    obtain ⟨hc2, he2, hd2⟩ := h2.configured hc1
    exact ⟨hc2, he2.trans he1, hd2.trans hd1⟩
  unresponsive h := h2.unresponsive (h1.unresponsive h)
  refused h := h2.refused (h1.refused h)
  faults r h := h2.faults r (h1.faults r h)
  trace := by
    obtain ⟨es1, ht1⟩ := h1.trace
    obtain ⟨es2, ht2⟩ := h2.trace
    exact ⟨es1 ++ es2, by rw [ht2, ht1, List.append_assoc]⟩

theorem SweepWork.monotone {s t : State} (h : SweepWork s t) : Monotone s t where
  cfg := h.bus.cfg
  configured hc := ⟨h.bus.configured.trans hc, h.bus.enabled, h.bus.divider⟩
  unresponsive := h.bus.unresponsive
  refused hr := h.bus.refused.trans hr
  faults r hr := (congrArg (fun f => f.has r) h.bus.faults).trans hr
  trace := h.bus.trace

theorem Monotone.raiseFault {s t : State} (h : Monotone s t) (r : FaultReason) : Monotone s (raiseFault r t) :=
  { h with faults := fun q hq => by simp [h.faults q hq] }

theorem Monotone.refuse {s t : State} (h : Monotone s t) (r : RefusalReason) : Monotone s (refuse r t) :=
  { h with refused := fun _ => rfl }

/-- The answer of a body that took nothing back takes nothing back. -/
theorem Flow.Within.monotone {s t : State} {x : Flow OpResult} (hx : x.Within Monotone s) (h : finish x = .next t) :
    Monotone s t :=
  hx.answer (fun _ _ hu => { hu with }) (fun _ r hu => hu.raiseFault r) (fun _ _ hu => { hu with }) h

theorem bodyOf_monotone {i : Instr} {s : State} (ho : operandsAccepted s.cfg i = true) : (bodyOf i s).Within Monotone s := by
  obtain ⟨speed, rfl⟩ | ⟨level, rfl⟩ | ⟨hc, hr⟩ := configure_or_setRange_or_other i
  · exact configureBody_within (fun _ => Monotone.refl s) fun hfresh =>
      { Monotone.refl s with configured := fun hc => absurd (hc.symm.trans hfresh) Bool.noConfusion }
  · exact { Monotone.refl s with }
  · exact (body_facts i s ho hc hr).within fun _ => SweepWork.monotone

theorem exec_monotone {i : Instr} {s t : State} (h : exec i s = .next t) : Monotone s t := by
  obtain ⟨-, ⟨r, rfl⟩ | ⟨-, ho, hf⟩⟩ := exec_next h
  · exact (Monotone.refl s).refuse r
  · exact (bodyOf_monotone ho).monotone hf

/-- Settles O16, by the kinds of step, each after the environment's turn. -/
theorem noStepTakesBackMarksOrEvents : Obligations.NoStepTakesBackMarksOrEvents := by
  intro s t h
  have henv : Monotone s (envTurn s).2 := (SweepWork.of_bus (envTurn_work s)).monotone
  obtain ⟨-, ⟨act, -, rfl⟩ | rfl | ⟨job, k, st, -, hf⟩ | ⟨-, ⟨e, rfl⟩ | ⟨i, rest, he⟩⟩⟩ := step_cases h
  · exact Monotone.refl _
  · exact henv
  · exact henv.trans (((pollTurn_facts job k st _).within fun _ => SweepWork.monotone).monotone hf)
  · exact henv.refuse e
  · have hinput : Monotone s ((envTurn s).2.setInput rest) := { henv with }
    exact hinput.trans (exec_monotone he)

/-! ### Which fields of the context an operation writes -/

/-- The context `c` with the fields a poll and what follows it write taken from `c'` (42_sweep_controller.md R177, R182, R188). -/
def PollJob.writes : PollJob → Ctx → Ctx → Ctx
  | .sweep, c, c' => { c with trigger := c'.trigger, real := c'.real, imag := c'.imag, lastStatus := c'.lastStatus }
  | .temperature, c, c' => { c with temperature := c'.temperature, lastStatus := c'.lastStatus }

/-- The context `c` with the fields a command writes taken from `c'` (10_state.md R36). -/
def ctxWrites : Instr → Ctx → Ctx → Ctx
  | .configureSweep _ _ _, c, c' => { c with
      startCode := c'.startCode, deltaCode := c'.deltaCode, nInc := c'.nInc, settleCode := c'.settleCode, trigger := c'.trigger }
  | .beginSweep, c, c' => { c with trigger := c'.trigger }
  | .processStep _, c, c' => PollJob.sweep.writes c c'
  | .measureTemperature, c, c' => PollJob.temperature.writes c c'
  | _, c, _ => c

/-- Taking the fields of a fixed set from another context: from the context itself it changes nothing, and the last one counts. -/
structure Overlay (w : Ctx → Ctx → Ctx) : Prop where
  self : ∀ c, w c c = c
  last : ∀ c c' c'', w (w c c') c'' = w c c''

theorem PollJob.writes_overlay (job : PollJob) : Overlay job.writes := by
  cases job <;> exact ⟨fun _ => rfl, fun _ _ _ => rfl⟩

theorem ctxWrites_overlay (i : Instr) : Overlay (ctxWrites i) := by
  cases i <;> exact ⟨fun _ => rfl, fun _ _ _ => rfl⟩

/-- The command stream, the parameters and the context's fields outside `w` are as before; so is the output, unless driven. -/
structure LeavesBut (w : Ctx → Ctx → Ctx) (driven : Prop) (s t : State) : Prop where
  input : t.client.input = s.client.input
  cfg : t.cfg = s.cfg
  gpio : ¬ driven → t.gpio = s.gpio
  ctx : t.ctx = w s.ctx t.ctx

section
variable {w : Ctx → Ctx → Ctx} {driven : Prop}

theorem LeavesBut.refl (hw : Overlay w) (s : State) : LeavesBut w driven s s :=
  ⟨rfl, rfl, fun _ => rfl, (hw.self _).symm⟩

theorem FrameRel.leavesBut (hw : Overlay w) : FrameRel (LeavesBut w driven) where
  refl s := LeavesBut.refl hw s
  trans {s t u} h1 h2 :=
    { input := h2.input.trans h1.input
      cfg := h2.cfg.trans h1.cfg
      gpio := fun hd => (h2.gpio hd).trans (h1.gpio hd)
      ctx := calc
        u.ctx = w t.ctx u.ctx := h2.ctx
        _ = w (w s.ctx t.ctx) u.ctx := by rw [← h1.ctx]
        _ = w s.ctx u.ctx := hw.last _ _ _ }
  cfg h := h.cfg
  setCtl s _ := { LeavesBut.refl hw s with }
  setActivity s _ := { LeavesBut.refl hw s with }
  setLast s _ := { LeavesBut.refl hw s with }

theorem LeavesBut.setCtx {s : State} {c : Ctx} (h : c = w s.ctx c) : LeavesBut w driven s (s.setCtx c) :=
  ⟨rfl, rfl, fun _ => rfl, h⟩

theorem LeavesBut.of_bus (hw : Overlay w) {s t : State} (h : BusWork s t) : LeavesBut w driven s t :=
  ⟨congrArg Client.input h.client, h.cfg, fun _ => h.gpio, by rw [h.ctx, hw.self]⟩

/-! ### The frame of each body -/

theorem runPrim_leaves (hw : Overlay w) (p : Prim) (s : State) : (runPrim p s).Within (LeavesBut w driven) s :=
  (runPrim_holds p s).imp (fun _ _ h => .of_bus hw h.1) (fun _ h => h.elim) (fun _ h => .of_bus hw h) (fun _ h => .of_bus hw h.1)

theorem transactionBody_leaves (hw : Overlay w) {ps : List Prim} (h : EndsInStop ps) (v : Txn → OpResult) (s : State) :
    (transactionBody ps v s).Within (LeavesBut w driven) s := by
  unfold transactionBody
  refine Flow.Within.bind (FrameRel.leavesBut hw) ?_ (fun _ u _ => LeavesBut.refl hw u)
  exact (transaction_holds h s).imp (fun _ _ h => .of_bus hw h.1) (fun _ h => h.elim) (fun _ h => .of_bus hw h)
    (fun _ h => .of_bus hw h.1)

theorem innerTxn_leaves (hw : Overlay w) {ps : List Prim} (h : EndsInStop ps) (s : State) :
    (innerTxn ps s).Within (LeavesBut w driven) s :=
  (innerTxn_holds h s).imp (fun _ _ h => .of_bus hw h.work) (fun _ h => .of_bus hw h.1) (fun _ h => .of_bus hw h)
    (fun _ h => .of_bus hw h.1)

theorem commands_leave (hw : Overlay w) (cfg : Params) : CmdWithin (LeavesBut w driven) cfg :=
  fun _ u _ => innerTxn_leaves hw (writeByteSeq_ends ..) u

theorem reads_leave (hw : Overlay w) (cfg : Params) : ReadsWithin (LeavesBut w driven) cfg :=
  ⟨fun _ u _ => innerTxn_leaves hw (readBlockSeq_ends ..) u, fun u _ => innerTxn_leaves hw (readByteSeq_ends ..) u⟩

end

theorem PollJob.writes_leave (job : PollJob) (driven : Prop) : job.writesWithin (LeavesBut job.writes driven) := by
  cases job with
  | sweep => exact ⟨fun _ _ => .setCtx rfl, fun _ _ _ => .setCtx rfl, fun _ => .setCtx rfl⟩
  | temperature => exact ⟨fun _ _ => .setCtx rfl, fun _ _ => .setCtx rfl⟩

theorem pollTurn_leaves (job : PollJob) (k : Nat) (st : Option Byte) (driven : Prop) (s : State) :
    (pollTurn job k st s).Within (LeavesBut job.writes driven) s :=
  have hw := job.writes_overlay
  pollTurn_within (.leavesBut hw) (reads_leave hw _) (fun _ => commands_leave hw _) (job.writes_leave driven)

/-- The frame of every body. -/
theorem bodyOf_leaves (i : Instr) (s : State) :
    (bodyOf i s).Within (LeavesBut (ctxWrites i) (∃ level, i = .setRange level)) s := by
  have hw := ctxWrites_overlay i
  cases i with
  | configure speed => exact configureBody_within (fun _ => .refl hw s) fun _ => (FrameRel.leavesBut hw).setCtl s _
  | start => exact runPrim_leaves hw _ s
  | sendAddr => exact runPrim_leaves hw _ s
  | sendByte => exact runPrim_leaves hw _ s
  | recvAck => exact runPrim_leaves hw _ s
  | recvNack => exact runPrim_leaves hw _ s
  | stop => exact runPrim_leaves hw _ s
  | setPointer => exact transactionBody_leaves hw (setPointerSeq_ends ..) _ s
  | writeByte => exact transactionBody_leaves hw (writeByteSeq_ends ..) _ s
  | writeBlock => exact transactionBody_leaves hw (writeBlockSeq_ends ..) _ s
  | readByte => exact transactionBody_leaves hw (readByteSeq_ends ..) _ s
  | readBlock => exact transactionBody_leaves hw (readBlockSeq_ends ..) _ s
  | configureSweep f d n =>
    exact configureSweepBody_within (.leavesBut hw) (commands_leave hw _)
      (fun _ _ u _ _ => innerTxn_leaves hw (writeBlockSeq_ends ..) u) (.setCtx rfl) (fun _ => .setCtx rfl)
  | beginSweep => exact beginSweepBody_within (.refl hw s) (.setCtx rfl)
  | processStep choice =>
    exact processStepBody_within (.leavesBut hw) (reads_leave hw _) (commands_leave hw _) (PollJob.sweep.writes_leave _)
      (fun _ _ => .setCtx rfl)
  | measureTemperature =>
    exact measureTemperatureBody_within (.leavesBut hw) (reads_leave hw _) (commands_leave hw _) (PollJob.temperature.writes_leave _)
  | getReal => exact accessor_within _ (.refl hw s)
  | getImag => exact accessor_within _ (.refl hw s)
  | getTemperature => exact accessor_within _ (.refl hw s)
  | setRange level => exact ⟨rfl, rfl, fun h => absurd ⟨level, rfl⟩ h, rfl⟩

theorem exec_leaves {i : Instr} {s t : State} (h : exec i s = .next t) :
    LeavesBut (ctxWrites i) (∃ level, i = .setRange level) s t := by
  have hw := ctxWrites_overlay i
  obtain ⟨-, ⟨r, rfl⟩ | ⟨-, -, hf⟩⟩ := exec_next h
  · exact { LeavesBut.refl hw s with }
  · exact (FrameRel.leavesBut hw).finish (bodyOf_leaves i s) hf

/-- A step of an operation that is polling: the environment's, or one turn of the poll. -/
theorem step_poll_leaves {job : PollJob} {k : Nat} {st : Option Byte} {s t : State} (ha : s.activity = .polling job k st)
    (h : step s = .next t) : LeavesBut job.writes False s t := by
  have hw := job.writes_overlay
  have henv : LeavesBut job.writes False s (envTurn s).2 := .of_bus hw (envTurn_work s)
  obtain ⟨-, ⟨act, hwait, -⟩ | rfl | ⟨job', k', st', ha', hf⟩ | ⟨hidle, -⟩⟩ := step_cases h
  · rw [ha] at hwait; cases hwait
  · exact henv
  · rw [ha] at ha'
    cases ha'
    exact (FrameRel.leavesBut hw).trans henv ((FrameRel.leavesBut hw).finish (pollTurn_leaves job k st False _) hf)
  · rw [ha] at hidle; cases hidle

/-! ### What CONFIGURE alone writes, and what needs bus work -/

/-- The three fields that CONFIGURE writes are as before (40_bus_primitives.md R101). -/
structure SameSetup (s t : State) : Prop where
  configured : t.ctl.configured = s.ctl.configured
  enabled : t.ctl.enabled = s.ctl.enabled
  divider : t.ctl.divider = s.ctl.divider

theorem SweepWork.sameSetup {s t : State} (h : SweepWork s t) : SameSetup s t :=
  ⟨h.bus.configured, h.bus.enabled, h.bus.divider⟩

theorem exec_sameSetup {i : Instr} {s t : State} (hi : ∀ speed, i ≠ .configure speed) (h : exec i s = .next t) :
    SameSetup s t := by
  obtain ⟨-, ⟨r, rfl⟩ | ⟨-, ho, hf⟩⟩ := exec_next h
  · exact ⟨rfl, rfl, rfl⟩
  · refine Flow.Within.answer (R := SameSetup) ?_ (fun _ _ hu => { hu with }) (fun _ _ hu => { hu with })
      (fun _ _ hu => { hu with }) hf
    obtain ⟨speed, rfl⟩ | ⟨level, rfl⟩ | ⟨hc, hr⟩ := configure_or_setRange_or_other i
    · exact absurd rfl (hi speed)
    · exact ⟨rfl, rfl, rfl⟩
    · exact (body_facts i s ho hc hr).within fun _ => SweepWork.sameSetup

/-- Nothing that bus work would change has changed: the bus registers, the trace and the environment. -/
structure NoBusWork (s t : State) : Prop where
  flag : t.ctl.flag = s.ctl.flag
  status : t.ctl.status = s.ctl.status
  data : t.ctl.data = s.ctl.data
  phase : t.ctl.phase = s.ctl.phase
  trace : t.ctl.trace = s.ctl.trace
  stopPending : t.ctl.stopPending = s.ctl.stopPending
  unresponsive : t.ctl.unresponsive = s.ctl.unresponsive
  env : t.env = s.env

theorem NoBusWork.refl (s : State) : NoBusWork s s :=
  ⟨rfl, rfl, rfl, rfl, rfl, rfl, rfl, rfl⟩

/-- The commands without bus work. -/
def offBus : Instr → Prop
  | .configure _ => True
  | .beginSweep => True
  | .getReal => True
  | .getImag => True
  | .getTemperature => True
  | .setRange _ => True
  | _ => False

theorem bodyOf_noBusWork {i : Instr} (hi : offBus i) (s : State) : (bodyOf i s).Within NoBusWork s := by
  cases i with
  | configure speed => exact configureBody_within (fun _ => .refl s) fun _ => { NoBusWork.refl s with }
  | beginSweep => exact beginSweepBody_within (.refl s) { NoBusWork.refl s with }
  | getReal => exact accessor_within _ (.refl s)
  | getImag => exact accessor_within _ (.refl s)
  | getTemperature => exact accessor_within _ (.refl s)
  | setRange level => exact { NoBusWork.refl s with }
  | _ => exact hi.elim

theorem exec_noBusWork {i : Instr} {s t : State} (hi : offBus i) (h : exec i s = .next t) : NoBusWork s t := by
  obtain ⟨-, ⟨r, rfl⟩ | ⟨-, -, hf⟩⟩ := exec_next h
  · exact { NoBusWork.refl s with }
  · exact (bodyOf_noBusWork hi s).answer (fun _ _ hu => { hu with }) (fun _ _ hu => { hu with }) (fun _ _ hu => { hu with }) hf

/-- Settles O20, by the frames of the commands and of a resumed poll. -/
theorem whatEachCommandLeavesUnchanged : Obligations.WhatEachCommandLeavesUnchanged := by
  refine ⟨fun i s t h => ?_, fun job k st s t ha h => ?_⟩
  · obtain ⟨hinput, hcfg, hgpio, hctx⟩ := exec_leaves h
    refine ⟨hinput, hcfg, fun hi => hgpio fun ⟨level, hl⟩ => hi level hl, ?_, fun hi => ?_, fun hi => ?_⟩
    · cases i <;> exact hctx
    · obtain ⟨hc, he, hd⟩ := exec_sameSetup hi h
      exact ⟨hc, he, hd⟩
    · have hoff : offBus i := by cases i <;> exact hi
      obtain ⟨hflag, hstatus, hdata, hphase, htrace, hstop, hunresp, henv⟩ := exec_noBusWork hoff h
      exact ⟨hflag, hstatus, hdata, hphase, htrace, hstop, hunresp, henv, fun a => by rw [henv]⟩
  · obtain ⟨hinput, hcfg, hgpio, hctx⟩ := step_poll_leaves ha h
    refine ⟨hinput, hcfg, hgpio id, ?_⟩
    cases job <;> exact hctx

end Sys2Proof.Machine
end

section
/-! PROOFS. The register file of the reference slave (20_memory.md R50, 92_eei_decisions.md D39) and values sent as bytes (R51). -/

namespace Sys2Proof.Machine

/-- Settles O45, by the laws of the register file: a write keeps the canonical form and is read back at its address only. -/
theorem registerFileReadsWhatWasWritten : Obligations.RegisterFileReadsWhatWasWritten :=
  fun _ _ _ _ hm ha => ⟨Memory.write_wf ha hm, Memory.read_write hm⟩

/-- Two bytes are assembled big-endian (41_register_access.md R150). -/
theorem assemble_two (cfg : Params) (a b : Byte) : assemble cfg 2 [a, b] = (join2 a b).toNat := rfl

/-- Three bytes are assembled big-endian under `READ3 = Combine` (R150). -/
theorem assemble_three_of_combine {cfg : Params} (h : cfg.read3 = .combine) (a b c : Byte) :
    assemble cfg 3 [a, b, c] = (join3 a b c).toNat := by
  simp [assemble, h, rxByte]

/-- Settles O43: at each width the bytes of a value join to that value. -/
theorem bigEndianRoundTrip : Obligations.BigEndianRoundTrip := by
  refine ⟨fun cfg v => ?_, fun cfg v h => ?_⟩
  · rw [bytes2, assemble_two, join2_bytes2]
  · rw [bytes3, assemble_three_of_combine h, join3_bytes3]

end Sys2Proof.Machine
end

section
/-! PROOFS. The command stream: the decoder and the encoder are inverse to each other, and what does not decode is named
(30_encoding.md R70 to R74). -/

namespace Sys2Proof

/-! ### The opcode map -/

/-- The gaps of the opcode map of R72 are the values R74 lists. -/
theorem Opcode.ofByte_eq_none_iff (b : Byte) : Opcode.ofByte b = none ↔
    (b.toNat = 0x00 ∨ (0x08 ≤ b.toNat ∧ b.toNat ≤ 0x0F) ∨ (0x15 ≤ b.toNat ∧ b.toNat ≤ 0x1F) ∨ (0x28 ≤ b.toNat ∧ b.toNat ≤ 0xFF)) := by
  have hb := b.isLt
  have hnone : Opcode.ofByte b = none ↔ Opcode.all.all (fun op => op.byte.toNat != b.toNat) := by
    simp [Opcode.ofByte, BitVec.toNat_inj]
  simp only [hnone, Opcode.all, List.all_cons, List.all_nil, Opcode.byte, BitVec.reduceToNat, Bool.and_eq_true, bne_iff_ne,
    and_true]
  omega

/-! ### The decoder, by its first byte -/

theorem decode_of_operands {op : Opcode} {bs rest : List Byte} {i : Instr} (h : decodeOperands op bs = some (i, rest)) :
    decode (op.byte :: bs) = .ok i rest := by
  simp [decode, h]

theorem decode_of_missing_operands {op : Opcode} {bs : List Byte} (h : decodeOperands op bs = none) :
    decode (op.byte :: bs) = .invalid .truncated := by
  simp [decode, h]

/-- What a decoded byte string starts with. -/
theorem decode_ok {bs rest : List Byte} {i : Instr} (h : decode bs = .ok i rest) :
    ∃ (op : Opcode) (operands : List Byte), bs = op.byte :: operands ∧ decodeOperands op operands = some (i, rest) := by
  cases bs with
  | nil => cases h
  | cons b operands =>
    cases hop : Opcode.ofByte b with
    | none => simp [decode, hop] at h
    | some op =>
      rw [← Opcode.byte_of_ofByte hop] at h ⊢
      cases ho : decodeOperands op operands with
      | none => rw [decode_of_missing_operands ho] at h; cases h
      | some x =>
        rw [decode_of_operands ho] at h
        cases h
        exact ⟨op, operands, rfl, ho⟩

theorem decode_invalidOpcode_iff (b : Byte) (bs : List Byte) :
    decode (b :: bs) = .invalid .invalidOpcode ↔ Opcode.ofByte b = none := by
  cases hop : Opcode.ofByte b with
  | none => simp [decode, hop]
  | some op =>
    rw [← Opcode.byte_of_ofByte hop]
    cases ho : decodeOperands op bs with
    | none => simp [decode_of_missing_operands ho]
    | some x => simp [decode_of_operands ho]

/-! ### The operands -/

/-- The operand bytes of a well-formed command decode to it (R71, R72). -/
theorem decodeOperands_encodeOperands {i : Instr} (hw : i.wellFormed = true) (rest : List Byte) :
    decodeOperands i.opcode (encodeOperands i ++ rest) = some (i, rest) := by
  cases i with
  | writeBlock reg n bs =>
    have hl : bs.length = n.toNat := by simpa [Instr.wellFormed] using hw
    simp [decodeOperands, encodeOperands, Instr.opcode, splitExact_eq, ← hl]
  | configureSweep startHz deltaHz nInc =>
    simp [decodeOperands, encodeOperands, Instr.opcode, bytes4, bytes2, join4_bytes4, join2_bytes2]
  | _ => rfl

/-- Operand bytes that decode are those of a well-formed command of that opcode, and the rest (R73). -/
theorem decodeOperands_some {op : Opcode} {bs rest : List Byte} {i : Instr} (h : decodeOperands op bs = some (i, rest)) :
    i.opcode = op ∧ i.wellFormed = true ∧ bs = encodeOperands i ++ rest := by
  cases op with
  | start | recvAck | recvNack | stop | beginSweep | measureTemperature | getReal | getImag | getTemperature =>
    cases h
    exact ⟨rfl, rfl, rfl⟩
  | configure | sendAddr | sendByte | setPointer | readByte | processStep | setRange =>
    cases bs with
    | nil => cases h
    | cons operand rest => cases h; exact ⟨rfl, rfl, rfl⟩
  | writeByte | readBlock =>
    match bs with
    | [] | [_] => cases h
    | _ :: _ :: _ => cases h; exact ⟨rfl, rfl, rfl⟩
  | writeBlock =>
    match bs with
    | [] | [_] => cases h
    | _ :: n :: payload =>
      simp only [decodeOperands, splitExact_eq] at h
      split at h
      · next hn =>
        cases h
        exact ⟨rfl, by simpa [Instr.wellFormed] using hn, by simp [encodeOperands]⟩
      · cases h
  | configureSweep =>
    simp only [decodeOperands] at h
    split at h
    · cases h
      exact ⟨rfl, rfl, by simp [encodeOperands, bytes4_join4, bytes2_join2]⟩
    · cases h

/-! ### The two directions of the round trip -/

/-- Settles O1, by the round trip of the operands after the opcode byte. -/
theorem decodeOfEncodeIsTheCommand : Obligations.DecodeOfEncodeIsTheCommand :=
  fun _ rest hw => decode_of_operands (decodeOperands_encodeOperands hw rest)

/-- Settles O2: the opcode byte and the operands each have one reading. -/
theorem decodedBytesAreTheEncoding : Obligations.DecodedBytesAreTheEncoding := by
  intro bs i rest h
  obtain ⟨op, operands, rfl, ho⟩ := decode_ok h
  obtain ⟨rfl, hw, rfl⟩ := decodeOperands_some ho
  exact ⟨hw, rfl⟩

/-! ### Byte strings that are no command -/

/-- Settles O3, by the gaps of the opcode map. -/
theorem reservedOpcodesAreInvalid : Obligations.ReservedOpcodesAreInvalid :=
  fun b bs => (decode_invalidOpcode_iff b bs).trans (Opcode.ofByte_eq_none_iff b)

/-- Bytes added to the stream do not change the command at its head (R70). -/
theorem decode_append {bs rest : List Byte} {i : Instr} (h : decode bs = .ok i rest) (more : List Byte) :
    decode (bs ++ more) = .ok i (rest ++ more) := by
  obtain ⟨hw, rfl⟩ := decodedBytesAreTheEncoding bs i rest h
  rw [List.append_assoc]
  exact decodeOfEncodeIsTheCommand i _ hw

/-- Settles O4: the opcode byte is there, and a command found before the cut would leave the bytes after it unread. -/
theorem cutCommandIsTruncated : Obligations.CutCommandIsTruncated := by
  intro i k hw hk hlen
  have hwhole : decode (encode i) = .ok i [] := by simpa using decodeOfEncodeIsTheCommand i [] hw
  obtain ⟨n, rfl⟩ := Nat.exists_eq_succ_of_ne_zero hk.ne'
  cases ho : decodeOperands i.opcode ((encodeOperands i).take n) with
  | none => exact decode_of_missing_operands ho
  | some x =>
    obtain ⟨j, rest⟩ := x
    have hcut : decode ((encode i).take (n + 1)) = .ok j rest := decode_of_operands ho
    have hagain := decode_append hcut ((encode i).drop (n + 1))
    rw [List.take_append_drop, hwhole, Decoded.ok.injEq] at hagain
    obtain ⟨-, hunread⟩ := hagain
    obtain ⟨-, hdrop⟩ := List.append_eq_nil_iff.1 hunread.symm
    exact absurd (List.drop_eq_nil_iff.1 hdrop) (by omega)

/-- Settles O5, by running the decoder on the seven words. -/
theorem wordsFromTheOpcodeMapDecode : Obligations.WordsFromTheOpcodeMapDecode := by
  refine ⟨?_, ?_, ?_, ?_, ?_, ?_, ?_⟩ <;> decide

end Sys2Proof
end

section
/-! PROOFS. The step at the head of the command stream, and the operands the block refuses (30_encoding.md R70, R74, R75). -/

namespace Sys2Proof.Machine

/-! ### The next command -/

theorem fetch_of_decode_ok {s : State} {i : Instr} {rest : List Byte} (h : decode s.client.input = .ok i rest) :
    fetch s = .perform i (s.setInput rest) := by
  unfold fetch
  cases hin : s.client.input with
  | nil => rw [hin] at h; cases h
  | cons b bs => rw [hin] at h; simp [h]

theorem fetch_of_decode_invalid {s : State} {err : DecodeError} (hne : s.client.input ≠ [])
    (h : decode s.client.input = .invalid err) : fetch s = .answer (.next (refuse (refusalOf err) s)) := by
  unfold fetch
  cases hin : s.client.input with
  | nil => exact absurd hin hne
  | cons b bs => rw [hin] at h; simp [h]

/-- Settles O6: an idle step is the fetched command, where the environment leaves the step to the block. -/
theorem stepPerformsTheDecodedCommand : Obligations.StepPerformsTheDecodedCommand := by
  intro s i rest e hs he hd
  rw [step_idle hs he, fetch_of_decode_ok (s := s.setEnv e) hd]

/-- Settles O7: an idle step that fetches no command is its refusal, with the reason of R227. -/
theorem stepRefusesBytesThatAreNoCommand : Obligations.StepRefusesBytesThatAreNoCommand := by
  intro s err e hs he hne hd
  rw [step_idle hs he, fetch_of_decode_invalid (s := s.setEnv e) hne hd]
  cases err <;> rfl

/-! ### The operands the block refuses -/

/-- The table of R75, as a predicate and as the machine's own test. -/
theorem operandsAccepted_iff (cfg : Params) (i : Instr) : operandsAccepted cfg i = true ↔ ¬ operandRefused cfg i := by
  cases i with
  | configure speed => simp [operandsAccepted, operandRefused]
  | readBlock reg n => simp [operandsAccepted, operandRefused]
  | configureSweep startHz deltaHz nInc => simp [operandsAccepted, operandRefused]
  | processStep choice => simp [operandsAccepted, operandRefused, or_iff_not_imp_left]
  | setRange level => simp [operandsAccepted, operandRefused, or_iff_not_imp_left]
  | _ => simp [operandsAccepted, operandRefused]

/-- An accepting block refuses a command whose operands do not pass (60_exceptions.md R227, R230). -/
theorem exec_badOperand {i : Instr} {s : State} (hs : s.accepting) (ho : operandRefused s.cfg i) :
    exec i s = .next (refuse .badOperand s) := by
  have hna : operandsAccepted s.cfg i = false := by
    rw [← Bool.not_eq_true, operandsAccepted_iff]
    exact not_not_intro ho
  obtain ⟨⟨hfaults, hrefused⟩, hidle⟩ := hs
  rw [exec_body]
  simp [command, hfaults, hrefused, hidle, hna]

/-- No body sets the refusal mark: once the operands have passed, an operation completes or faults (60_exceptions.md R220). -/
theorem bodyOf_keeps_refused {i : Instr} {s : State} (ho : operandsAccepted s.cfg i = true) :
    (bodyOf i s).Within (fun s u => u.ctl.refused = s.ctl.refused) s := by
  obtain ⟨speed, rfl⟩ | ⟨level, rfl⟩ | ⟨hc, hr⟩ := configure_or_setRange_or_other i
  · exact configureBody_within (fun _ => rfl) fun _ => rfl
  · exact rfl
  · exact (body_facts i s ho hc hr).within fun _ hw => hw.bus.refused

/-- Settles O12: the test of R75 comes before the body, and no body refuses. -/
theorem exactlyTheseOperandsAreRefused : Obligations.ExactlyTheseOperandsAreRefused := by
  intro s i hs
  refine ⟨fun ho => exec_badOperand hs ho, fun ho t h => ?_⟩
  have hacc := (operandsAccepted_iff s.cfg i).2 ho
  rw [exec_body, command_accepting hs hacc] at h
  have hsame : t.ctl.refused = s.ctl.refused :=
    (bodyOf_keeps_refused hacc).answer (fun _ _ hu => hu) (fun _ _ hu => hu) (fun _ _ hu => hu) h
  obtain ⟨⟨-, hrefused⟩, -⟩ := hs
  rw [hsame, hrefused]

end Sys2Proof.Machine
end

section
/-! PROOFS. The bus primitives: the phases of R106, how the preamble of R100 can come out, and the exact next state of each primitive
that completes (40_bus_primitives.md R101, R108 to R113), that a check stops (R100), or that waits in vain (R103, R105). -/

namespace Sys2Proof.Machine

/-! ### The phases a primitive is allowed in (R106) -/

@[simp] theorem Prim.start_allowed_iff (ph : BusPhase) :
    Prim.start.allowed ph = true ↔ ph = .free ∨ ph = .tx ∨ ph = .rx true := by
  cases ph <;> simp [Prim.allowed]

@[simp] theorem Prim.sendAddr_allowed_iff (a : Byte) (ph : BusPhase) : (Prim.sendAddr a).allowed ph = true ↔ ph = .started := by
  cases ph <;> simp [Prim.allowed]

@[simp] theorem Prim.sendByte_allowed_iff (b : Byte) (ph : BusPhase) : (Prim.sendByte b).allowed ph = true ↔ ph = .tx := by
  cases ph <;> simp [Prim.allowed]

@[simp] theorem Prim.recvAck_allowed_iff (ph : BusPhase) : Prim.recvAck.allowed ph = true ↔ ph = .rx false := by
  cases ph <;> simp [Prim.allowed]

@[simp] theorem Prim.recvNack_allowed_iff (ph : BusPhase) : Prim.recvNack.allowed ph = true ↔ ph = .rx false := by
  cases ph <;> simp [Prim.allowed]

@[simp] theorem Prim.stop_allowed_iff (ph : BusPhase) : Prim.stop.allowed ph = true ↔ ph = .tx ∨ ph = .rx true := by
  cases ph <;> simp [Prim.allowed]

/-! ### CONFIGURE (R101) -/

/-- A fault raised by a command that was performed: nothing was in progress, and nothing is. -/
theorem raiseFault_idle {s : State} (r : FaultReason) (h : s.activity = .idle) :
    raiseFault r s = (s.setCtl { s.ctl with faults := s.ctl.faults.add r }).setLast (some (.faulted r)) :=
  conclude_idle _ h

theorem exec_configure {s : State} {speed : Byte} (hs : s.accepting) (h : speed ∈ s.cfg.speedClasses) :
    exec (.configure speed) s = finish (configureBody speed s) :=
  command_accepting hs (List.contains_iff_mem.2 h)

theorem configureBody_first {s : State} (speed : Byte) (hc : s.ctl.configured = false) :
    configureBody speed s =
      .done .unit (s.setCtl { s.ctl with enabled := true, divider := .val (Config.divider speed), configured := true }) := by
  simp [configureBody, hc]

theorem configureBody_again {s : State} (speed : Byte) (hc : s.ctl.configured = true) :
    configureBody speed s = .fault .configureTwice s := by
  simp [configureBody, hc]

/-- Settles O23: the operand check, and the two branches of the body. -/
theorem configureCompletesOnce : Obligations.ConfigureCompletesOnce := by
  intro s speed hs
  have hidle : s.activity = .idle := hs.2
  refine ⟨rfl, fun hspeed => exec_badOperand hs hspeed, fun hspeed hc => ?_, fun hspeed hc => ?_⟩
  · rw [exec_configure hs hspeed, configureBody_first speed hc, finish, conclude_idle _ (by exact hidle)]
    rfl
  · rw [exec_configure hs hspeed, configureBody_again speed hc, finish, raiseFault_idle _ hidle]
    rfl

/-! ### A ready primitive that completes -/

/-- An awaited primitive issued in a ready block, when the environment completes its action in time (R108 to R112). -/
theorem exec_prim_done {p : Prim} {s : State} {raw d : Byte} {late : Nat} {env : Env} (hs : s.accepting) (ho : s.operational)
    (hh : s.stopHarmless) (ha : p.allowed s.ctl.phase = true) (hp : p ≠ .stop)
    (he : s.env.receive s.cfg (p.action s.ctl.phase) = (.done raw d late, env)) (ht : inTime s.cfg late = true) :
    exec p.instr s = .next ((afterPrim p raw d env s).setLast (some (.completed (p.result s.cfg raw d)))) := by
  have hidle : (afterPrim p raw d env s).activity = .idle := hs.2
  rw [exec_prim hs, runPrim_done ho hh ha hp he ht, finish, conclude_idle _ hidle]

/-- The action START launches: a start in `Free`, a repeated start in the other phases it is allowed in (R108). -/
theorem Prim.start_action {ph : BusPhase} {act : BusAction}
    (h : ph = .free ∧ act = .start ∨ (ph = .tx ∨ ph = .rx true) ∧ act = .repStart) :
    Prim.start.allowed ph = true ∧ Prim.start.action ph = act := by
  obtain ⟨rfl, rfl⟩ | ⟨rfl | rfl, rfl⟩ := h <;> exact ⟨rfl, rfl⟩

theorem Prim.start_event (ph : BusPhase) (d : Byte) :
    (Prim.start.action ph).event d = if ph = .free then .s else .sr := by
  cases ph <;> rfl

/-- A start condition carries no data (R102, R103). -/
theorem Prim.start_data (ph : BusPhase) (old : Reg Byte) (d : Byte) :
    (Prim.start.action ph).incoming ((Prim.start.action ph).outgoing old) d = old := by
  cases ph <;> rfl

/-- Settles O24, by the run of a ready primitive. -/
theorem startCompletes : Obligations.StartCompletes := by
  intro s act raw d late env hs ho hh hph he ht
  obtain ⟨ha, rfl⟩ := Prim.start_action hph
  refine (exec_prim_done (p := .start) hs ho hh ha nofun he ht).trans ?_
  rw [afterPrim, Prim.start_event, Prim.start_data]
  rfl

/-- Settles O25, by the run of a ready primitive. -/
theorem sendAddrCompletes : Obligations.SendAddrCompletes := by
  intro s a raw d late env hs ho hh hph he ht
  exact exec_prim_done (p := .sendAddr a) hs ho hh (by simp [hph]) nofun he ht

/-- Settles O26, by the run of a ready primitive. -/
theorem sendByteCompletes : Obligations.SendByteCompletes := by
  intro s b raw d late env hs ho hh hph he ht
  have hphase : (Prim.sendByte b).phaseAfter = s.ctl.phase := hph.symm
  refine (exec_prim_done (p := .sendByte b) hs ho hh (by simp [hph]) nofun he ht).trans ?_
  rw [afterPrim, hphase]
  rfl

/-- Settles O27, by the run of a ready primitive. -/
theorem recvAckCompletes : Obligations.RecvAckCompletes := by
  intro s raw d late env hs ho hh hph he ht
  have hphase : Prim.recvAck.phaseAfter = s.ctl.phase := hph.symm
  refine (exec_prim_done (p := .recvAck) hs ho hh (by simp [hph]) nofun he ht).trans ?_
  rw [afterPrim, hphase]
  rfl

/-- Settles O28, by the run of a ready primitive. -/
theorem recvNackCompletes : Obligations.RecvNackCompletes := by
  intro s raw d late env hs ho hh hph he ht
  exact exec_prim_done (p := .recvNack) hs ho hh (by simp [hph]) nofun he ht

/-- Settles O29, by the run of a ready STOP. -/
theorem stopCompletes : Obligations.StopCompletes := by
  intro s hs ho hh hph
  have hidle : (afterStop s).activity = .idle := hs.2
  refine (exec_prim (p := .stop) hs).trans ?_
  rw [runPrim_stop ho hh (by simpa using hph), finish, conclude_idle _ hidle]
  rfl

/-! ### A primitive that a check of the preamble stops (R100) -/

theorem runPrim_notConfigured {p : Prim} {s : State} (hc : s.ctl.configured = false) :
    runPrim p s = .fault .notConfigured s := by
  simp [runPrim, preamble, hc]

theorem runPrim_unresponsive {p : Prim} {s : State} (hc : s.ctl.configured = true) (hu : s.ctl.unresponsive = true) :
    runPrim p s = .done .unresponsive s := by
  simp [runPrim, preamble, hc, hu]

theorem runPrim_stopOverlap {p : Prim} {s : State} (ho : s.operational) (h : (settleStop s).1 = false) :
    runPrim p s = .fault .stopOverlap (settleStop s).2 := by
  obtain ⟨hc, hu⟩ := ho
  simp [runPrim, preamble, hc, hu, h]

theorem runPrim_protocolOrder {p : Prim} {s : State} (ho : s.operational) (h : (settleStop s).1 = true)
    (ha : ¬ p.allowed s.ctl.phase = true) : runPrim p s = .fault .protocolOrder (settleStop s).2 := by
  obtain ⟨hc, hu⟩ := ho
  simp [runPrim, preamble, hc, hu, h, ha]

theorem settleStop_of_clear {s : State} (h : s.ctl.stopPending = false) : settleStop s = (true, s) := by
  simp [settleStop, h]

/-- Under `STOP_OVERLAP = Fault` a pending stop is settled only if the environment takes `StopDone` (R114). -/
theorem settleStop_of_fault {s : State} (hp : s.ctl.stopPending = true) (hf : s.cfg.stopOverlap = .fault) :
    settleStop s = (s.env.choose.1, (s.setEnv s.env.choose.2).setCtl { s.ctl with stopPending := !s.env.choose.1 }) := by
  simp [settleStop, hp, hf]

/-- Once the pending stop is settled the primitive acts as if there had been none. -/
theorem runPrim_settled {p : Prim} {s : State} (ho : s.operational) (h : (settleStop s).1 = true) :
    runPrim p s = runPrim p (settleStop s).2 := by
  have hc : (settleStop s).2.ctl.configured = s.ctl.configured := (settleStop_work s).configured
  have hagain : settleStop (settleStop s).2 = (true, (settleStop s).2) := settleStop_of_clear (settleStop_clear h)
  have hpre : preamble p s = preamble p (settleStop s).2 := by
    unfold preamble
    rw [hagain, hc, settleStop_unresponsive, settleStop_phase, h]
    simp [ho.1, ho.2]
  obtain ⟨hconf, hu⟩ := ho
  rw [runPrim, runPrim, ← hpre]
  simp only [preamble, hconf, hu, h]
  cases p.allowed s.ctl.phase <;> rfl

/-- Settles O30: each premise picks one outcome of the preamble. -/
theorem thePreambleChecksInOrder : Obligations.ThePreambleChecksInOrder := by
  intro p s hs
  refine ⟨fun hc => ?_, fun hc hu => ?_, fun ho hp hf hm => ?_, fun ho hp hf hm => ?_, fun ho hh hph => ?_⟩
  · rw [exec_prim hs, runPrim_notConfigured hc, finish]
  · rw [exec_prim hs, runPrim_unresponsive hc hu, finish, conclude_idle _ hs.2]
    rfl
  · have hset : settleStop s = (false, s.setEnv s.env.choose.2) := by
      rw [settleStop_of_fault hp hf, hm, Bool.not_false, ← hp]
      rfl
    rw [exec_prim hs, runPrim_stopOverlap ho (by rw [hset]), hset, finish]
  · have hset : settleStop s = (true, (s.setEnv s.env.choose.2).setCtl { s.ctl with stopPending := false }) := by
      rw [settleStop_of_fault hp hf, hm, Bool.not_true]
    have hs' : ((s.setEnv s.env.choose.2).setCtl { s.ctl with stopPending := false }).accepting := hs
    rw [exec_prim hs, exec_prim hs', runPrim_settled ho (by rw [hset]), hset]
  · have hna : ¬ p.allowed s.ctl.phase = true := by
      cases p with
      | start => obtain h | h := hph <;> simp [h]
      | _ => simpa using hph
    rw [exec_prim hs, runPrim_protocolOrder ho (by rw [settleStop_harmless hh]) hna, settleStop_harmless hh, finish]

/-! ### A primitive that waits in vain (R103, R105) -/

/-- A ready, awaited primitive: its preamble passes. -/
theorem runPrim_waiting {p : Prim} {s : State} (ho : s.operational) (hh : s.stopHarmless) (ha : p.allowed s.ctl.phase = true)
    (hp : p ≠ .stop) : runPrim p s = runWaiting p (s.setCtl { s.ctl with stopPending := false }) := by
  rw [runPrim, preamble_ready ho hh ha]
  simp [hp]

theorem runWaiting_hangs {p : Prim} {s : State} (hb : s.cfg.pollBudget = none)
    (hw : (s.env.receive s.cfg (p.action s.ctl.phase)).1 = .wedged) :
    runWaiting p s = .spin (((launch (p.action s.ctl.phase) s).setEnv (s.env.receive s.cfg (p.action s.ctl.phase)).2).setActivity
      (.waiting (p.action s.ctl.phase))) := by
  simp [runWaiting, waitFlag, hb, hw]

theorem runWaiting_timesOut {p : Prim} {s : State} (hb : s.cfg.pollBudget ≠ none)
    (hl : tooLate s.cfg (s.env.receive s.cfg (p.action s.ctl.phase)).1) :
    ∃ late, runWaiting p s = .done .timeout
      (giveUp late ((launch (p.action s.ctl.phase) s).setEnv (s.env.receive s.cfg (p.action s.ctl.phase)).2)) := by
  obtain ⟨late, hw⟩ := waitFlag_late (act := p.action s.ctl.phase)
    (s := (launch (p.action s.ctl.phase) s).setEnv (s.env.receive s.cfg (p.action s.ctl.phase)).2) hb hl
  exact ⟨late, by rw [runWaiting, hw]⟩

/-- Under a budget of `n` polls an action is lost if it never completes, or not before poll `n` (R103). -/
theorem tooLate_of_budget {cfg : Params} {n : Nat} {ans : EnvAnswer} (hb : cfg.pollBudget = some n)
    (h : ans = .wedged ∨ ∃ raw d late, ans = .done raw d late ∧ n ≤ late) : tooLate cfg ans := by
  obtain rfl | ⟨raw, d, late, rfl, hlate⟩ := h
  · trivial
  · simpa [tooLate, inTime, hb] using hlate

/-- Settles O31, by the two ways a wait fails: it hangs, or it runs out of its budget. -/
theorem aWaitHangsOrTimesOut : Obligations.AWaitHangsOrTimesOut := by
  intro p s hs ho hh hp ha
  have hrun := runPrim_waiting ho hh ha hp
  refine ⟨fun hb hw => ?_, fun n hb hans => ?_⟩
  · rw [exec_prim hs, hrun, runWaiting_hangs (by exact hb) (by exact hw)]
    rfl
  · obtain ⟨late, ht⟩ := runWaiting_timesOut (p := p) (s := s.setCtl { s.ctl with stopPending := false })
      (by rw [State.setCtl_cfg, hb]; nofun) (tooLate_of_budget hb hans)
    rw [exec_prim hs, hrun, ht]
    exact ⟨_, rfl, rfl, rfl, rfl, rfl, rfl⟩

/-! ### The status check (R104) -/

theorem check_of_corrected {cfg : Params} (h : cfg.ackCheck = .corrected) (E : List Byte) (raw : Byte) :
    check cfg E raw = if statusCode cfg raw ∈ E then .ok else .err raw := by
  simp [check, statusExpected, h]

/-- The historical test: one expected code that is not the status is enough to fail (92_eei_decisions.md D9). -/
theorem check_of_historical {cfg : Params} (h : cfg.ackCheck = .historical) (E : List Byte) (raw : Byte) :
    check cfg E raw = if ∃ e ∈ E, statusCode cfg raw ≠ e then .err raw else .ok := by
  by_cases hne : ∃ e ∈ E, statusCode cfg raw ≠ e
  · simp [check, statusExpected, h, hne]
  · simp [check, statusExpected, h, hne]

/-- Settles O32: a status differs from one of two different codes, and with one code the two tests ask the same. -/
theorem statusCheckInBothModes : Obligations.StatusCheckInBothModes := by
  intro cfg E raw
  refine ⟨fun h => check_of_corrected h E raw, fun h => check_of_historical h E raw, fun h htwo => ?_, ?_⟩
  · obtain ⟨e, he, f, hf, hef⟩ := htwo
    have hdiffers : ∃ x ∈ E, statusCode cfg raw ≠ x := by
      by_cases heq : statusCode cfg raw = e
      · exact ⟨f, hf, heq ▸ hef⟩
      · exact ⟨e, he, heq⟩
    rw [check_of_historical h, if_pos hdiffers]
  · rintro e cfg' rfl rfl hcor
    have hcode : statusCode { cfg with ackCheck := .historical } raw = statusCode cfg raw := rfl
    rw [check_of_corrected hcor, check_of_historical rfl, hcode]
    by_cases heq : statusCode cfg raw = e <;> simp [heq]

end Sys2Proof.Machine
end

section
/-! PROOFS. The environment's own steps (40_bus_primitives.md R103, R114, R115), and the hung wait, which is the block's for ever
(R103, 60_exceptions.md R228). -/

namespace Sys2Proof.Machine

/-! ### A step that the environment takes -/

/-- The environment, where it has a step to take and chooses to take it (R114(a), R115). -/
theorem envTurn_acts {s : State} (hm : s.envMayAct = true) (hc : s.env.choose.1 = true) :
    envTurn s = (true, envStep (s.setEnv s.env.choose.2)) := by
  simp [envTurn, hm, hc]

/-- Outside a hung wait the environment's turn comes before the block's. -/
theorem step_envTurn {s : State} (hu : s.unmarked) (hw : ∀ act, s.activity ≠ .waiting act) (h : (envTurn s).1 = true) :
    step s = .next (envTurn s).2 := by
  obtain ⟨hfaults, hrefused⟩ := hu
  unfold step turn afterEnv
  cases ha : s.activity with
  | waiting act => exact absurd ha (hw act)
  | polling job k st => simp [hfaults, hrefused, h]
  | idle => simp [hfaults, hrefused, h]

theorem envStep_stopDone {s : State} (h : s.ctl.stopPending = true) :
    envStep s = s.setCtl { s.ctl with stopPending := false } := by
  simp [envStep, h]

theorem envStep_lateAnswer {s : State} {l : LateAction} (hp : s.ctl.stopPending = false) (hl : s.env.late = some l) :
    envStep s = deliver l.act l.status l.data (s.setEnv { s.env with late := none }) := by
  simp [envStep, hp, hl]

theorem fetch_of_empty {s : State} (h : s.client.input = []) : fetch s = .answer (.next s) := by
  simp [fetch, h]

/-- Settles O9: the step is the environment's turn, which is `StopDone` or the late completion, or leaves an idle block. -/
theorem theEnvironmentMayActBeforeEveryStep : Obligations.TheEnvironmentMayActBeforeEveryStep := by
  refine ⟨fun s hu hw hc => ⟨fun hp => ?_, fun l hp hl => ?_⟩, fun s e hs hin he => ?_⟩
  · have hturn := envTurn_acts (s := s) (by simp [State.envMayAct, hp]) hc
    rw [step_envTurn hu hw (by rw [hturn]), hturn, envStep_stopDone (by exact hp)]
    rfl
  · have hturn := envTurn_acts (s := s) (by simp [State.envMayAct, hl]) hc
    have hlate : (s.setEnv s.env.choose.2).env.late = some l := (Env.choose_late s.env).trans hl
    rw [step_envTurn hu hw (by rw [hturn]), hturn, envStep_lateAnswer (by exact hp) hlate]
    obtain ⟨act, status, data⟩ := l
    cases act <;> rfl
  · rw [step_idle hs he, fetch_of_empty (by exact hin)]
    rfl

/-! ### The hung wait -/

theorem step_waiting {s : State} {act : BusAction} (hu : s.unmarked) (ha : s.activity = .waiting act) : step s = .next s := by
  obtain ⟨hfaults, hrefused⟩ := hu
  simp [step, turn, hfaults, hrefused, ha]

theorem core_run_succ {s s' : State} (h : step s = .next s') (n : Nat) : core.run (n + 1) s = core.run n s' := by
  have hstep : core.step s = .next s' := h
  simp only [Host.Core.run]
  rw [hstep]

/-- Settles O10, by induction on the number of steps. -/
theorem aHungWaitPollsForEver : Obligations.AHungWaitPollsForEver := by
  intro s act hu ha n
  induction n with
  | zero => rfl
  | succ n ih => exact (core_run_succ (step_waiting hu ha) n).trans ih

end Sys2Proof.Machine
end

section
/-! PROOFS. The bus primitives neither read nor write the device context and the digital output (40_bus_primitives.md R116): each
piece of a primitive commutes with putting another context and another output into the state. -/

namespace Sys2Proof.Machine

/-- The state with another device context and another output. -/
def State.withDevice (s : State) (c : Ctx) (g : Gpio) : State := (s.setCtx c).setGpio g

/-- The device context and the output put into each state a piece of pseudocode can end in. -/
def Flow.withDevice {α : Type} (c : Ctx) (g : Gpio) : Flow α → Flow α
  | .done a s => .done a (s.withDevice c g)
  | .quit s => .quit (s.withDevice c g)
  | .fault r s => .fault r (s.withDevice c g)
  | .spin s => .spin (s.withDevice c g)

/-- The same for the preamble. -/
def Preamble.withDevice (c : Ctx) (g : Gpio) : Preamble → Preamble
  | .pass s => .pass (s.withDevice c g)
  | .unresponsive => .unresponsive
  | .fault r s => .fault r (s.withDevice c g)

/-- The same for the wait. -/
def Wait.withDevice (c : Ctx) (g : Gpio) : Wait → Wait
  | .done raw d s => .done raw d (s.withDevice c g)
  | .timeout s => .timeout (s.withDevice c g)
  | .hang s => .hang (s.withDevice c g)

/-- The same for an answer. -/
def Result.withDevice (c : Ctx) (g : Gpio) : Result → Result
  | .next s => .next (s.withDevice c g)
  | .fault r => .fault r
  | .refused r => .refused r

section
variable (s : State) (c : Ctx) (g : Gpio)

@[simp] theorem State.withDevice_ctl : (s.withDevice c g).ctl = s.ctl := rfl
@[simp] theorem State.withDevice_cfg : (s.withDevice c g).cfg = s.cfg := rfl
@[simp] theorem State.withDevice_env : (s.withDevice c g).env = s.env := rfl

/-! ### The pieces of a primitive -/

theorem configureBody_withDevice (speed : Byte) :
    configureBody speed (s.withDevice c g) = (configureBody speed s).withDevice c g := by
  cases hc : s.ctl.configured with
  | true => rw [configureBody_again speed hc, configureBody_again speed (by exact hc)]; rfl
  | false => rw [configureBody_first speed hc, configureBody_first speed (by exact hc)]; rfl

theorem settleStop_withDevice :
    settleStop (s.withDevice c g) = ((settleStop s).1, (settleStop s).2.withDevice c g) := by
  obtain ⟨he, hp⟩ | ⟨-, ho, he⟩ | ⟨hp, hf, he⟩ := settleStop_cases s
  · rw [he, settleStop_of_clear (by exact hp)]
  · rw [he, settleStop_harmless (.inr (by exact ho))]
    rfl
  · rw [he, settleStop_of_fault (by exact hp) (by exact hf)]
    rfl

theorem preamble_withDevice (p : Prim) : preamble p (s.withDevice c g) = (preamble p s).withDevice c g := by
  unfold preamble
  rw [settleStop_withDevice]
  simp only [apply_ite (Preamble.withDevice c g)]
  rfl

theorem waitFlag_withDevice (act : BusAction) (ans : EnvAnswer) :
    waitFlag act ans (s.withDevice c g) = (waitFlag act ans s).withDevice c g := by
  unfold waitFlag
  simp only [State.withDevice_cfg]
  cases s.cfg.pollBudget with
  | none => cases ans <;> rfl
  | some n =>
    cases ans with
    | done raw d late => simp only [apply_ite (Wait.withDevice c g)]; rfl
    | wedged => rfl

theorem launch_withDevice (act : BusAction) (e : Env) :
    (launch act (s.withDevice c g)).setEnv e = ((launch act s).setEnv e).withDevice c g := rfl

theorem runWaiting_withDevice (p : Prim) : runWaiting p (s.withDevice c g) = (runWaiting p s).withDevice c g := by
  unfold runWaiting
  simp only [State.withDevice_ctl, State.withDevice_cfg, State.withDevice_env, launch_withDevice, waitFlag_withDevice]
  cases waitFlag (p.action s.ctl.phase) (s.env.receive s.cfg (p.action s.ctl.phase)).1
    ((launch (p.action s.ctl.phase) s).setEnv (s.env.receive s.cfg (p.action s.ctl.phase)).2) <;> rfl

theorem runPrim_withDevice (p : Prim) : runPrim p (s.withDevice c g) = (runPrim p s).withDevice c g := by
  unfold runPrim
  rw [preamble_withDevice]
  cases preamble p s with
  | unresponsive => rfl
  | fault r s' => rfl
  | pass s' =>
    simp only [Preamble.withDevice, runWaiting_withDevice, apply_ite (Flow.withDevice c g)]
    rfl

/-! ### The command -/

/-- The bodies of the seven bus primitives. -/
theorem bodyOf_withDevice {i : Instr} (hi : isPrimitive i = true) :
    bodyOf i (s.withDevice c g) = (bodyOf i s).withDevice c g := by
  cases i with
  | configure speed => exact configureBody_withDevice s c g speed
  | start => exact runPrim_withDevice s c g _
  | sendAddr a => exact runPrim_withDevice s c g _
  | sendByte b => exact runPrim_withDevice s c g _
  | recvAck => exact runPrim_withDevice s c g _
  | recvNack => exact runPrim_withDevice s c g _
  | stop => exact runPrim_withDevice s c g _
  | _ => cases hi

theorem finish_withDevice (x : Flow OpResult) : finish (x.withDevice c g) = Result.withDevice c g (finish x) := by
  cases x <;> rfl

theorem exec_withDevice {i : Instr} (hi : isPrimitive i = true) :
    exec i (s.withDevice c g) = Result.withDevice c g (exec i s) := by
  rw [exec_body, exec_body]
  unfold command
  rw [bodyOf_withDevice s c g hi, finish_withDevice]
  simp only [apply_ite (Result.withDevice c g)]
  rfl

end

/-- Settles O18. The frame is the independence for the context and the output the state already has. -/
theorem busPrimitivesIgnoreContextAndOutput : Obligations.BusPrimitivesIgnoreContextAndOutput := by
  intro i s c g hi
  have hindep : ∀ (c : Ctx) (g : Gpio) (t : State), exec i s = .next t →
      exec i (s.withDevice c g) = .next (t.withDevice c g) := fun c g t h => by
    rw [exec_withDevice s c g hi, h]
    rfl
  refine ⟨hindep c g, fun t h => ?_⟩
  have hself : Host.Outcome.next t = .next (t.withDevice s.ctx s.gpio) := h.symm.trans (hindep s.ctx s.gpio t h)
  have ht : t = t.withDevice s.ctx s.gpio := Host.Outcome.next.inj hself
  rw [ht]
  exact ⟨rfl, rfl⟩

end Sys2Proof.Machine
end

section
/-! PROOFS. The five register transactions as one family (41_register_access.md R140 to R148): the primitives of each, the value
it reports, and the check of the phase that comes before its first bus action. -/

namespace Sys2Proof.Machine

/-! ### The primitives of a transaction, and the value it reports -/

/-- The primitives a register transaction expands to (R144 to R148). -/
def transactionSeq (cfg : Params) : Instr → List Prim
  | .setPointer reg => setPointerSeq cfg reg
  | .writeByte reg v => writeByteSeq cfg reg v
  | .writeBlock reg n bs => writeBlockSeq cfg reg n bs
  | .readByte reg => readByteSeq cfg reg
  | .readBlock reg n => readBlockSeq cfg reg n
  | _ => []

/-- The value a register transaction reports for what it has collected (R142, R147, R148). -/
def transactionValue (cfg : Params) : Instr → Txn → OpResult
  | .readByte _, t => .value (rxByte t.bytes 0).toNat
  | .readBlock _ n, t => .value (assemble cfg n t.bytes)
  | _, _ => .unit

theorem bodyOf_transaction {i : Instr} (hi : isTransaction i = true) (s : State) :
    bodyOf i s = transactionBody (transactionSeq s.cfg i) (transactionValue s.cfg i) s := by
  cases i with
  | setPointer | writeByte | writeBlock | readByte | readBlock => rfl
  | _ => cases hi

theorem transactionSeq_ends {i : Instr} (hi : isTransaction i = true) (cfg : Params) : EndsInStop (transactionSeq cfg i) := by
  cases i with
  | setPointer reg => exact setPointerSeq_ends cfg reg
  | writeByte reg v => exact writeByteSeq_ends cfg reg v
  | writeBlock reg n bs => exact writeBlockSeq_ends cfg reg n bs
  | readByte reg => exact readByteSeq_ends cfg reg
  | readBlock reg n => exact readBlockSeq_ends cfg reg n
  | _ => cases hi

/-- Each expansion is allowed in its order from `Free` and drives the frame of 30_encoding.md R78. -/
theorem transactionSeq_legal {i : Instr} (hi : isTransaction i = true) (cfg : Params) :
    legalSeq .free (transactionSeq cfg i) = true ∧ seqActions .free (transactionSeq cfg i) = transactionFrame cfg i := by
  cases i with
  | setPointer reg =>
    obtain ⟨hlegal, hframe, -⟩ := setPointerSeq_legal cfg reg
    exact ⟨hlegal, hframe⟩
  | writeByte reg v => exact writeByteSeq_legal cfg reg v
  | writeBlock reg n bs => exact writeBlockSeq_legal cfg reg n bs
  | readByte reg => exact readByteSeq_legal cfg reg
  | readBlock reg n => exact readBlockSeq_legal cfg reg n
  | _ => cases hi

/-- An accepting block runs the body of a command whose operands pass. -/
theorem exec_accepted {i : Instr} {s : State} (hs : s.accepting) (ho : ¬ operandRefused s.cfg i) :
    exec i s = finish (bodyOf i s) := by
  rw [exec_body, command_accepting hs ((operandsAccepted_iff s.cfg i).2 ho)]

theorem exec_transaction {i : Instr} {s : State} (hi : isTransaction i = true) (hs : s.accepting)
    (ho : ¬ operandRefused s.cfg i) :
    exec i s = finish (transactionBody (transactionSeq s.cfg i) (transactionValue s.cfg i) s) := by
  rw [exec_accepted hs ho, bodyOf_transaction hi]

/-! ### Outside `Free` (R140, 70_reset_and_hazards.md R264) -/

theorem transaction_of_busy {s : State} (h : s.ctl.phase ≠ .free) (ps : List Prim) :
    transaction ps s = .fault .protocolOrder s := by
  simp [transaction, h]

theorem innerTxn_of_busy {s : State} (h : s.ctl.phase ≠ .free) (ps : List Prim) :
    innerTxn ps s = .fault .protocolOrder s := by
  rw [innerTxn, transaction_of_busy h, Flow.bind]

theorem transactionBody_of_busy {s : State} (h : s.ctl.phase ≠ .free) (ps : List Prim) (v : Txn → OpResult) :
    transactionBody ps v s = .fault .protocolOrder s := by
  rw [transactionBody, transaction_of_busy h, Flow.bind]

theorem measureTemperatureBody_of_busy {s : State} (h : s.ctl.phase ≠ .free) :
    measureTemperatureBody s = .fault .protocolOrder s := by
  rw [measureTemperatureBody, writeCmd, innerTxn_of_busy h, Flow.bind]

/-- Every trigger but `Idle` and `DftComplete` has a step that begins with a command to the device (42_sweep_controller.md R180). -/
theorem processStepBody_of_busy {s : State} (choice : Byte) (h : s.ctl.phase ≠ .free) (hi : s.ctx.trigger ≠ .idle)
    (hd : s.ctx.trigger ≠ .dftComplete) : processStepBody choice s = .fault .protocolOrder s := by
  cases ht : s.ctx.trigger with
  | idle => exact absurd ht hi
  | dftComplete => exact absurd ht hd
  | _ => simp [processStepBody, ht, stepStartMeasure, stepCommand, writeCmd, innerTxn_of_busy h, Flow.bind]

/-- CONFIGURE_SWEEP writes its codes before its first transaction (R178). -/
theorem configureSweepBody_of_busy {s : State} (f d : U32) (n : U16) (h : s.ctl.phase ≠ .free) :
    configureSweepBody f d n s = .fault .protocolOrder (s.setCtx (programmed s.cfg f d n s.ctx)) := by
  rw [configureSweepBody, writeReg, innerTxn_of_busy (by exact h), Flow.bind, delay_eq]

/-- Settles O33: each body raises the fault at the phase check of its first transaction. -/
theorem transactionsNeedAFreeBus : Obligations.TransactionsNeedAFreeBus := by
  intro s i hs hphase ho
  have hexec := exec_accepted hs ho
  refine ⟨fun hi => ?_, ?_⟩
  · have hbody : bodyOf i s = .fault .protocolOrder s := by
      obtain hi | rfl | ⟨⟨choice, rfl⟩, hidle, hdft⟩ := hi
      · rw [bodyOf_transaction hi, transactionBody_of_busy hphase]
      · exact measureTemperatureBody_of_busy hphase
      · exact processStepBody_of_busy choice hphase hidle hdft
    rw [hexec, hbody, finish, raiseFault_idle _ hs.2]
    rfl
  · rintro f d n rfl
    rw [hexec, bodyOf, configureSweepBody_of_busy f d n hphase, finish, raiseFault_idle _ (by exact hs.2)]
    rfl

/-! ### Reassembly (R150) -/

theorem join3_toNat_shifts (b0 b1 b2 : Byte) :
    (join3 b0 b1 b2).toNat = b0.toNat <<< 16 ||| b1.toNat <<< 8 ||| b2.toNat := by
  rw [join3, BitVec.toNat_append, BitVec.toNat_append, Nat.shiftLeft_or_distrib, ← Nat.shiftLeft_add]

/-- Settles O42: joining bytes is shifting and or'ing them. -/
theorem assembleReceivedBytes : Obligations.AssembleReceivedBytes := by
  intro cfg n b0 b1 b2 bs
  refine ⟨BitVec.toNat_append b0 b1, fun hcombine => ?_, fun hfirst => ?_, fun h2 h3 => ?_⟩
  · simp [assemble, hcombine, rxByte, join3_toNat_shifts]
  · simp [assemble, hfirst, rxByte]
  · rw [assemble, if_neg h2, if_neg h3]
    rfl

end Sys2Proof.Machine
end

section
/-! PROOFS. Register transactions that the environment serves (41_register_access.md R144 to R148): the run of each, and the events
its frame leaves on the wire. -/

namespace Sys2Proof.Machine

/-- A served register transaction completes, and reports its value for the bytes received (R142). -/
theorem exec_transaction_serve {i : Instr} {s : State} {v : Service} (hi : isTransaction i = true) (hs : s.readyForTransactions)
    (ho : ¬ operandRefused s.cfg i) (hv : serve s.cfg (transactionFrame s.cfg i) (Service.start s) = some v) :
    exec i s = .next (afterTransactions s v (reported s.cfg v.firstErr
      (transactionValue s.cfg i { st := v.firstErr, bytes := v.bytes, lost := false }))) := by
  obtain ⟨hacc, -⟩ := id hs
  obtain ⟨hlegal, hframe⟩ := transactionSeq_legal hi s.cfg
  rw [exec_transaction hi hacc ho, transactionBody_serve (transactionSeq_ends hi s.cfg) hs hlegal hframe hv]

/-! ### The events of a frame (30_encoding.md R78) -/

/-- The events of a frame that receives nothing are known beforehand. -/
theorem serve_start_sends {s : State} {acts : List BusAction} {v : Service} (hq : acts.all receivesNothing = true)
    (hv : serve s.cfg acts (Service.start s) = some v) : v.events = acts.map (BusAction.event 0) := by
  obtain ⟨hevents, -⟩ := serve_sends acts _ v hq hv
  exact hevents

/-- The last byte of a read, not acknowledged, and the stop. -/
theorem serve_lastByte {cfg : Params} {v v' : Service} (h : serve cfg [.dataIn false, .stop] v = some v') :
    ∃ b, v'.bytes = v.bytes ++ [b] ∧ v'.events = v.events ++ [BusEvent.dataIn b false, BusEvent.p] := by
  obtain ⟨raw, b, late, env, -, -, h⟩ := serve_cons (by simp) h
  cases h
  exact ⟨b, rfl, by simp [Service.add, BusAction.event]⟩

/-- A read: what it sends, `k` bytes acknowledged, the last not, and the stop. -/
theorem serve_read {s : State} {sends : List BusAction} {k : Nat} {v : Service} (hq : sends.all receivesNothing = true)
    (hv : serve s.cfg (sends ++ (List.replicate k (BusAction.dataIn true) ++ [BusAction.dataIn false, BusAction.stop]))
      (Service.start s) = some v) :
    ∃ bs b, bs.length = k ∧ v.bytes = bs ++ [b] ∧
      v.events = sends.map (BusAction.event 0) ++ bs.map (fun x => BusEvent.dataIn x true) ++
        [BusEvent.dataIn b false, BusEvent.p] := by
  obtain ⟨v1, hsends, hv⟩ := serve_both hv
  obtain ⟨v2, hrecvs, hlast⟩ := serve_both hv
  obtain ⟨he1, hb1⟩ := serve_sends sends _ v1 hq hsends
  obtain ⟨bs, hlen, he2, hb2⟩ := serve_recvs k v1 v2 hrecvs
  obtain ⟨b, hb3, he3⟩ := serve_lastByte hlast
  refine ⟨bs, b, hlen, ?_, ?_⟩
  · rw [hb3, hb2, hb1]
    rfl
  · rw [he3, he2, he1]
    rfl

/-! ### The five completions -/

/-- Settles O34, by the run of a served transaction. -/
theorem setPointerCompletes : Obligations.SetPointerCompletes := by
  intro s reg v hs hv
  exact ⟨serve_start_sends rfl hv, exec_transaction_serve (i := .setPointer reg) rfl hs id hv⟩

/-- Settles O35, by the run of a served transaction. -/
theorem writeByteCompletes : Obligations.WriteByteCompletes := by
  intro s reg b v hs hv
  exact ⟨serve_start_sends rfl hv, exec_transaction_serve (i := .writeByte reg b) rfl hs id hv⟩

/-- Settles O36, by the run of a served transaction. -/
theorem writeBlockCompletes : Obligations.WriteBlockCompletes := by
  intro s reg n bs v hs hv
  have hq : (writeBlockFrame s.cfg reg n bs).all receivesNothing = true := by
    simp [writeBlockFrame, setPointerFrame, receivesNothing]
  refine ⟨?_, exec_transaction_serve (i := .writeBlock reg n bs) rfl hs id hv⟩
  rw [serve_start_sends hq hv]
  simp [writeBlockFrame, setPointerFrame, BusAction.event]

/-- Settles O37: a read with no acknowledged byte. -/
theorem readByteCompletes : Obligations.ReadByteCompletes := by
  intro s reg v hs hv
  obtain ⟨bs, b, hlen, hbytes, hevents⟩ :=
    serve_read (sends := setPointerFrame s.cfg reg ++ [BusAction.start, BusAction.addrOut (addrR s.cfg)]) (k := 0) rfl hv
  obtain rfl := List.length_eq_zero_iff.1 hlen
  have hexec := exec_transaction_serve (i := .readByte reg) rfl hs id hv
  rw [transactionValue, hbytes] at hexec
  exact ⟨b, hbytes, hevents, hexec⟩

/-- Settles O38: a read with `n - 1` acknowledged bytes. -/
theorem readBlockCompletes : Obligations.ReadBlockCompletes := by
  intro s reg n v hs hn hv
  obtain ⟨bs, b, hlen, hbytes, hevents⟩ := serve_read (sends := setPointerFrame s.cfg reg ++
    ([.start, .addrOut (addrW s.cfg), .dataOut s.cfg.opBlockRead, .dataOut n, .repStart, .addrOut (addrR s.cfg)] :
      List BusAction)) rfl hv
  have hpos : n.toNat ≠ 0 := fun h => hn (BitVec.eq_of_toNat_eq h)
  refine ⟨bs, b, hbytes, ?_, hevents, exec_transaction_serve (i := .readBlock reg n) rfl hs hn hv⟩
  rw [hbytes, List.length_append, hlen, List.length_singleton]
  omega

end Sys2Proof.Machine
end

section
/-! PROOFS. Register transactions that do not run to their end: a second start that meets the transaction's own pending stop under
`STOP_OVERLAP = Fault` (41_register_access.md R143), and an action lost to a timeout (R141, R142). -/

namespace Sys2Proof.Machine

/-! ### A second start under `STOP_OVERLAP = Fault` (R143) -/

theorem runSeq_append (xs ys : List Prim) : ∀ (t : Txn) (s : State),
    runSeq (xs ++ ys) t s = (runSeq xs t s).bind (runSeq ys) := by
  induction xs with
  | nil => intro t s; rfl
  | cons x xs ih =>
    intro t s
    simp only [List.cons_append, runSeq]
    cases runPrim x s with
    | done r u => exact ih _ u
    | _ => rfl

/-- A served sequence with its one stop at the end, in either mode of `STOP_OVERLAP`: no primitive meets a stop of its own. -/
theorem runSeq_serve_oneStop (ps : List Prim) : ∀ (t : Txn) (s : State) (v v' : Service),
    s.operational → s.stopHarmless → (∀ p ∈ ps, p ≠ .stop) → legalSeq s.ctl.phase (ps ++ [Prim.stop]) = true →
    v.env = s.env → v.status = s.ctl.status → v.data = s.ctl.data →
    serve s.cfg (seqActions s.ctl.phase (ps ++ [Prim.stop])) v = some v' →
    ∃ es t', v'.events = v.events ++ es ∧ runSeq (ps ++ [Prim.stop]) t s = .done t' (servedState v' es s) := by
  induction ps with
  | nil =>
    intro t s v v' ho hh _ hl he hst hd h
    cases h
    have hallowed : Prim.stop.allowed s.ctl.phase = true := by simpa [legalSeq] using hl
    refine ⟨[.p], t, rfl, ?_⟩
    rw [List.nil_append, runSeq, runPrim_stop ho hh hallowed]
    simp [runSeq, Flow.bind, Txn.note, afterStop, servedState, he, hst, hd]
  | cons p ps ih =>
    intro t s v v' ho hh hns hl he hst hd h
    rw [List.cons_append, legalSeq, Bool.and_eq_true] at hl
    obtain ⟨hallowed, hl⟩ := hl
    have hp : p ≠ .stop := hns p List.mem_cons_self
    obtain ⟨raw, d, late, env, hr, ht, h⟩ := serve_cons (Prim.action_ne_stop s.ctl.phase hp) h
    rw [he] at hr
    obtain ⟨es, t', hes, hrun⟩ := ih (t.note (p.result s.cfg raw d)) (afterPrim p raw d env s)
      (v.add s.cfg (p.action s.ctl.phase) raw d env) v' ho (.inl rfl) (fun q hq => hns q (List.mem_cons_of_mem p hq)) hl rfl rfl
      (by simp [Service.add, afterPrim, hd]) h
    refine ⟨(p.action s.ctl.phase).event d :: es, t', by simp [hes, Service.add], ?_⟩
    rw [List.cons_append, runSeq, runPrim_done ho hh hallowed hp hr ht]
    refine hrun.trans ?_
    simp [servedState, afterPrim]

/-- The SET_POINTER frame served, in either mode of `STOP_OVERLAP`. -/
theorem runSeq_setPointer {s : State} {reg : Byte} {v : Service} (ho : s.operational) (hh : s.stopHarmless)
    (hph : s.ctl.phase = .free) (hv : serve s.cfg (setPointerFrame s.cfg reg) (Service.start s) = some v) :
    ∃ t', runSeq (setPointerSeq s.cfg reg) Txn.empty s = .done t' (servedState v v.events s) := by
  obtain ⟨hlegal, hframe, -⟩ := setPointerSeq_legal s.cfg reg
  rw [← hframe] at hv
  obtain ⟨es, t', hes, hrun⟩ := runSeq_serve_oneStop
    [.start, .sendAddr (addrW s.cfg), .sendByte s.cfg.opPointer, .sendByte reg] Txn.empty s (Service.start s) v ho hh (by simp)
    (by rw [hph]; exact hlegal) rfl rfl rfl (by rw [hph]; exact hv)
  obtain rfl : v.events = es := hes
  exact ⟨t', hrun⟩

/-- START with its own transaction's stop still pending under `STOP_OVERLAP = Fault` (R114). -/
theorem runPrim_start_pendingStop {s : State} (ho : s.operational) (hp : s.ctl.stopPending = true)
    (hf : s.cfg.stopOverlap = .fault) (hc : s.env.choose.1 = false) :
    runPrim .start s = .fault .stopOverlap (s.setEnv s.env.choose.2) := by
  have hset : settleStop s = (false, s.setEnv s.env.choose.2) := by
    rw [settleStop_of_fault hp hf, hc, Bool.not_false, ← hp]
    rfl
  rw [runPrim_stopOverlap ho (by rw [hset]), hset]

/-- The three transactions with a second start begin with the SET_POINTER frame of their register (R146 to R148). -/
theorem transactionSeq_secondStart {i : Instr} {reg : Byte} (hi : match i with
      | .writeBlock r _ _ => r = reg
      | .readByte r => r = reg
      | .readBlock r _ => r = reg
      | _ => False) (cfg : Params) :
    isTransaction i = true ∧ ∃ rest, transactionSeq cfg i = setPointerSeq cfg reg ++ .start :: rest := by
  cases i with
  | writeBlock r n bs => subst hi; exact ⟨rfl, _, rfl⟩
  | readByte r => subst hi; exact ⟨rfl, _, rfl⟩
  | readBlock r n => subst hi; exact ⟨rfl, _, rfl⟩
  | _ => exact hi.elim

/-- Settles O39: the SET_POINTER frame is served, and the START after it meets the frame's stop. -/
theorem secondStartMeetsThePendingStop : Obligations.SecondStartMeetsThePendingStop := by
  intro s i reg v hs ho hph hp hf hop hi hv hc
  obtain ⟨htxn, rest, hseq⟩ := transactionSeq_secondStart hi s.cfg
  obtain ⟨t', hpointer⟩ := runSeq_setPointer ho (.inl hp) hph hv
  have hstart := runPrim_start_pendingStop (s := servedState v v.events s) ho rfl hf hc
  have hbody : transactionBody (transactionSeq s.cfg i) (transactionValue s.cfg i) s =
      .fault .stopOverlap ((servedState v v.events s).setEnv v.env.choose.2) := by
    rw [transactionBody, transaction, if_neg (not_not_intro hph), hseq, runSeq_append, hpointer, Flow.bind, runSeq, hstart]
    rfl
  rw [exec_transaction htxn hs hop, hbody]
  exact ⟨_, rfl, rfl, rfl, rfl, rfl, rfl, rfl, rfl, rfl⟩

/-! ### An action lost to a timeout (R141, R142) -/

theorem txnResult_lost {t : Txn} (h : t.lost = true) (cfg : Params) (v : OpResult) : txnResult cfg t v = .unresponsive := by
  simp [txnResult, h]

/-- Settles O40: after the lost action no primitive has an effect, and the transaction reports the loss. -/
theorem aTransactionAfterATimeoutIsUnresponsive : Obligations.ATransactionAfterATimeoutIsUnresponsive := by
  intro s i n acts rest a v hs hi hop hb hact ha hv hlate
  obtain ⟨hacc, ho, hph, hov⟩ := hs
  obtain ⟨hlegal, hframe⟩ := transactionSeq_legal hi s.cfg
  have hbudget : s.cfg.pollBudget ≠ none := by simp [hb]
  obtain ⟨es, phase, env, t, hes, hreplay, hlost, hrun⟩ :=
    transaction_lost ho hov hbudget hph hlegal rfl rfl rfl (hframe.trans hact) ha hv hlate
  obtain rfl : v.events = es := hes
  have hidle : (lostState v v.events phase a env s).activity = .idle := hacc.2
  rw [exec_transaction hi hacc hop, transactionBody, hrun, Flow.bind, txnResult_lost hlost, finish, conclude_idle _ hidle]
  refine ⟨_, phase, rfl, hreplay, ?_, rfl, rfl, rfl, rfl, hidle⟩
  cases a <;> rfl

end Sys2Proof.Machine
end

section
/-! PROOFS. A register transaction is the sequence of its primitives issued as commands (41_register_access.md R140, R141): the
client's record is no part of what a primitive reads, and it is all that the two ways of issuing a primitive differ in. -/

namespace Sys2Proof.Machine

/-! ### A primitive does not read the client's record -/

/-- The client's outcome put into each state a piece of pseudocode can end in. -/
def Flow.setLast {α : Type} (o : Option OpOutcome) : Flow α → Flow α
  | .done a s => .done a (s.setLast o)
  | .quit s => .quit (s.setLast o)
  | .fault r s => .fault r (s.setLast o)
  | .spin s => .spin (s.setLast o)

/-- The same for the preamble. -/
def Preamble.setLast (o : Option OpOutcome) : Preamble → Preamble
  | .pass s => .pass (s.setLast o)
  | .unresponsive => .unresponsive
  | .fault r s => .fault r (s.setLast o)

/-- The same for the wait. -/
def Wait.setLast (o : Option OpOutcome) : Wait → Wait
  | .done raw d s => .done raw d (s.setLast o)
  | .timeout s => .timeout (s.setLast o)
  | .hang s => .hang (s.setLast o)

section
variable (s : State) (o : Option OpOutcome)

theorem settleStop_setLast : settleStop (s.setLast o) = ((settleStop s).1, (settleStop s).2.setLast o) := by
  obtain ⟨he, hp⟩ | ⟨-, ho, he⟩ | ⟨hp, hf, he⟩ := settleStop_cases s
  · rw [he, settleStop_of_clear (by exact hp)]
  · rw [he, settleStop_harmless (.inr (by exact ho))]
    rfl
  · rw [he, settleStop_of_fault (by exact hp) (by exact hf)]
    rfl

theorem preamble_setLast (p : Prim) : preamble p (s.setLast o) = (preamble p s).setLast o := by
  unfold preamble
  rw [settleStop_setLast]
  simp only [apply_ite (Preamble.setLast o)]
  rfl

theorem waitFlag_setLast (act : BusAction) (ans : EnvAnswer) :
    waitFlag act ans (s.setLast o) = (waitFlag act ans s).setLast o := by
  unfold waitFlag
  simp only [State.setLast_cfg]
  cases s.cfg.pollBudget with
  | none => cases ans <;> rfl
  | some n =>
    cases ans with
    | done raw d late => simp only [apply_ite (Wait.setLast o)]; rfl
    | wedged => rfl

theorem launch_setLast (act : BusAction) (e : Env) :
    (launch act (s.setLast o)).setEnv e = ((launch act s).setEnv e).setLast o := rfl

theorem runWaiting_setLast (p : Prim) : runWaiting p (s.setLast o) = (runWaiting p s).setLast o := by
  unfold runWaiting
  simp only [State.setLast_ctl, State.setLast_cfg, State.setLast_env, launch_setLast, waitFlag_setLast]
  cases waitFlag (p.action s.ctl.phase) (s.env.receive s.cfg (p.action s.ctl.phase)).1
    ((launch (p.action s.ctl.phase) s).setEnv (s.env.receive s.cfg (p.action s.ctl.phase)).2) <;> rfl

theorem runPrim_setLast (p : Prim) : runPrim p (s.setLast o) = (runPrim p s).setLast o := by
  unfold runPrim
  rw [preamble_setLast]
  cases preamble p s with
  | unresponsive => rfl
  | fault r s' => rfl
  | pass s' =>
    simp only [Preamble.setLast, runWaiting_setLast, apply_ite (Flow.setLast o)]
    rfl

end

/-! ### The sequence, and its primitives as commands -/

/-- Two answers are next states that differ at most in the client's outcome. -/
def SameUpToLast (x y : Result) : Prop :=
  ∃ t u, x = .next t ∧ y = .next u ∧ t.setLast none = u.setLast none

theorem FaultSet.add_not_empty (f : FaultSet) (r : FaultReason) : (f.add r).isEmpty = false := by
  cases r <;> simp [FaultSet.add, FaultSet.isEmpty, FaultSet.empty]

/-- Bus work that has come to an end leaves an accepting block. -/
theorem BusWork.accepting {s t : State} (h : BusWork s t) (ha : t.activity = s.activity) (hs : s.accepting) : t.accepting := by
  obtain ⟨⟨hfaults, hrefused⟩, hidle⟩ := hs
  exact ⟨⟨by rw [h.faults]; exact hfaults, h.refused.trans hrefused⟩, ha.trans hidle⟩

/-- Commands go on from an accepting state. -/
theorem execAll_cons_accepting {i : Instr} {is : List Instr} {s t : State} (h : exec i s = .next t) (ht : t.accepting) :
    execAll (i :: is) s = execAll is t := by
  obtain ⟨⟨hfaults, hrefused⟩, hidle⟩ := ht
  simp [execAll, h, hfaults, hrefused, hidle]

/-- Commands end in a state that takes no next command. -/
theorem execAll_cons_stopped {i : Instr} {is : List Instr} {s t : State} (h : exec i s = .next t)
    (ht : t.ctl.faults.isEmpty = false ∨ t.activity ≠ .idle) : execAll (i :: is) s = .next t := by
  simp only [execAll, h]
  rw [if_neg]
  obtain hfaults | hbusy := ht
  · simp [hfaults]
  · simp [hbusy]

/-- The primitives of a sequence issued as commands, whatever the client's record, come to the end of the sequence. -/
theorem runSeq_execAll (ps : List Prim) (f : Txn → State → OpResult) :
    ∀ (t : Txn) (s : State) (o : Option OpOutcome), s.accepting →
    SameUpToLast (finish ((runSeq ps t s).bind fun t s => .done (f t s) s)) (execAll (ps.map Prim.instr) (s.setLast o)) := by
  induction ps with
  | nil =>
    intro t s o hs
    refine ⟨_, s.setLast o, rfl, rfl, ?_⟩
    rw [conclude_idle _ hs.2]
    rfl
  | cons p ps ih =>
    intro t s o hs
    have hexec : exec p.instr (s.setLast o) = finish ((runPrim p s).setLast o) := by
      rw [exec_prim (s := s.setLast o) hs, runPrim_setLast]
    have hcases := runPrim_holds p s
    rw [runSeq, List.map_cons]
    cases hrun : runPrim p s with
    | done r u =>
      rw [hrun] at hexec hcases
      obtain ⟨hwork, hact, -⟩ := hcases
      have hu : u.accepting := hwork.accepting hact hs
      rw [Flow.setLast, finish, conclude_idle (s := u.setLast o) _ hu.2] at hexec
      rw [execAll_cons_accepting hexec hu]
      exact ih (t.note r) u (some (.completed r)) hu
    | quit u => rw [hrun] at hcases; exact hcases.elim
    | fault r u =>
      rw [hrun] at hexec
      rw [execAll_cons_stopped hexec (.inl (FaultSet.add_not_empty _ _))]
      exact ⟨raiseFault r u, raiseFault r (u.setLast o), rfl, rfl, rfl⟩
    | spin u =>
      rw [hrun] at hexec hcases
      obtain ⟨-, hhung⟩ := hcases
      obtain ⟨act, hact⟩ := hhung.activity
      rw [execAll_cons_stopped hexec (.inr (by simp [hact]))]
      exact ⟨u.setLast none, (u.setLast o).setLast none, rfl, rfl, rfl⟩

/-- The commands of R144 to R148 are the primitives of the expansion. -/
theorem expansion_eq {i : Instr} (hi : isTransaction i = true) (cfg : Params) :
    expansion cfg i = (transactionSeq cfg i).map Prim.instr := by
  cases i with
  | setPointer | writeByte | readByte => rfl
  | writeBlock reg n bs => simp [expansion, transactionSeq, writeBlockSeq, setPointerSeq, Prim.instr]
  | readBlock reg n => simp [expansion, transactionSeq, readBlockSeq, setPointerSeq, Prim.instr]
  | _ => cases hi

/-- Settles O19, by the sequence of primitives and the commands taken one by one. -/
theorem aTransactionIsItsExpansion : Obligations.ATransactionIsItsExpansion := by
  intro i s hi hop hs hph
  have h := runSeq_execAll (transactionSeq s.cfg i) (fun t u => txnResult u.cfg t (transactionValue s.cfg i t)) Txn.empty s
    s.client.last hs
  rw [exec_transaction hi hs hop, expansion_eq hi, transactionBody, transaction, if_neg (not_not_intro hph)]
  exact h

end Sys2Proof.Machine
end

section
/-! PROOFS. Which registers of the reference slave a command, or a step of a poll, can change (92_eei_decisions.md D39): those it
names. -/

namespace Sys2Proof.Machine

/-- The registers a command names (R145, R146, R178, R182, R184 to R186, R188). A SEND_BYTE may be any byte of a frame, and
names all. -/
def namedRegisters (cfg : Params) : Instr → Nat → Prop
  | .sendByte _, _ => True
  | .writeByte reg _, a => reg.toNat = a
  | .writeBlock reg n _, a => ∃ k, k < n.toNat ∧ (slaveAddr reg k).toNat = a
  | .configureSweep _ _ _, a => (regBase cfg .ctrlHi).toNat = a ∨
      (∃ k, k < 3 ∧ ((slaveAddr (regBase cfg .start) k).toNat = a ∨ (slaveAddr (regBase cfg .delta) k).toNat = a)) ∨
      ∃ k, k < 2 ∧ ((slaveAddr (regBase cfg .nInc) k).toNat = a ∨ (slaveAddr (regBase cfg .settle) k).toNat = a)
  | .processStep _, a => (regBase cfg .ctrlHi).toNat = a
  | .measureTemperature, a => (regBase cfg .ctrlHi).toNat = a
  | _, _ => False

/-- The register a poll and what follows it can store to (R182; R188 stores nothing). -/
def PollJob.namedRegisters (cfg : Params) (job : PollJob) (a : Nat) : Prop := job = .sweep ∧ (regBase cfg .ctrlHi).toNat = a

section
variable {A : Nat → Prop}

theorem MemKeeps.refl (s : State) : MemKeeps A s s := (MemKeeps.rel A).refl s

/-- A write to the context leaves the slave alone. -/
theorem MemKeeps.setCtx (s : State) (c : Ctx) : MemKeeps A s (s.setCtx c) := .of_slave rfl rfl

theorem PollJob.writesWithin_stores (job : PollJob) : job.writesWithin (MemKeeps A) := by
  cases job with
  | sweep => exact ⟨fun u _ => .setCtx u _, fun u _ _ => .setCtx u _, fun u => .setCtx u _⟩
  | temperature => exact ⟨fun u _ => .setCtx u _, fun u _ => .setCtx u _⟩

/-- A primitive stores at most where its action does. -/
theorem runPrim_stores {p : Prim} {s : State}
    (h : ∀ x, s.env.slave.storesTo (p.action s.ctl.phase) = some x → A x.toNat) : (runPrim p s).Within (MemKeeps A) s :=
  (runPrim_env p s).imp (fun _ _ hu => hu.env.keeps fun _ => h) (fun _ hu => hu.keeps fun _ => h) (fun _ hu => hu.keeps fun _ => h)
    (fun _ hu => hu.keeps fun _ => h)

/-- Only SEND_BYTE hands the slave a byte to store. -/
theorem Prim.storesTo_eq_none {p : Prim} (hp : ∀ b, p ≠ .sendByte b) (ph : BusPhase) (sl : Slave) :
    sl.storesTo (p.action ph) = none := by
  cases p with
  | sendByte b => exact absurd rfl (hp b)
  | start => cases ph <;> rfl
  | _ => rfl

theorem runPrim_storesNothing {p : Prim} (hp : ∀ b, p ≠ .sendByte b) (s : State) : (runPrim p s).Within (MemKeeps A) s :=
  runPrim_stores fun x hx => by rw [Prim.storesTo_eq_none hp] at hx; cases hx

/-- A client's register transaction stores at most where its frame does. -/
theorem bodyOf_transaction_stores {i : Instr} {s : State} (hi : isTransaction i = true)
    (h : ∀ sl, StoresIn s.cfg A sl (transactionFrame s.cfg i)) : (bodyOf i s).Within (MemKeeps A) s := by
  obtain ⟨-, hframe⟩ := transactionSeq_legal hi s.cfg
  rw [bodyOf_transaction hi]
  exact transactionBody_stores fun sl => hframe ▸ h sl

end

/-- The body of a command stores at most to the registers it names. -/
theorem bodyOf_stores (i : Instr) (s : State) : (bodyOf i s).Within (MemKeeps (namedRegisters s.cfg i)) s := by
  cases i with
  | configure speed => exact configureBody_within (fun _ => .refl s) fun _ => .of_slave rfl rfl
  | start => exact runPrim_storesNothing (by simp) s
  | sendAddr => exact runPrim_storesNothing (by simp) s
  | sendByte => exact runPrim_stores fun _ _ => trivial
  | recvAck => exact runPrim_storesNothing (by simp) s
  | recvNack => exact runPrim_storesNothing (by simp) s
  | stop => exact runPrim_storesNothing (by simp) s
  | setPointer reg => exact bodyOf_transaction_stores rfl fun sl => StoresIn.setPointer (rest := []) (fun _ _ => trivial) sl
  | writeByte reg v => exact bodyOf_transaction_stores rfl fun sl => StoresIn.writeByte rfl sl
  | writeBlock reg n bs => exact bodyOf_transaction_stores rfl fun sl => StoresIn.writeBlock (fun k hk => ⟨k, hk, rfl⟩) sl
  | readByte reg => exact bodyOf_transaction_stores rfl fun sl => StoresIn.readByte sl
  | readBlock reg n => exact bodyOf_transaction_stores rfl fun sl => StoresIn.readBlock sl
  | configureSweep f d n =>
    refine configureSweepBody_within (MemKeeps.rel _) (cmdWithin_stores (.inl rfl)) (fun r bs u hu hr => ?_) (.setCtx s _)
      (fun u => .setCtx u _)
    refine writeReg_stores fun k hk => ?_
    rw [hu]
    obtain rfl | rfl | rfl | rfl := hr
    · exact .inr (.inl ⟨k, hk, .inl rfl⟩)
    · exact .inr (.inl ⟨k, hk, .inr rfl⟩)
    · exact .inr (.inr ⟨k, hk, .inl rfl⟩)
    · exact .inr (.inr ⟨k, hk, .inr rfl⟩)
  | beginSweep => exact beginSweepBody_within (.refl s) (.setCtx s _)
  | processStep choice =>
    exact processStepBody_within (MemKeeps.rel _) (readsWithin_stores _ _) (cmdWithin_stores rfl)
      (PollJob.writesWithin_stores .sweep) (fun u _ => .setCtx u _)
  | measureTemperature =>
    exact measureTemperatureBody_within (MemKeeps.rel _) (readsWithin_stores _ _) (cmdWithin_stores rfl)
      (PollJob.writesWithin_stores .temperature)
  | getReal => exact accessor_within _ (.refl s)
  | getImag => exact accessor_within _ (.refl s)
  | getTemperature => exact accessor_within _ (.refl s)
  | setRange level => exact .of_slave rfl rfl

theorem exec_stores {i : Instr} {s t : State} (h : exec i s = .next t) : MemKeeps (namedRegisters s.cfg i) s t := by
  obtain ⟨-, ⟨r, rfl⟩ | ⟨-, -, hf⟩⟩ := exec_next h
  · exact .of_slave rfl rfl
  · exact (MemKeeps.rel _).finish (bodyOf_stores i s) hf

/-- The environment's turn leaves the slave alone (40_bus_primitives.md R103, R114). -/
theorem envTurn_slave (s : State) : (envTurn s).2.env.slave = s.env.slave := by
  unfold envTurn envStep
  split
  · split
    · split
      · exact Env.choose_slave s.env
      · split <;> exact Env.choose_slave s.env
    · exact Env.choose_slave s.env
  · rfl

/-- One turn of a poll stores at most to the command register, and only a sweep's does. -/
theorem pollTurn_stores (job : PollJob) (k : Nat) (st : Option Byte) (s : State) :
    (pollTurn job k st s).Within (MemKeeps (job.namedRegisters s.cfg)) s :=
  pollTurn_within (MemKeeps.rel _) (readsWithin_stores _ _) (fun hj => cmdWithin_stores ⟨hj, rfl⟩) job.writesWithin_stores

/-- A step of an operation that is polling: the environment's, or one turn of the poll. -/
theorem step_poll_stores {job : PollJob} {k : Nat} {st : Option Byte} {s t : State} (ha : s.activity = .polling job k st)
    (h : step s = .next t) : MemKeeps (job.namedRegisters s.cfg) s t := by
  have hcfg : (envTurn s).2.cfg = s.cfg := (envTurn_work s).cfg
  have henv : MemKeeps (job.namedRegisters s.cfg) s (envTurn s).2 := .of_slave hcfg (envTurn_slave s)
  obtain ⟨-, ⟨act, hwait, -⟩ | rfl | ⟨job', k', st', ha', hf⟩ | ⟨hidle, -⟩⟩ := step_cases h
  · rw [ha] at hwait; cases hwait
  · exact henv
  · rw [ha] at ha'
    cases ha'
    have hturn := pollTurn_stores job k st (envTurn s).2
    rw [hcfg] at hturn
    exact (MemKeeps.rel _).trans henv ((MemKeeps.rel _).finish hturn hf)
  · rw [ha] at hidle; cases hidle

/-- Settles O22: a register that is read differently is one of those the command or the poll names. -/
theorem transactionsStoreOnlyToTheirRegisters : Obligations.TransactionsStoreOnlyToTheirRegisters := by
  refine ⟨fun i s t hs hi h a ha => ?_, fun job k st s t hs hact h a ha => ?_⟩
  · refine (exec_stores h).reads hs.memory a ?_
    cases i with
    | sendByte => exact hi.elim
    | writeByte | processStep | measureTemperature => exact ha
    | writeBlock reg n bs => exact fun ⟨k, hk, hka⟩ => ha k hk hka
    | configureSweep f d n =>
      obtain ⟨hctrl, hfreq, hshort⟩ := ha
      rintro (hc | ⟨k, hk, hk'⟩ | ⟨k, hk, hk'⟩)
      · exact hctrl hc
      · exact hk'.elim (hfreq k hk).1 (hfreq k hk).2
      · exact hk'.elim (hshort k hk).1 (hshort k hk).2
    | _ => exact id
  · exact (step_poll_stores hact h).reads hs.memory a fun ⟨hj, hja⟩ => ha hj hja

end Sys2Proof.Machine
end

section
/-! PROOFS. A block write and a block read against the reference slave (92_eei_decisions.md D39; 95_test_vectors.md V-RT-1): the
slave serves every action, and what it holds and gives after a frame follows byte by byte. -/

namespace Sys2Proof.Machine

/-! ### The reference slave as the environment -/

/-- Whatever byte floats, the slave and the bytes received satisfy `P` after these actions. -/
def SlaveRun (cfg : Params) (P : Slave → List Byte → Prop) : Slave → List Byte → List BusAction → Prop
  | sl, bs, [] => P sl bs
  | sl, bs, a :: as => ∀ float, SlaveRun cfg P (sl.receive cfg a float).2.2
      (bs ++ actionByte (sl.receive cfg a float).2.1 a) as

/-- An answer before the first poll is in time under every budget but 0 (R103). -/
theorem inTime_zero {cfg : Params} (h : cfg.pollBudget ≠ some 0) : inTime cfg 0 = true := by
  unfold inTime
  cases hn : cfg.pollBudget with
  | none => rfl
  | some n => simpa [Nat.pos_iff_ne_zero, hn] using h

/-- The slave completes every action before the first poll (D39), so it serves every frame. -/
theorem serve_slave {cfg : Params} {P : Slave → List Byte → Prop} (hb : cfg.pollBudget ≠ some 0) (acts : List BusAction) :
    ∀ v : Service, v.env.mode = .slave → SlaveRun cfg P v.env.slave v.bytes acts →
    ∃ v', serve cfg acts v = some v' ∧ v'.env.mode = .slave ∧ P v'.env.slave v'.bytes := by
  have hintime := inTime_zero hb
  induction acts with
  | nil => intro v hm hrun; exact ⟨v, rfl, hm, hrun⟩
  | cons a acts ih =>
    intro v hm hrun
    have hrun := hrun (Config.unaddressedByte v.env.draws)
    have hreceive : v.env.receive cfg a = v.env.slaveAnswer cfg a := by simp [Env.receive, hm]
    have hstop : v.env.receiveStop cfg = (v.env.slaveAnswer cfg .stop).2 := by simp [Env.receiveStop, hm]
    cases a with
    | stop =>
      rw [serve]
      refine ih _ ?_ ?_
      · rw [hstop]
        exact hm
      · rw [hstop]
        simpa [Env.slaveAnswer, actionByte] using hrun
    | _ =>
      simp only [serve, hreceive, Env.slaveAnswer, hintime, if_true]
      exact ih _ hm hrun

/-! ### Two neighbouring registers -/

/-- The register file after a block of two bytes at `reg` (D39). -/
def Memory.storePair (m : Memory) (reg b0 b1 : Byte) : Memory :=
  Memory.write (Memory.write m (slaveAddr reg 0).toNat b0) (slaveAddr reg 1).toNat b1

/-- The two bytes a block read at `reg` gives (D39). -/
def Memory.pairAt (m : Memory) (reg : Byte) : List Byte :=
  [Memory.read m (slaveAddr reg 0).toNat, Memory.read m (slaveAddr reg 1).toNat]

/-- Neighbouring registers have different addresses, also where they wrap (D39). -/
theorem slaveAddr_zero_ne_one (reg : Byte) : (slaveAddr reg 0).toNat ≠ (slaveAddr reg 1).toNat := by
  simp only [slaveAddr]
  bv_omega

theorem Memory.pairAt_storePair {m : Memory} (hm : m.wf = true) (reg b0 b1 : Byte) :
    (m.storePair reg b0 b1).pairAt reg = [b0, b1] := by
  have hw : (Memory.write m (slaveAddr reg 0).toNat b0).wf = true := Memory.write_wf (slaveAddr reg 0).isLt hm
  simp [Memory.pairAt, Memory.storePair, Memory.read_write hw, Memory.read_write hm, slaveAddr_zero_ne_one]

/-! ### The two frames at the slave -/

theorem Slave.readReg_of_noScripts {sl : Slave} (h : sl.scripts = []) (a : Byte) :
    sl.readReg a = (Memory.read sl.mem a.toNat, sl) := by
  simp [Slave.readReg, h, scriptTake]

theorem addrR_ne_addrW (cfg : Params) : addrR cfg ≠ addrW cfg := fun h => by
  have hread := addrR_read cfg
  rw [h, addrW_write] at hread
  cases hread

section
variable {cfg : Params} {P : Slave → List Byte → Prop}

/-- The SET_POINTER frame moves the pointer and leaves the register file and the scripts. -/
theorem SlaveRun.setPointer {reg : Byte} {sl : Slave} {bs : List Byte} {rest : List BusAction}
    (h : SlaveRun cfg P { sl with ptr := reg, pos := .unaddressed } bs rest) :
    SlaveRun cfg P sl bs (setPointerFrame cfg reg ++ rest) := by
  simpa [setPointerFrame, SlaveRun, Slave.receive, Slave.address, Slave.takeByte, actionByte] using h

/-- A block write of two bytes stores them at its register and the next one. -/
theorem SlaveRun.writeBlock_two (hpw : cfg.opPointer ≠ cfg.opBlockWrite) (reg b0 b1 : Byte) (sl : Slave) :
    SlaveRun cfg
      (fun sl' _ => sl'.scripts = sl.scripts ∧ sl'.mem = sl.mem.storePair reg b0 b1)
      sl [] (writeBlockFrame cfg reg 2 [b0, b1]) := by
  refine SlaveRun.setPointer ?_
  simp [SlaveRun, Slave.receive, Slave.address, Slave.takeByte, Slave.writeReg, Memory.storePair, hpw.symm]

/-- A block read of two bytes receives what its register and the next one hold. -/
theorem SlaveRun.readBlock_two (hpr : cfg.opPointer ≠ cfg.opBlockRead) (hwr : cfg.opBlockWrite ≠ cfg.opBlockRead) (reg : Byte)
    {sl : Slave} (hsc : sl.scripts = []) :
    SlaveRun cfg (fun _ bs => bs = sl.mem.pairAt reg) sl [] (readBlockFrame cfg reg 2) := by
  refine SlaveRun.setPointer ?_
  simp [SlaveRun, Slave.receive, Slave.address, Slave.takeByte, Slave.giveByte, Slave.readReg_of_noScripts, hsc, actionByte,
    Memory.pairAt, hpr.symm, hwr.symm, addrR_ne_addrW]

end

/-! ### The round trip -/

/-- A served transaction leaves the block ready for the next one. -/
theorem State.readyForTransactions.afterTransactions {s : State} (hs : s.readyForTransactions) (v : Service) (r : OpResult) :
    (afterTransactions s v r).readyForTransactions := by
  obtain ⟨⟨hmarks, -⟩, ho, -, hov⟩ := hs
  exact ⟨⟨hmarks, rfl⟩, ho, rfl, hov⟩

@[simp] theorem afterTransactions_env (s : State) (v : Service) (r : OpResult) : (afterTransactions s v r).env = v.env := rfl

theorem reported_of_ignore {cfg : Params} (h : cfg.errProp = .ignore) (firstErr : Option Byte) (v : OpResult) :
    reported cfg firstErr v = v := by
  simp [reported, h]

/-- A block write of two bytes against the reference slave. -/
theorem exec_writeBlock_slave {s : State} (hs : s.readyForTransactions) (hm : s.env.mode = .slave)
    (hb : s.cfg.pollBudget ≠ some 0) (hpw : s.cfg.opPointer ≠ s.cfg.opBlockWrite) (reg b0 b1 : Byte) :
    ∃ v r, exec (.writeBlock reg 2 [b0, b1]) s = .next (afterTransactions s v r) ∧ v.env.mode = .slave ∧
      v.env.slave.scripts = s.env.slave.scripts ∧ v.env.slave.mem = s.env.slave.mem.storePair reg b0 b1 := by
  obtain ⟨v, hv, hmv, hscripts, hmem⟩ :=
    serve_slave hb _ (Service.start s) hm (SlaveRun.writeBlock_two hpw reg b0 b1 s.env.slave)
  exact ⟨v, _, exec_transaction_serve (i := .writeBlock reg 2 [b0, b1]) rfl hs id hv, hmv, hscripts, hmem⟩

/-- A block read of two bytes against the reference slave. -/
theorem exec_readBlock_slave {s : State} (hs : s.readyForTransactions) (hm : s.env.mode = .slave)
    (hb : s.cfg.pollBudget ≠ some 0) (hpr : s.cfg.opPointer ≠ s.cfg.opBlockRead) (hwr : s.cfg.opBlockWrite ≠ s.cfg.opBlockRead)
    (herr : s.cfg.errProp = .ignore) (hscripts : s.env.slave.scripts = []) (reg : Byte) :
    ∃ u, exec (.readBlock reg 2) s = .next u ∧ u.client.last = some (.completed (.value
      (assemble s.cfg 2 (s.env.slave.mem.pairAt reg)))) := by
  obtain ⟨v, hv, -, hbytes⟩ := serve_slave hb _ (Service.start s) hm (SlaveRun.readBlock_two hpr hwr reg hscripts)
  refine ⟨_, exec_transaction_serve (i := .readBlock reg 2) rfl hs (by simp [operandRefused]) hv, ?_⟩
  rw [reported_of_ignore herr, transactionValue, hbytes]
  rfl

/-- Settles O44: the write leaves the two bytes of `x` in the slave, and the read gives them back. -/
theorem referenceSlaveReturnsWhatWasWritten : Obligations.ReferenceSlaveReturnsWhatWasWritten := by
  intro s reg x hs hm hscripts hw hb herr hpw hpr hwr
  obtain ⟨v, r, hwrite, hmv, hscv, hmem⟩ := exec_writeBlock_slave hs hm hb hpw reg (x.extractLsb' 8 8) (x.extractLsb' 0 8)
  obtain ⟨u, hread, hlast⟩ := exec_readBlock_slave (hs.afterTransactions v r) hmv hb hpr hwr herr (hscv.trans hscripts) reg
  refine ⟨_, u, hwrite, hread, ?_⟩
  rw [hlast, afterTransactions_env, hmem, Memory.pairAt_storePair hw, assemble_two, join2_bytes2]

end Sys2Proof.Machine
end

section
/-! PROOFS. The codecs of the sweep controller (42_sweep_controller.md R171 to R175). -/

namespace Sys2Proof.Machine

/-! ### Rounding (R171) -/

/-- With ties away from zero the floor goes up by one just when the fraction is at least one half. -/
theorem roundRatio_halfAwayFromZero {den : Nat} (num : Nat) (hden : 0 < den) :
    roundRatio .halfAwayFromZero num den = num / den + (2 * (num % den) + den) / (2 * den) := by
  have hnum : 2 * num + den = 2 * (num % den) + den + 2 * den * (num / den) := by
    conv_lhs => rw [← Nat.mod_add_div num den]
    ring
  rw [roundRatio, hnum, Nat.add_mul_div_left _ _ (by omega), Nat.add_comm]

theorem roundRatio_below (tie : RoundTie) {num den : Nat} (h : 2 * (num % den) < den) : roundRatio tie num den = num / den := by
  cases tie with
  | halfAwayFromZero => rw [roundRatio_halfAwayFromZero num (by omega),
      Nat.div_eq_of_lt (show 2 * (num % den) + den < 2 * den by omega), Nat.add_zero]
  | halfEven => simp [roundRatio, h]

/-- A half or more of a denominator, and another half, are one denominator. -/
theorem half_up {r den : Nat} (hr : r < den) (h : den ≤ 2 * r) : (2 * r + den) / (2 * den) = 1 := by
  rw [Nat.div_eq_iff (by omega)]
  omega

theorem roundRatio_above (tie : RoundTie) {num den : Nat} (hden : 0 < den) (h : den < 2 * (num % den)) :
    roundRatio tie num den = num / den + 1 := by
  cases tie with
  | halfAwayFromZero => rw [roundRatio_halfAwayFromZero num hden, half_up (Nat.mod_lt num hden) h.le]
  | halfEven => simp [roundRatio, h, h.le]

/-- At a tie `HalfEven` takes the even one of the two nearest. -/
theorem roundRatio_halfEven_tie {num den : Nat} (h : 2 * (num % den) = den) :
    roundRatio .halfEven num den = if num / den % 2 = 0 then num / den else num / den + 1 := by
  simp [roundRatio, h]

/-- Settles O46: below, above and at one half, and the codes are the low bits of their numbers. -/
theorem frequencyAndSettleCodes : Obligations.FrequencyAndSettleCodes := by
  refine ⟨fun tie num den hden => ⟨roundRatio_below tie, roundRatio_above tie hden, fun h => ⟨?_, ?_⟩, ?_⟩,
    fun f d n => ⟨?_, ?_⟩⟩
  · rw [roundRatio_halfAwayFromZero num hden, half_up (Nat.mod_lt num hden) h.ge]
  · rw [roundRatio_halfEven_tie h]
    split <;> omega
  · intro cfg hz
    exact BitVec.toNat_ofNat _ _
  · exact BitVec.toNat_ofNat _ _
  · intro h
    rw [settleCode, Nat.div_eq_of_lt h]
    rfl

/-! ### Samples and temperatures (R174, R175) -/

theorem decode16_eq_toInt (v : U16) : decode16 v = v.toInt := by
  rw [decode16, BitVec.toInt_eq_toNat_cond]
  split <;> split <;> omega

theorem decodeTemp_of_low {raw : U16} (h : raw.toNat < 8192) : decodeTemp raw = (raw.toNat : Int) / 32 := by
  rw [decodeTemp, if_pos h, Int.tdiv_eq_ediv_of_nonneg (by omega)]

/-- Below 16384 the temperature is negative, and truncating toward zero rounds its absolute value down. -/
theorem decodeTemp_of_middle {raw : U16} (h : 8192 ≤ raw.toNat) (h' : raw.toNat < 16384) :
    decodeTemp raw = -((16384 - (raw.toNat : Int)) / 32) := by
  rw [decodeTemp, if_neg (by omega), ← Int.neg_sub, Int.neg_tdiv, Int.tdiv_eq_ediv_of_nonneg (by omega)]

theorem decodeTemp_of_high {raw : U16} (h : 16384 ≤ raw.toNat) : decodeTemp raw = ((raw.toNat : Int) - 16384) / 32 := by
  rw [decodeTemp, if_neg (by omega), Int.tdiv_eq_ediv_of_nonneg (by omega)]

/-- Settles O47, by the closed form of the temperature on each of the three ranges. -/
theorem samplesAndTemperaturesDecode : Obligations.SamplesAndTemperaturesDecode := by
  refine ⟨fun v => ⟨decode16_eq_toInt v, rfl, decode16_range v⟩, fun raw => ⟨rfl, fun h => ?_, fun h h' => ?_, fun h => ?_⟩⟩
  · rw [decodeTemp_of_low h]
    omega
  · rw [decodeTemp_of_middle h h']
    omega
  · have hlt := raw.isLt
    rw [decodeTemp_of_high h]
    omega

end Sys2Proof.Machine
end

section
/-! PROOFS. The sweep operations that do no bus work (42_sweep_controller.md R179 to R183, R189 to R191), CONFIGURE_SWEEP in an
unconfigured block (R178, R226), and the table of the trigger's transitions (R192). -/

namespace Sys2Proof.Machine

/-! ### How a command without bus work ends -/

/-- A command whose body completes: nothing was in progress, and nothing is. -/
theorem exec_of_done {i : Instr} {s u : State} {r : OpResult} (hs : s.accepting) (ho : ¬ operandRefused s.cfg i)
    (hb : bodyOf i s = .done r u) (hu : u.activity = .idle) : exec i s = .next (u.setLast (some (.completed r))) := by
  rw [exec_accepted hs ho, hb, finish, conclude_idle _ hu]

/-- A command whose body raises a fault. -/
theorem exec_of_fault {i : Instr} {s u : State} {r : FaultReason} (hs : s.accepting) (ho : ¬ operandRefused s.cfg i)
    (hb : bodyOf i s = .fault r u) (hu : u.activity = .idle) :
    exec i s = .next ((u.setCtl { u.ctl with faults := u.ctl.faults.add r }).setLast (some (.faulted r))) := by
  rw [exec_accepted hs ho, hb, finish, raiseFault_idle _ hu]

/-- PROCESS_STEP takes the choices 0 and 1 (30_encoding.md R75). -/
theorem processStep_not_refused (cfg : Params) {choice : Byte} (h : choice = 0 ∨ choice = 1) :
    ¬ operandRefused cfg (.processStep choice) := fun ⟨h0, h1⟩ => h.elim h0 h1

/-! ### BEGIN_SWEEP, and the steps without bus work -/

/-- Settles O50: the body's test of the trigger. -/
theorem beginSweepOnlyFromIdle : Obligations.BeginSweepOnlyFromIdle := by
  intro s hs
  obtain ⟨-, hidle⟩ := id hs
  refine ⟨rfl, fun ht => ?_, fun ht => ?_⟩
  · exact exec_of_done (i := .beginSweep) hs id (if_neg (not_not_intro ht)) hidle
  · exact exec_of_fault (i := .beginSweep) hs id (if_pos ht) hidle

/-- Settles O51: from `Idle` the body is over at once. -/
theorem processStepFromIdleDoesNothing : Obligations.ProcessStepFromIdleDoesNothing := by
  intro s choice hs hchoice ht
  obtain ⟨-, hidle⟩ := id hs
  have hbody : processStepBody choice s = .done .unit s := by rw [processStepBody, ht]
  exact exec_of_done hs (processStep_not_refused s.cfg hchoice) hbody hidle

/-- Settles O52: the body reads the last status before it chooses. -/
theorem dftCompleteChoosesTheNextStep : Obligations.DftCompleteChoosesTheNextStep := by
  intro s choice hs hchoice ht
  obtain ⟨-, hidle⟩ := id hs
  have hop := processStep_not_refused s.cfg hchoice
  have hbody : processStepBody choice s = stepDftComplete choice s := by rw [processStepBody, ht]
  refine ⟨fun st hst => ?_, fun hst => ?_⟩
  · have hdone : stepDftComplete choice s = .done .unit (s.setTrigger (afterDft s.cfg choice st)) := by
      rw [stepDftComplete, hst, readReg]
    rw [exec_of_done hs hop (hbody.trans hdone) hidle]
    simp [afterDft, maskSet, State.setTrigger, State.setCtx, State.setLast]
  · have hfault : stepDftComplete choice s = .fault .unwrittenRead s := by rw [stepDftComplete, hst, readReg]
    exact exec_of_fault hs hop (hbody.trans hfault) hidle

/-! ### The accessors -/

/-- Settles O59: each body is a read of its field. -/
theorem accessorsReturnTheirField : Obligations.AccessorsReturnTheirField := by
  intro s i field hs hi
  obtain ⟨-, hidle⟩ := id hs
  have hbody : bodyOf i s = accessor field s ∧ ¬ operandRefused s.cfg i := by
    obtain ⟨rfl, rfl⟩ | ⟨rfl, rfl⟩ | ⟨rfl, rfl⟩ := hi <;> exact ⟨rfl, id⟩
  obtain ⟨hbody, hop⟩ := hbody
  refine ⟨fun v hv => ?_, fun hv => ?_⟩
  · subst hv
    exact exec_of_done hs hop hbody hidle
  · subst hv
    exact exec_of_fault hs hop hbody hidle

/-! ### CONFIGURE_SWEEP before CONFIGURE -/

/-- Before CONFIGURE the first primitive of a transaction faults (40_bus_primitives.md R100). -/
theorem innerTxn_notConfigured {s : State} (hc : s.ctl.configured = false) (hph : s.ctl.phase = .free) (p : Prim)
    (ps : List Prim) : innerTxn (p :: ps) s = .fault .notConfigured s := by
  rw [innerTxn, transaction, if_neg (not_not_intro hph), runSeq, runPrim_notConfigured hc]
  rfl

theorem configureSweepBody_notConfigured {s : State} (f d : U32) (n : U16) (hc : s.ctl.configured = false)
    (hph : s.ctl.phase = .free) :
    configureSweepBody f d n s = .fault .notConfigured (s.setCtx (programmed s.cfg f d n s.ctx)) := by
  rw [configureSweepBody, writeReg, writeBlockSeq, setPointerSeq, List.cons_append, delay_eq,
    innerTxn_notConfigured (by exact hc) (by exact hph), Flow.bind]

/-- Settles O49: the codes are written before the first transaction, which faults. -/
theorem configureSweepFaultKeepsWhatWasWritten : Obligations.ConfigureSweepFaultKeepsWhatWasWritten := by
  intro s f d n hs hph hc hn
  obtain ⟨-, hidle⟩ := id hs
  exact exec_of_fault (i := .configureSweep f d n) hs (Nat.not_lt.2 hn) (configureSweepBody_notConfigured f d n hc hph) hidle

/-! ### The trigger (R192) -/

/-- A set of triggers that holds the one an operation found and those it can move to holds the one it leaves. -/
theorem BodyFacts.triggerWithin {s : State} {x : Flow OpResult} {T T' : Trigger → Prop} {S : State → Prop}
    (hx : BodyFacts s x T S) (same : T' s.ctx.trigger) (moved : ∀ t, T t → T' t) :
    x.Within (fun _ u => T' u.ctx.trigger) s := by
  have stopped : ∀ u, PieceStopped s u → T' u.ctx.trigger := fun u hu => by rw [hu.trigger]; exact same
  exact Flow.Holds.imp hx (fun _ _ h => moved _ h.2.2.1) (fun u h => stopped u h.1) stopped (fun u h => stopped u h.1)

theorem bodyOf_trigger {i : Instr} {s : State} (ho : operandsAccepted s.cfg i = true) :
    (bodyOf i s).Within (fun s u => rowOf s i u.ctx.trigger) s := by
  obtain ⟨speed, rfl⟩ | ⟨level, rfl⟩ | ⟨hc, hr⟩ := configure_or_setRange_or_other i
  · exact configureBody_within (fun _ => .inl rfl) fun _ => .inl rfl
  · exact .inl rfl
  · exact (body_facts i s ho hc hr).triggerWithin (.inl rfl) fun _ => id

theorem exec_trigger {i : Instr} {s t : State} (h : exec i s = .next t) : rowOf s i t.ctx.trigger := by
  obtain ⟨-, ⟨r, rfl⟩ | ⟨-, ho, hf⟩⟩ := exec_next h
  · exact .inl rfl
  · exact (bodyOf_trigger ho).answer (fun _ _ hu => hu) (fun _ _ hu => hu) (fun _ _ hu => hu) hf

theorem pollTurn_trigger {job : PollJob} {k : Nat} {st : Option Byte} {s t : State} (h : finish (pollTurn job k st s) = .next t) :
    t.ctx.trigger = s.ctx.trigger ∨ t.ctx.trigger = job.triggerAfter s.ctx.trigger :=
  ((pollTurn_facts job k st s).triggerWithin (T' := fun t => t = s.ctx.trigger ∨ t = job.triggerAfter s.ctx.trigger) (.inl rfl)
    fun _ => .inr).answer (fun _ _ hu => hu) (fun _ _ hu => hu) (fun _ _ hu => hu) h

/-- Settles O17, by the triggers a body can end in; the invariant says in which state a sweep poll is. -/
theorem triggerMovesOnlyByTheTable : Obligations.TriggerMovesOnlyByTheTable := by
  refine ⟨fun s t i => exec_trigger, fun s t job k st hs ha h => ?_⟩
  have henv : (envTurn s).2.ctx = s.ctx := (envTurn_work s).ctx
  obtain ⟨-, ⟨act, hact, -⟩ | rfl | ⟨job', k', st', ha', hf⟩ | ⟨hidle, -⟩⟩ := step_cases h
  · exact absurd (ha.symm.trans hact) nofun
  · exact .inl (congrArg Ctx.trigger henv)
  · obtain ⟨rfl, rfl, rfl⟩ := Activity.polling.inj (ha.symm.trans ha')
    have ht := pollTurn_trigger hf
    rw [henv] at ht
    cases job with
    | sweep => exact ht.imp_right fun ht => ⟨rfl, hs.sweepPoll ha rfl, ht⟩
    | temperature => exact .inl (ht.elim id id)
  · exact absurd (ha.symm.trans hidle) nofun

end Sys2Proof.Machine
end

section
/-! PROOFS. The sweep operations that the environment serves (42_sweep_controller.md R178, R182 to R186, R188): each transaction
takes the operation from one served state to the next, and the operation completes with what it has received. -/

namespace Sys2Proof.Machine

/-! ### What a list of bus actions receives -/

/-- How many bytes a list of bus actions receives. -/
def receptions (acts : List BusAction) : Nat := acts.countP (fun a => !receivesNothing a)

@[simp] theorem receptions_append (xs ys : List BusAction) : receptions (xs ++ ys) = receptions xs + receptions ys :=
  List.countP_append

theorem actionByte_length (d : Byte) (a : BusAction) : (actionByte d a).length = receptions [a] := by
  cases a <;> rfl

/-- A service adds one byte for each reception and one event for each action. -/
theorem serve_adds {cfg : Params} (acts : List BusAction) : ∀ {v v' : Service}, serve cfg acts v = some v' →
    (∃ bs, v'.bytes = v.bytes ++ bs ∧ bs.length = receptions acts) ∧ v'.events.length = v.events.length + acts.length := by
  induction acts with
  | nil =>
    intro v v' h
    cases h
    exact ⟨⟨[], (List.append_nil _).symm, rfl⟩, rfl⟩
  | cons a acts ih =>
    intro v v' h
    by_cases ha : a = .stop
    · subst ha
      obtain ⟨⟨bs, hbytes, hlen⟩, hevents⟩ := ih (by exact h)
      exact ⟨⟨bs, hbytes, hlen⟩, by rw [hevents]; simp; omega⟩
    · obtain ⟨raw, d, late, env, -, -, h'⟩ := serve_cons ha h
      obtain ⟨⟨bs, hbytes, hlen⟩, hevents⟩ := ih h'
      refine ⟨⟨actionByte d a ++ bs, by rw [hbytes]; simp [Service.add], ?_⟩, by rw [hevents]; simp [Service.add]; omega⟩
      rw [List.length_append, actionByte_length, hlen, ← receptions_append, List.singleton_append]

theorem serve_receives {cfg : Params} {acts : List BusAction} {v v' : Service} (h : serve cfg acts v = some v') :
    ∃ bs, v'.bytes = v.bytes ++ bs ∧ bs.length = receptions acts := (serve_adds acts h).1

/-! ### The state between two transactions -/

/-- What a register transaction needs of the bus controller to run to its end (41_register_access.md R140, R143). -/
def State.busReady (s : State) : Prop := s.operational ∧ s.ctl.phase = .free ∧ s.cfg.stopOverlap = .ordered

/-- The state between two transactions of an operation that began in `s`: the environment has served `v` since, and the operation
has brought the context to `c`. -/
def State.along (s : State) (v : Service) (flag pending : Bool) (c : Ctx) : State :=
  { s with
    ctl := { s.ctl with
      flag := flag
      status := v.status
      data := v.data
      phase := .free
      trace := s.ctl.trace ++ v.events
      stopPending := pending }
    ctx := c
    env := v.env }

theorem State.busReady.along_start {s : State} (h : s.busReady) :
    s.along (Service.start s) s.ctl.flag s.ctl.stopPending s.ctx = s := by
  obtain ⟨-, hphase, -⟩ := h
  simp only [State.along, Service.start, List.append_nil, ← hphase]

@[simp] theorem Service.start_firstErr (s : State) : (Service.start s).firstErr = none := rfl

theorem State.readyForTransactions.busReady {s : State} (h : s.readyForTransactions) : s.busReady := h.2

/-- A primitive sequence that is a register transaction with these bus actions (30_encoding.md R78). -/
structure TxnFrame (ps : List Prim) (acts : List BusAction) : Prop where
  ends : EndsInStop ps
  legal : legalSeq .free ps = true
  actions : seqActions .free ps = acts

theorem TxnFrame.of_instr {i : Instr} (hi : isTransaction i = true) (cfg : Params) :
    TxnFrame (transactionSeq cfg i) (transactionFrame cfg i) := by
  obtain ⟨hlegal, hactions⟩ := transactionSeq_legal hi cfg
  exact ⟨transactionSeq_ends hi cfg, hlegal, hactions⟩

theorem TxnFrame.writeByte (cfg : Params) (reg v : Byte) : TxnFrame (writeByteSeq cfg reg v) (writeByteFrame cfg reg v) :=
  .of_instr (i := .writeByte reg v) rfl cfg

theorem TxnFrame.writeBlock (cfg : Params) (reg n : Byte) (bs : List Byte) :
    TxnFrame (writeBlockSeq cfg reg n bs) (writeBlockFrame cfg reg n bs) :=
  .of_instr (i := .writeBlock reg n bs) rfl cfg

theorem TxnFrame.readByte (cfg : Params) (reg : Byte) : TxnFrame (readByteSeq cfg reg) (readByteFrame cfg reg) :=
  .of_instr (i := .readByte reg) rfl cfg

theorem TxnFrame.readBlock (cfg : Params) (reg n : Byte) : TxnFrame (readBlockSeq cfg reg n) (readBlockFrame cfg reg n) :=
  .of_instr (i := .readBlock reg n) rfl cfg

section
variable {s : State} {v v' : Service} {flag pending : Bool} {c : Ctx} {job : PollJob} {k : Nat} {st : Option Byte}

/-- A served transaction inside an operation takes it to the next served state, and hands it what it has collected. -/
theorem innerTxn_along {ps : List Prim} {acts : List BusAction} (hs : s.busReady) (hps : TxnFrame ps acts)
    (h : serve s.cfg acts v = some v') :
    ∃ err bs, v'.firstErr = v.firstErr.or err ∧ v'.bytes = v.bytes ++ bs ∧ bs.length = receptions acts ∧
      innerTxn ps (s.along v flag pending c) = .done { st := err, bytes := bs, lost := false } (s.along v' false true c) := by
  obtain ⟨hends, hlegal, rfl⟩ := hps
  obtain ⟨ho, -, hov⟩ := hs
  obtain ⟨w, hw, rfl, hrun⟩ := innerTxn_serve hends (s := s.along v flag pending c) ho hov rfl hlegal rfl rfl rfl h
  obtain ⟨bs, hbytes, hlen⟩ := serve_receives hw
  obtain rfl : w.bytes = bs := hbytes
  refine ⟨w.firstErr, w.bytes, rfl, rfl, hlen, hrun.trans ?_⟩
  simp [State.along, servedState, Service.after]

/-- The same with what the operation does next, while the environment serves the bus actions of that. -/
theorem innerTxn_bind_along {α : Type} {ps : List Prim} {acts rest : List BusAction} (hs : s.busReady) (hps : TxnFrame ps acts)
    (h : serve s.cfg (acts ++ rest) v = some v') :
    ∃ u err bs, serve s.cfg rest u = some v' ∧ u.firstErr = v.firstErr.or err ∧ u.bytes = v.bytes ++ bs ∧
      bs.length = receptions acts ∧ ∀ f : Txn → State → Flow α,
        (innerTxn ps (s.along v flag pending c)).bind f = f { st := err, bytes := bs, lost := false } (s.along u false true c) := by
  obtain ⟨u, hu, hrest⟩ := serve_both h
  obtain ⟨err, bs, hf, hb, hlen, hrun⟩ := innerTxn_along (flag := flag) (pending := pending) (c := c) hs hps hu
  exact ⟨u, err, bs, hrest, hf, hb, hlen, fun f => by rw [hrun, Flow.bind]⟩

/-- The result of an operation that ends in a served state (R193). -/
theorem stepResult_eq_reported (cfg : Params) (st : Option Byte) : stepResult cfg st = reported cfg st .unit := by
  unfold stepResult reported
  cases cfg.errProp <;> cases st <;> rfl

/-- The answer of an operation that has run to its end in a served state. -/
theorem finish_along (st : Option Byte) : finish (.done (stepResult s.cfg st) (s.along v false true c)) =
    .next { afterTransactions s v (reported s.cfg st .unit) with ctx := c } := by
  rw [stepResult_eq_reported]
  rfl

/-! ### CONFIGURE_SWEEP (R178) -/

theorem configureSweepBody_along {f d : U32} {n : U16} (hs : s.busReady) (hv : v.firstErr = none)
    (h : serve s.cfg (configureSweepFrame s.cfg f d n) v = some v') :
    configureSweepBody f d n (s.along v flag pending c) =
      .done (stepResult s.cfg v'.firstErr) (s.along v' false true { programmed s.cfg f d n c with trigger := .idle }) := by
  obtain ⟨v1, e1, bs1, h, hf1, -, -, hrun1⟩ := innerTxn_bind_along hs (.writeBlock ..) h
  obtain ⟨v2, e2, bs2, h, hf2, -, -, hrun2⟩ := innerTxn_bind_along hs (.writeBlock ..) h
  obtain ⟨v3, e3, bs3, h, hf3, -, -, hrun3⟩ := innerTxn_bind_along hs (.writeBlock ..) h
  obtain ⟨v4, e4, bs4, h, hf4, -, -, hrun4⟩ := innerTxn_bind_along hs (.writeBlock ..) h
  obtain ⟨e5, bs5, hf5, -, -, hrun5⟩ := innerTxn_along hs (.writeByte ..) h
  unfold configureSweepBody
  refine (hrun1 _).trans ((hrun2 _).trans ((hrun3 _).trans ((hrun4 _).trans ((congrArg (Flow.bind · _) hrun5).trans ?_))))
  rw [hf5, hf4, hf3, hf2, hf1, hv]
  rfl

/-! ### The advance, repeat and stop steps (R184 to R186) -/

theorem stepCommand_along {cmd : Byte} {next : Trigger} (hs : s.busReady) (hv : v.firstErr = none)
    (h : serve s.cfg (writeCmdFrame s.cfg cmd) v = some v') :
    stepCommand cmd next (s.along v flag pending c) =
      .done (stepResult s.cfg v'.firstErr) (s.along v' false true { c with trigger := next }) := by
  obtain ⟨err, bs, hf, -, -, hrun⟩ := innerTxn_along hs (.writeByte ..) h
  unfold stepCommand
  refine (congrArg (Flow.bind · _) hrun).trans ?_
  rw [hf, hv]
  rfl

/-! ### One read of a poll (R177) -/

/-- What a poll that has seen its bit sends next (R182, R188). -/
def afterPollFrame (cfg : Params) : PollJob → List BusAction
  | .sweep => sampleFrame cfg
  | .temperature => readBlockFrame cfg cfg.regs.temp 2

theorem pollFrame_eq (cfg : Params) (job : PollJob) : pollFrame cfg job = statusFrame cfg ++ afterPollFrame cfg job := by
  cases job <;> rfl

/-- The bit a service shows is the one the poll tests. -/
theorem seesBit_iff {cfg : Params} {b : Byte} {bs : List Byte} (h : v.bytes = b :: bs) :
    v.seesBit cfg job ↔ maskSet b (job.mask cfg) = true := by
  rw [Service.seesBit, h, maskSet, bne_iff_ne]
  cases job <;> rfl

/-- The mark of a poll that has spent its budget (R177). -/
def State.markUnresponsive (s : State) : State := s.setCtl { s.ctl with unresponsive := true }

/-- A turn of a poll whose read is served: the status is written, and the bit decides. -/
theorem pollTurn_along (hs : s.busReady) (hv : v.bytes = []) (h : serve s.cfg (statusFrame s.cfg) v = some v') :
    ∃ err b, v'.firstErr = v.firstErr.or err ∧ v'.bytes = [b] ∧
      pollTurn job k st (s.along v flag pending c) =
        if maskSet b (job.mask s.cfg) then afterPoll job (st.or err) (s.along v' false true { c with lastStatus := .val b })
        else if pollsSpent s.cfg (k + 1) then
          .quit (s.along v' false true { c with lastStatus := .val b }).markUnresponsive
        else .spin ((s.along v' false true { c with lastStatus := .val b }).setActivity (.polling job (k + 1) (st.or err))) := by
  obtain ⟨err, bs, hf, hb, hlen, hrun⟩ := innerTxn_along (flag := flag) (pending := pending) (c := c) hs (.readByte ..) h
  obtain ⟨b, rfl⟩ := List.length_eq_one_iff.1 hlen
  refine ⟨err, b, hf, by rw [hb, hv]; rfl, ?_⟩
  unfold pollTurn
  exact (congrArg (Flow.bind · _) hrun).trans rfl

/-! ### A poll that sees its bit (R182, R188) -/

/-- The two samples in the context, from the bytes received (R182). -/
def Ctx.withSamples (c : Ctx) (re im : List Byte) : Ctx :=
  { c with real := .val (decode16 (word16 re)), imag := .val (decode16 (word16 im)) }

theorem afterPoll_along {b : Byte} (hs : s.busReady) (hb : v.bytes = [b])
    (h : serve s.cfg (afterPollFrame s.cfg job) v = some v') :
    afterPoll job (st.or v.firstErr) (s.along v flag pending { c with lastStatus := .val b }) =
      .done (stepResult s.cfg (st.or v'.firstErr)) (s.along v' false true (measured job v' c)) := by
  cases job with
  | sweep =>
    obtain ⟨v1, e1, bs1, h, hf1, hb1, hlen1, hrun1⟩ := innerTxn_bind_along hs (.readBlock ..) h
    obtain ⟨v2, e2, bs2, h, hf2, hb2, hlen2, hrun2⟩ := innerTxn_bind_along hs (.readBlock ..) h
    obtain ⟨r0, r1, rfl⟩ := List.length_eq_two.1 hlen1
    obtain ⟨i0, i1, rfl⟩ := List.length_eq_two.1 hlen2
    obtain ⟨e3, bs3, hf3, hb3, hlen3, hrun3⟩ := innerTxn_along (flag := false) (pending := true)
      (c := ({ c with lastStatus := .val b } : Ctx).withSamples [r0, r1] [i0, i1]) hs (.writeByte ..) h
    obtain rfl := List.length_eq_zero_iff.1 hlen3
    have hbytes : v'.bytes = [b, r0, r1, i0, i1] := by rw [hb3, hb2, hb1, hb]; rfl
    unfold afterPoll afterSweepPoll
    refine (hrun1 _).trans ((hrun2 _).trans ((congrArg (Flow.bind · _) hrun3).trans ?_))
    simp only [hf3, hf2, hf1, measured, receivedWord, hbytes, ← Option.or_assoc]
    rfl
  | temperature =>
    obtain ⟨e1, bs1, hf1, hb1, hlen1, hrun1⟩ := innerTxn_along hs (.readBlock ..) h
    obtain ⟨t0, t1, rfl⟩ := List.length_eq_two.1 hlen1
    have hbytes : v'.bytes = [b, t0, t1] := by rw [hb1, hb]; rfl
    unfold afterPoll afterTemperaturePoll
    refine (congrArg (Flow.bind · _) hrun1).trans ?_
    simp only [hf1, measured, receivedWord, hbytes, ← Option.or_assoc]
    rfl

/-- A turn of a poll that is served, whose read sees the bit, runs to the end of the operation. -/
theorem pollTurn_sees (hs : s.busReady) (hv : v.bytes = []) (h : serve s.cfg (pollFrame s.cfg job) v = some v')
    (hbit : v'.seesBit s.cfg job) :
    pollTurn job k (st.or v.firstErr) (s.along v flag pending c) =
      .done (stepResult s.cfg (st.or v'.firstErr)) (s.along v' false true (measured job v' c)) := by
  rw [pollFrame_eq] at h
  obtain ⟨u, hread, hrest⟩ := serve_both h
  obtain ⟨err, b, hf, hb, hrun⟩ := pollTurn_along hs hv hread
  obtain ⟨bs, hbytes, -⟩ := serve_receives hrest
  have hset : maskSet b (job.mask s.cfg) = true := (seesBit_iff (bs := bs) (by rw [hbytes, hb]; rfl)).1 hbit
  rw [hrun, if_pos hset, Option.or_assoc, ← hf]
  exact afterPoll_along hs hb hrest

/-! ### A poll that does not see its bit (R177) -/

theorem pollsSpent_iff {cfg : Params} : pollsSpent cfg k = true ↔ ∃ n, cfg.pollBudget = some n ∧ n ≤ k := by
  unfold pollsSpent
  cases cfg.pollBudget <;> simp

/-- A turn of a poll whose read is served and sees the bit clear: the budget decides. -/
theorem pollTurn_clear (hs : s.busReady) (hv : v.bytes = []) (h : serve s.cfg (statusFrame s.cfg) v = some v')
    (hbit : ¬ v'.seesBit s.cfg job) :
    pollTurn job k (st.or v.firstErr) (s.along v flag pending c) =
      if pollsSpent s.cfg (k + 1) then
        .quit (s.along v' false true { c with lastStatus := .val (rxByte v'.bytes 0) }).markUnresponsive
      else .spin ((s.along v' false true { c with lastStatus := .val (rxByte v'.bytes 0) }).setActivity
        (.polling job (k + 1) (st.or v'.firstErr))) := by
  obtain ⟨err, b, hf, hb, hrun⟩ := pollTurn_along hs hv h
  have hclear : ¬ maskSet b (job.mask s.cfg) = true := fun hset => hbit ((seesBit_iff hb).2 hset)
  rw [hrun, if_neg hclear, Option.or_assoc, ← hf, hb]
  rfl

/-- The answer of a turn of a poll whose read sees the bit clear. -/
theorem pollTurn_clear_answer (hs : s.busReady) (hv : v.bytes = []) (h : serve s.cfg (statusFrame s.cfg) v = some v')
    (hbit : ¬ v'.seesBit s.cfg job) :
    ∃ t, finish (pollTurn job k (st.or v.firstErr) (s.along v flag pending c)) = .next t ∧
      t.ctl.trace = s.ctl.trace ++ v'.events ∧ t.ctx = { c with lastStatus := .val (rxByte v'.bytes 0) } ∧ t.gpio = s.gpio ∧
      ((∀ n, s.cfg.pollBudget = some n → k + 1 < n) →
        t.activity = .polling job (k + 1) (st.or v'.firstErr) ∧ t.client.last = none) ∧
      (∀ n, s.cfg.pollBudget = some n → n ≤ k + 1 → t.ctl.unresponsive = true ∧ t.activity = .idle ∧
        t.client.last = some (.completed .unresponsive)) := by
  rw [pollTurn_clear hs hv h hbit]
  cases hspent : pollsSpent s.cfg (k + 1) with
  | true =>
    refine ⟨_, rfl, rfl, rfl, rfl, fun hleft => ?_, fun n hn hle => ⟨rfl, rfl, rfl⟩⟩
    obtain ⟨n, hn, hle⟩ := pollsSpent_iff.1 hspent
    exact absurd (hleft n hn) (Nat.not_lt.2 hle)
  | false =>
    refine ⟨_, rfl, rfl, rfl, rfl, fun _ => ⟨rfl, rfl⟩, fun n hn hle => ?_⟩
    rw [pollsSpent_iff.2 ⟨n, hn, hle⟩] at hspent
    cases hspent

/-! ### The commands before a poll (R182, R188) -/

theorem stepStartMeasure_along (hs : s.busReady) (hv : v.firstErr = none)
    (h : serve s.cfg (startMeasureFrame s.cfg) v = some v') :
    v'.bytes = v.bytes ∧ stepStartMeasure (s.along v flag pending c) =
      pollTurn .sweep 0 (none.or v'.firstErr) (s.along v' false true c) := by
  obtain ⟨v1, e1, bs1, h, hf1, hb1, hlen1, hrun1⟩ := innerTxn_bind_along hs (.writeByte ..) h
  obtain ⟨e2, bs2, hf2, hb2, hlen2, hrun2⟩ := innerTxn_along hs (.writeByte ..) h
  obtain rfl := List.length_eq_zero_iff.1 hlen1
  obtain rfl := List.length_eq_zero_iff.1 hlen2
  refine ⟨by rw [hb2, hb1, List.append_nil, List.append_nil], ?_⟩
  unfold stepStartMeasure
  refine (hrun1 _).trans ((congrArg (Flow.bind · _) hrun2).trans ?_)
  rw [hf2, hf1, hv]
  rfl

theorem measureTemperatureBody_along (hs : s.busReady) (hv : v.firstErr = none)
    (h : serve s.cfg (writeCmdFrame s.cfg s.cfg.cmdMeasureTemp) v = some v') :
    v'.bytes = v.bytes ∧ measureTemperatureBody (s.along v flag pending c) =
      pollTurn .temperature 0 (none.or v'.firstErr) (s.along v' false true c) := by
  obtain ⟨err, bs, hf, hb, hlen, hrun⟩ := innerTxn_along hs (.writeByte ..) h
  obtain rfl := List.length_eq_zero_iff.1 hlen
  refine ⟨by rw [hb, List.append_nil], ?_⟩
  unfold measureTemperatureBody
  refine (congrArg (Flow.bind · _) hrun).trans ?_
  rw [hf, hv]
  rfl

/-- A command that polls: PROCESS_STEP in `StartMeasure` or MEASURE_TEMPERATURE, its poll, and the commands it sends first. -/
def Polls (s : State) (i : Instr) (job : PollJob) (cmds : List BusAction) : Prop :=
  (i = .processStep 0 ∨ i = .processStep 1) ∧ s.ctx.trigger = .startMeasure ∧ job = .sweep ∧ cmds = startMeasureFrame s.cfg ∨
    i = .measureTemperature ∧ job = .temperature ∧ cmds = writeCmdFrame s.cfg s.cfg.cmdMeasureTemp

/-- A command that polls comes to the first turn of its poll, once its commands are served. -/
theorem exec_polls {i : Instr} {cmds : List BusAction} (hs : s.readyForTransactions) (hi : Polls s i job cmds)
    (h : serve s.cfg cmds (Service.start s) = some v) :
    v.bytes = [] ∧ exec i s = finish (pollTurn job 0 (none.or v.firstErr) (s.along v false true s.ctx)) := by
  obtain ⟨hacc, -⟩ := id hs
  obtain ⟨hi, ht, rfl, rfl⟩ | ⟨rfl, rfl, rfl⟩ := hi
  · obtain ⟨hb, hbody⟩ := stepStartMeasure_along (flag := s.ctl.flag) (pending := s.ctl.stopPending) (c := s.ctx) hs.busReady rfl h
    rw [hs.busReady.along_start] at hbody
    have hstep : ¬ operandRefused s.cfg i ∧ bodyOf i s = stepStartMeasure s := by
      obtain rfl | rfl := hi <;> exact ⟨processStep_not_refused s.cfg (by decide), by rw [bodyOf, processStepBody, ht]⟩
    obtain ⟨hop, hstep⟩ := hstep
    exact ⟨hb, by rw [exec_accepted hacc hop, hstep, hbody]⟩
  · obtain ⟨hb, hbody⟩ :=
      measureTemperatureBody_along (flag := s.ctl.flag) (pending := s.ctl.stopPending) (c := s.ctx) hs.busReady rfl h
    rw [hs.busReady.along_start] at hbody
    exact ⟨hb, by rw [exec_accepted (i := .measureTemperature) hacc id, bodyOf, hbody]⟩

/-- A command that polls and sees its bit in the first read runs to its end. -/
theorem exec_polls_sees {i : Instr} {cmds : List BusAction} (hs : s.readyForTransactions) (hi : Polls s i job cmds)
    (h : serve s.cfg (cmds ++ pollFrame s.cfg job) (Service.start s) = some v) (hbit : v.seesBit s.cfg job) :
    exec i s = .next { afterTransactions s v (reported s.cfg v.firstErr .unit) with ctx := measured job v s.ctx } := by
  obtain ⟨u, hcmds, hpoll⟩ := serve_both h
  obtain ⟨hb, hexec⟩ := exec_polls hs hi hcmds
  rw [hexec, pollTurn_sees hs.busReady hb hpoll hbit, Option.none_or, finish_along]

end

/-! ### The statements -/

/-- Settles O48, by its five transactions. -/
theorem configureSweepCompletes : Obligations.ConfigureSweepCompletes := by
  intro s f d n v hs hn hv
  obtain ⟨hacc, -⟩ := id hs
  have hbody := configureSweepBody_along (flag := s.ctl.flag) (pending := s.ctl.stopPending) (c := s.ctx) hs.busReady rfl hv
  rw [hs.busReady.along_start] at hbody
  rw [exec_accepted (i := .configureSweep f d n) hacc (Nat.not_lt.2 hn), bodyOf, hbody, finish_along]
  rfl

/-- Settles O53, by the one transaction of the step. -/
theorem commandStepsComplete : Obligations.CommandStepsComplete := by
  intro s choice cmd next v hs hchoice htrigger hv
  obtain ⟨hacc, -⟩ := id hs
  have hstep : processStepBody choice s = stepCommand cmd next s := by
    obtain ⟨ht, rfl, rfl⟩ | ⟨ht, rfl, rfl⟩ | ⟨ht, rfl, rfl⟩ := htrigger <;> rw [processStepBody, ht]
  have hbody := stepCommand_along (next := next) (flag := s.ctl.flag) (pending := s.ctl.stopPending) (c := s.ctx) hs.busReady rfl hv
  rw [hs.busReady.along_start] at hbody
  rw [exec_accepted hacc (processStep_not_refused s.cfg hchoice), bodyOf, hstep, hbody, finish_along]

/-- Settles O54: PROCESS_STEP in `StartMeasure` polls for the data-valid bit. -/
theorem startMeasureCompletes : Obligations.StartMeasureCompletes := by
  intro s choice v hs hchoice ht hv hbit
  have hi := hchoice.imp (congrArg Instr.processStep) (congrArg Instr.processStep)
  exact exec_polls_sees (job := .sweep) hs (.inl ⟨hi, ht, rfl, rfl⟩) hv hbit

/-- Settles O55, by the first turn of the poll. -/
theorem aFirstReadWithTheBitClearGoesOnPolling : Obligations.AFirstReadWithTheBitClearGoesOnPolling := by
  intro s i job cmds v hs hi hv hbit
  obtain ⟨u, hcmds, hread⟩ := serve_both hv
  obtain ⟨hb, hexec⟩ := exec_polls hs hi hcmds
  rw [hexec]
  exact pollTurn_clear_answer hs.busReady hb hread hbit

/-- Settles O56: the step is a turn of the poll, and all it sends is served. -/
theorem resumedPollCompletes : Obligations.ResumedPollCompletes := by
  intro s job k st e v hu ha he ho hph hov hv hbit
  have hready : (s.setEnv e).busReady := ⟨ho, hph, hov⟩
  have hturn := pollTurn_sees (k := k) (st := st) (flag := (s.setEnv e).ctl.flag) (pending := (s.setEnv e).ctl.stopPending)
    (c := (s.setEnv e).ctx) hready rfl hv hbit
  rw [hready.along_start, Service.start_firstErr, Option.or_none] at hturn
  rw [step_poll hu ha he, hturn, finish_along]
  rfl

/-- Settles O57: the step is a turn of the poll, whose read has nine bus actions. -/
theorem resumedPollGoesOn : Obligations.ResumedPollGoesOn := by
  intro s job k st e v hu ha he ho hph hov hv hbit
  have hready : (s.setEnv e).busReady := ⟨ho, hph, hov⟩
  obtain ⟨-, hlen⟩ := serve_adds _ hv
  obtain ⟨t, hturn, htrace, hctx, hgpio, hon, hspent⟩ := pollTurn_clear_answer (k := k) (st := st)
    (flag := (s.setEnv e).ctl.flag) (pending := (s.setEnv e).ctl.stopPending) (c := (s.setEnv e).ctx) hready rfl hv hbit
  rw [hready.along_start, Service.start_firstErr, Option.or_none] at hturn
  rw [step_poll hu ha he]
  exact ⟨t, hturn, htrace, hlen, hctx, hgpio, fun hleft => (hon hleft).1, hspent⟩

/-- Settles O58: MEASURE_TEMPERATURE polls for the temperature-valid bit. -/
theorem measureTemperatureCompletes : Obligations.MeasureTemperatureCompletes := by
  intro s v hs hv hbit
  exact exec_polls_sees (job := .temperature) hs (.inr ⟨rfl, rfl, rfl⟩) hv hbit

end Sys2Proof.Machine
end

section
/-! PROOFS. The early end of a sweep operation (42_sweep_controller.md R187): the environment serves some of the bus actions it sends
and not the next one, and what the operation wrote before that stays written. -/

namespace Sys2Proof.Machine

/-! ### An action that is lost -/

/-- The environment serves a part of the actions `frame`, after `v` and up to `v'`, and does not complete the next one, which is
awaited, in time (R103, R105). -/
def LosesIn (cfg : Params) (frame : List BusAction) (v v' : Service) : Prop :=
  ∃ acts a rest, frame = acts ++ a :: rest ∧ a ≠ .stop ∧ serve cfg acts v = some v' ∧ tooLate cfg (v'.env.receive cfg a).1

/-- An action lost in a list of two parts is lost in the first, or in the second after the first was served. -/
theorem LosesIn.append {cfg : Params} {xs ys : List BusAction} {v v' : Service} (h : LosesIn cfg (xs ++ ys) v v') :
    LosesIn cfg xs v v' ∨ ∃ u, serve cfg xs v = some u ∧ LosesIn cfg ys u v' := by
  obtain ⟨acts, a, rest, hframe, ha, hv, hlate⟩ := h
  obtain ⟨r, hx⟩ | ⟨acts', rfl, hy⟩ := append_eq_append_cons hframe
  · exact .inl ⟨acts, a, r, hx, ha, hv, hlate⟩
  · obtain ⟨u, hu, hv⟩ := serve_both hv
    exact .inr ⟨u, hu, acts', a, rest, hy, ha, hv, hlate⟩

/-- Up to a lost action no more is received than the whole list receives. -/
theorem LosesIn.receives {cfg : Params} {frame : List BusAction} {v v' : Service} (h : LosesIn cfg frame v v') :
    ∃ bs, v'.bytes = v.bytes ++ bs ∧ bs.length ≤ receptions frame := by
  obtain ⟨acts, a, rest, rfl, -, hv, -⟩ := h
  obtain ⟨bs, hbytes, hlen⟩ := serve_receives hv
  exact ⟨bs, hbytes, by rw [hlen, receptions_append]; exact Nat.le_add_right _ _⟩

/-- The last byte of a read is followed by the stop, which is not awaited: a read that loses an action has not received it. -/
theorem LosesIn.receives_read {cfg : Params} {frame sends : List BusAction} {v v' : Service} (h : LosesIn cfg frame v v')
    (hframe : frame = sends ++ [BusAction.dataIn false, BusAction.stop]) :
    ∃ bs, v'.bytes = v.bytes ++ bs ∧ bs.length < receptions frame := by
  subst hframe
  obtain h | ⟨u, hu, acts, a, rest, hlast, ha, hv, -⟩ := h.append
  · obtain ⟨bs, hbytes, hlen⟩ := h.receives
    exact ⟨bs, hbytes, by rw [receptions_append]; exact Nat.lt_of_le_of_lt hlen (Nat.lt_add_of_pos_right (by decide))⟩
  · have hacts : acts = [] := by
      match acts, hlast with
      | [], _ => rfl
      | [_], hlast =>
        injection hlast with _ hlast
        injection hlast with hstop
        exact absurd hstop.symm ha
      | _ :: _ :: _, hlast => simp at hlast
    subst hacts
    cases hv
    obtain ⟨bs, hbytes, hlen⟩ := serve_receives hu
    exact ⟨bs, hbytes, by rw [hlen, receptions_append]; exact Nat.lt_add_of_pos_right (by decide)⟩

theorem statusFrame_eq (cfg : Params) : statusFrame cfg =
    (setPointerFrame cfg cfg.regs.status ++ [BusAction.start, BusAction.addrOut (addrR cfg)]) ++
      [BusAction.dataIn false, BusAction.stop] := rfl

theorem readPairFrame_eq (cfg : Params) (reg : Byte) : readBlockFrame cfg reg 2 =
    (setPointerFrame cfg reg ++ ([.start, .addrOut (addrW cfg), .dataOut cfg.opBlockRead, .dataOut 2, .repStart,
      .addrOut (addrR cfg), .dataIn true] : List BusAction)) ++ [BusAction.dataIn false, BusAction.stop] := rfl

theorem not_losesIn_nil {cfg : Params} {v v' : Service} : ¬ LosesIn cfg [] v v' := fun ⟨_, _, _, hframe, _⟩ => by
  simp at hframe

/-! ### An operation that ends early -/

/-- A piece of an operation that began in `s` ends the operation early: the mark is set, `v` has been served, the context is `c`. -/
def EndsEarly {α : Type} (s : State) (v : Service) (c : Ctx) (x : Flow α) : Prop :=
  ∃ u, x = .quit u ∧ u.client = s.client ∧ u.ctl.unresponsive = true ∧ u.ctl.trace = s.ctl.trace ++ v.events ∧
    u.gpio = s.gpio ∧ u.ctx = c

theorem EndsEarly.bind {α β : Type} {s : State} {v : Service} {c : Ctx} {x : Flow α} (h : EndsEarly s v c x)
    (f : α → State → Flow β) : EndsEarly s v c (x.bind f) := by
  obtain ⟨u, rfl, hu⟩ := h
  exact ⟨u, rfl, hu⟩

/-- The answer of an operation that ended early (60_exceptions.md R220). -/
theorem EndsEarly.answer {s : State} {v : Service} {c : Ctx} {x : Flow OpResult} (h : EndsEarly s v c x) :
    ∃ t, finish x = .next t ∧ t.client = { s.client with last := some (.completed .unresponsive) } ∧
      t.ctl.unresponsive = true ∧ t.ctl.trace = s.ctl.trace ++ v.events ∧ t.gpio = s.gpio ∧ t.activity = .idle ∧ t.ctx = c := by
  obtain ⟨u, rfl, hclient, hmark, htrace, hgpio, hctx⟩ := h
  exact ⟨_, rfl, by rw [State.conclude_client, hclient], hmark, htrace, hgpio, rfl, hctx⟩

section
variable {s : State} {v v' : Service} {flag pending : Bool} {c c' : Ctx} {job : PollJob} {k : Nat} {st : Option Byte}

/-- A transaction inside an operation that loses an action ends it, with the context as it stands. -/
theorem innerTxn_endsEarly {ps : List Prim} {acts : List BusAction} (hs : s.busReady) (hbudget : s.cfg.pollBudget ≠ none)
    (hps : TxnFrame ps acts) (h : LosesIn s.cfg acts v v') : EndsEarly s v' c (innerTxn ps (s.along v flag pending c)) := by
  obtain ⟨-, hlegal, rfl⟩ := hps
  obtain ⟨ho, -, hov⟩ := hs
  obtain ⟨acts, a, rest, hacts, ha, hv, hlate⟩ := h
  obtain ⟨es, phase, env, hes, hrun⟩ :=
    innerTxn_lost (s := s.along v flag pending c) ho hov hbudget rfl hlegal rfl rfl rfl hacts ha hv hlate
  refine ⟨_, hrun, rfl, rfl, ?_, rfl, rfl⟩
  rw [hes, ← List.append_assoc]
  rfl

/-- An operation that loses an action loses it in its next transaction, or after it. -/
theorem innerTxn_bind_endsEarly {α : Type} {ps : List Prim} {acts rest : List BusAction} {f : Txn → State → Flow α}
    (hs : s.busReady) (hbudget : s.cfg.pollBudget ≠ none) (hps : TxnFrame ps acts) (h : LosesIn s.cfg (acts ++ rest) v v')
    (here : LosesIn s.cfg acts v v' → c = c')
    (later : ∀ u err bs, u.bytes = v.bytes ++ bs → bs.length = receptions acts → LosesIn s.cfg rest u v' →
      EndsEarly s v' c' (f { st := err, bytes := bs, lost := false } (s.along u false true c))) :
    EndsEarly s v' c' ((innerTxn ps (s.along v flag pending c)).bind f) := by
  obtain h | ⟨u, hu, h⟩ := h.append
  · rw [← here h]
    exact (innerTxn_endsEarly hs hbudget hps h).bind f
  · obtain ⟨err, bs, -, hb, hlen, hrun⟩ := innerTxn_along (flag := flag) (pending := pending) (c := c) hs hps hu
    rw [hrun]
    exact later u err bs hb hlen h

/-! ### CONFIGURE_SWEEP, and the steps that write one command -/

theorem configureSweepBody_endsEarly {f d : U32} {n : U16} (hs : s.busReady) (hbudget : s.cfg.pollBudget ≠ none)
    (h : LosesIn s.cfg (configureSweepFrame s.cfg f d n) v v') :
    EndsEarly s v' (programmed s.cfg f d n c) (configureSweepBody f d n (s.along v flag pending c)) := by
  unfold configureSweepBody
  refine innerTxn_bind_endsEarly (c := programmed s.cfg f d n c) hs hbudget (.writeBlock ..) h (fun _ => rfl) fun v1 e1 bs1 _ _ h => ?_
  refine innerTxn_bind_endsEarly hs hbudget (.writeBlock ..) h (fun _ => rfl) fun v2 e2 bs2 _ _ h => ?_
  refine innerTxn_bind_endsEarly hs hbudget (.writeBlock ..) h (fun _ => rfl) fun v3 e3 bs3 _ _ h => ?_
  refine innerTxn_bind_endsEarly hs hbudget (.writeBlock ..) h (fun _ => rfl) fun v4 e4 bs4 _ _ h => ?_
  exact (innerTxn_endsEarly hs hbudget (.writeByte ..) h).bind _

theorem stepCommand_endsEarly {cmd : Byte} {next : Trigger} (hs : s.busReady) (hbudget : s.cfg.pollBudget ≠ none)
    (h : LosesIn s.cfg (writeCmdFrame s.cfg cmd) v v') :
    EndsEarly s v' c (stepCommand cmd next (s.along v flag pending c)) := by
  unfold stepCommand
  exact (innerTxn_endsEarly hs hbudget (.writeByte ..) h).bind _

/-! ### What a measurement has written -/

theorem partlyMeasured_of_noBytes (h : v.bytes = []) : partlyMeasured job v c = c := by
  cases job <;> simp [partlyMeasured, h]

theorem partlyMeasured_temperature {b : Byte} {bs : List Byte} (h : v.bytes = b :: bs) :
    partlyMeasured .temperature v c = { c with lastStatus := .val b } := by
  simp [partlyMeasured, h, rxByte]

theorem partlyMeasured_sweep_few {b : Byte} {bs : List Byte} (h : v.bytes = b :: bs) (hbs : bs.length < 4) :
    partlyMeasured .sweep v c = { c with lastStatus := .val b } := by
  simp [partlyMeasured, h, rxByte, hbs]

theorem partlyMeasured_sweep_all {b r0 r1 i0 i1 : Byte} (h : v.bytes = [b, r0, r1, i0, i1]) :
    partlyMeasured .sweep v c = ({ c with lastStatus := .val b } : Ctx).withSamples [r0, r1] [i0, i1] := by
  simp [partlyMeasured, h, rxByte, Ctx.withSamples, receivedWord, word16]

/-- Commands receive nothing, so a measurement that ends in them has written nothing. -/
theorem LosesIn.measuredNothing {frame : List BusAction} (h : LosesIn s.cfg frame v v') (hv : v.bytes = [])
    (hframe : receptions frame = 0) : c = partlyMeasured job v' c := by
  obtain ⟨bs, hbytes, hlen⟩ := h.receives
  obtain rfl := List.length_eq_zero_iff.1 (Nat.le_zero.1 (hframe ▸ hlen))
  exact (partlyMeasured_of_noBytes (by rw [hbytes, hv]; rfl)).symm

/-! ### Polls -/

theorem afterPoll_endsEarly {b : Byte} (hs : s.busReady) (hbudget : s.cfg.pollBudget ≠ none) (hb : v.bytes = [b])
    (h : LosesIn s.cfg (afterPollFrame s.cfg job) v v') :
    EndsEarly s v' (partlyMeasured job v' c) (afterPoll job st (s.along v flag pending { c with lastStatus := .val b })) := by
  cases job with
  | sweep =>
    unfold afterPoll afterSweepPoll
    refine innerTxn_bind_endsEarly hs hbudget (.readBlock s.cfg s.cfg.regs.real 2) h (fun h => ?_) fun v1 e1 bs1 hb1 hlen1 h => ?_
    · obtain ⟨bs, hbytes, hlen⟩ := h.receives_read (readPairFrame_eq ..)
      have hfew : bs.length < 4 := Nat.lt_trans hlen (show 2 < 4 by decide)
      exact (partlyMeasured_sweep_few (by rw [hbytes, hb]; rfl) hfew).symm
    obtain ⟨r0, r1, rfl⟩ := List.length_eq_two.1 hlen1
    refine innerTxn_bind_endsEarly hs hbudget (.readBlock s.cfg s.cfg.regs.imag 2) h (fun h => ?_) fun v2 e2 bs2 hb2 hlen2 h => ?_
    · obtain ⟨bs, hbytes, hlen⟩ := h.receives_read (readPairFrame_eq ..)
      have hfew : (r0 :: r1 :: bs).length < 4 := Nat.add_lt_add_right hlen 2
      exact (partlyMeasured_sweep_few (by rw [hbytes, hb1, hb]; rfl) hfew).symm
    obtain ⟨i0, i1, rfl⟩ := List.length_eq_two.1 hlen2
    obtain ⟨bs, hbytes, hlen⟩ := h.receives
    obtain rfl := List.length_eq_zero_iff.1 (Nat.le_zero.1 hlen)
    rw [partlyMeasured_sweep_all (by rw [hbytes, hb2, hb1, hb]; rfl)]
    exact (innerTxn_endsEarly (c := ({ c with lastStatus := .val b } : Ctx).withSamples [r0, r1] [i0, i1]) hs hbudget
      (.writeByte ..) h).bind _
  | temperature =>
    obtain ⟨bs, hbytes, -⟩ := h.receives
    rw [partlyMeasured_temperature (by rw [hbytes, hb]; rfl)]
    unfold afterPoll afterTemperaturePoll
    exact (innerTxn_endsEarly hs hbudget (.readBlock ..) h).bind _

/-- A poll that loses an action: in its read, or after a read that sees the bit. -/
theorem pollTurn_endsEarly (hs : s.busReady) (hbudget : s.cfg.pollBudget ≠ none) (hv : v.bytes = [])
    (h : LosesIn s.cfg (pollFrame s.cfg job) v v') (hbit : v'.bytes ≠ [] → v'.seesBit s.cfg job) :
    EndsEarly s v' (partlyMeasured job v' c) (pollTurn job k st (s.along v flag pending c)) := by
  rw [pollFrame_eq] at h
  obtain h | ⟨u, hu, h⟩ := h.append
  · obtain ⟨bs, hbytes, hlen⟩ := h.receives_read (statusFrame_eq _)
    obtain rfl := List.length_eq_zero_iff.1 (Nat.lt_one_iff.1 hlen)
    rw [partlyMeasured_of_noBytes (by rw [hbytes, hv]; rfl)]
    unfold pollTurn
    exact (innerTxn_endsEarly hs hbudget (.readByte ..) h).bind _
  · obtain ⟨err, b, -, hb, hrun⟩ := pollTurn_along hs hv hu
    obtain ⟨bs, hbytes, -⟩ := h.receives
    have hbytes : v'.bytes = b :: bs := by rw [hbytes, hb]; rfl
    have hset : maskSet b (job.mask s.cfg) = true := (seesBit_iff hbytes).1 (hbit (by rw [hbytes]; exact List.cons_ne_nil _ _))
    rw [hrun, if_pos hset]
    exact afterPoll_endsEarly hs hbudget hb h

theorem stepStartMeasure_endsEarly (hs : s.busReady) (hbudget : s.cfg.pollBudget ≠ none) (hv : v.bytes = [])
    (h : LosesIn s.cfg (startMeasureFrame s.cfg ++ pollFrame s.cfg .sweep) v v')
    (hbit : v'.bytes ≠ [] → v'.seesBit s.cfg .sweep) :
    EndsEarly s v' (partlyMeasured .sweep v' c) (stepStartMeasure (s.along v flag pending c)) := by
  rw [startMeasureFrame, List.append_assoc] at h
  unfold stepStartMeasure
  refine innerTxn_bind_endsEarly hs hbudget (.writeByte ..) h (fun h => h.measuredNothing hv rfl) fun v1 e1 bs1 hb1 hlen1 h => ?_
  obtain rfl := List.length_eq_zero_iff.1 hlen1
  have hv1 : v1.bytes = [] := by rw [hb1, hv]; rfl
  refine innerTxn_bind_endsEarly hs hbudget (.writeByte ..) h (fun h => h.measuredNothing hv1 rfl) fun v2 e2 bs2 hb2 hlen2 h => ?_
  obtain rfl := List.length_eq_zero_iff.1 hlen2
  exact pollTurn_endsEarly hs hbudget (by rw [hb2, hv1]; rfl) h hbit

theorem measureTemperatureBody_endsEarly (hs : s.busReady) (hbudget : s.cfg.pollBudget ≠ none) (hv : v.bytes = [])
    (h : LosesIn s.cfg (temperatureFrame s.cfg) v v') (hbit : v'.bytes ≠ [] → v'.seesBit s.cfg .temperature) :
    EndsEarly s v' (partlyMeasured .temperature v' c) (measureTemperatureBody (s.along v flag pending c)) := by
  unfold measureTemperatureBody
  refine innerTxn_bind_endsEarly hs hbudget (.writeByte ..) h (fun h => h.measuredNothing hv rfl) fun v1 e1 bs1 hb1 hlen1 h => ?_
  obtain rfl := List.length_eq_zero_iff.1 hlen1
  exact pollTurn_endsEarly hs hbudget (by rw [hb1, hv]; rfl) h hbit

/-- PROCESS_STEP sends something in four triggers, and the step of each ends early. -/
theorem processStepBody_endsEarly {choice : Byte} (hs : s.busReady) (hbudget : s.cfg.pollBudget ≠ none) (hv : v.bytes = [])
    (h : LosesIn s.cfg (stepFrame s.cfg c.trigger) v v') (hbit : v'.bytes ≠ [] → v'.seesBit s.cfg .sweep) :
    EndsEarly s v' (partlyMeasured .sweep v' c) (processStepBody choice (s.along v flag pending c)) := by
  have commandStep : ∀ {cmd next}, LosesIn s.cfg (writeCmdFrame s.cfg cmd) v v' →
      EndsEarly s v' (partlyMeasured .sweep v' c) (stepCommand cmd next (s.along v flag pending c)) := fun h => by
    rw [← h.measuredNothing (c := c) hv rfl]
    exact stepCommand_endsEarly hs hbudget h
  have htrigger : (s.along v flag pending c).ctx.trigger = c.trigger := rfl
  unfold processStepBody
  rw [htrigger]
  cases ht : c.trigger with
  | idle => rw [ht] at h; exact absurd h not_losesIn_nil
  | startMeasure => rw [ht] at h; exact stepStartMeasure_endsEarly hs hbudget hv h hbit
  | dftComplete => rw [ht] at h; exact absurd h not_losesIn_nil
  | frequencySweepNext => rw [ht] at h; exact commandStep h
  | frequencyRepeat => rw [ht] at h; exact commandStep h
  | stopMeasure => rw [ht] at h; exact commandStep h

end

/-! ### The statement (R187) -/

/-- The context of a sweep operation that ended early. -/
def endedCtx (s : State) (v : Service) : Instr → Ctx
  | .configureSweep f d n => programmed s.cfg f d n s.ctx
  | .measureTemperature => partlyMeasured .temperature v s.ctx
  | _ => partlyMeasured .sweep v s.ctx

/-- A sweep operation that loses an action ends early. -/
theorem bodyOf_endsEarly {s : State} {v : Service} {i : Instr} (hs : s.busReady) (hbudget : s.cfg.pollBudget ≠ none)
    (h : LosesIn s.cfg (sweepFrame s i) (Service.start s) v)
    (hbit : v.bytes ≠ [] → v.seesBit s.cfg (if i = .measureTemperature then .temperature else .sweep)) :
    EndsEarly s v (endedCtx s v i) (bodyOf i s) := by
  cases i with
  | configureSweep f d n =>
    have hbody := configureSweepBody_endsEarly (flag := s.ctl.flag) (pending := s.ctl.stopPending) (c := s.ctx) hs hbudget h
    rwa [hs.along_start] at hbody
  | processStep choice =>
    have hbody := processStepBody_endsEarly (choice := choice) (flag := s.ctl.flag) (pending := s.ctl.stopPending) (c := s.ctx)
      hs hbudget rfl h (by simpa using hbit)
    rwa [hs.along_start] at hbody
  | measureTemperature =>
    have hbody := measureTemperatureBody_endsEarly (flag := s.ctl.flag) (pending := s.ctl.stopPending) (c := s.ctx) hs hbudget rfl h
      hbit
    rwa [hs.along_start] at hbody
  | _ => exact absurd h not_losesIn_nil

/-- Settles O41, by the early ends of the commands and of a poll. -/
theorem anEarlyEndKeepsWhatWasWritten : Obligations.AnEarlyEndKeepsWhatWasWritten := by
  refine ⟨fun s i n acts rest a v hs hop hn hframe ha hv hbit hlate => ?_,
    fun s job k n st e acts rest a v hu hact he ho hph hov hn hframe ha hv hbit hlate => ?_⟩
  · obtain ⟨hacc, -⟩ := id hs
    obtain ⟨t, hanswer, hclient, hmark, htrace, hgpio, hidle, hctx⟩ :=
      (bodyOf_endsEarly hs.busReady (by simp [hn]) ⟨acts, a, rest, hframe, ha, hv, hlate⟩ hbit).answer
    rw [exec_accepted hacc hop]
    refine ⟨t, hanswer, hclient, hmark, htrace, hgpio, hidle, hctx.trans ?_⟩
    cases i <;> rfl
  · have hready : (s.setEnv e).busReady := ⟨ho, hph, hov⟩
    have hturn := pollTurn_endsEarly (k := k) (st := st) (flag := (s.setEnv e).ctl.flag) (pending := (s.setEnv e).ctl.stopPending)
      (c := (s.setEnv e).ctx) hready (by simp [hn]) rfl ⟨acts, a, rest, hframe, ha, hv, hlate⟩ hbit
    rw [hready.along_start] at hturn
    rw [step_poll hu hact he]
    exact hturn.answer

end Sys2Proof.Machine
end

section
/-! PROOFS. The outcomes of 60_exceptions.md: no step after a fault or a refusal (R220, R226, R227) and the set of fault reasons
(10_state.md R29), the refusal of an overlapping command (R236), and SET_RANGE (R232). -/

namespace Sys2Proof.Machine

/-! ### No step after a fault or a refusal (R220) -/

section
variable {s : State}

theorem exec_afterFault (i : Instr) (hf : s.ctl.faults.isEmpty = false) : exec i s = .fault .afterFault := by
  simp [exec_body, command, hf]

theorem exec_afterRefusal (i : Instr) (hf : s.ctl.faults.isEmpty = true) (hr : s.ctl.refused = true) :
    exec i s = .refused .afterRefusal := by
  simp [exec_body, command, hf, hr]

theorem step_afterFault (hf : s.ctl.faults.isEmpty = false) : step s = .fault .afterFault := by
  simp [step, turn, hf]

theorem step_afterRefusal (hf : s.ctl.faults.isEmpty = true) (hr : s.ctl.refused = true) : step s = .refused .afterRefusal := by
  simp [step, turn, hf, hr]

end

/-! ### The set of fault reasons (R29) -/

/-- A set of fault reasons is determined by its members. -/
theorem FaultSet.eq_of_has_eq {f g : FaultSet} (h : ∀ r, f.has r = g.has r) : f = g := by
  obtain ⟨_, _, _, _, _, _⟩ := f
  obtain ⟨_, _, _, _, _, _⟩ := g
  exact (FaultSet.mk.injEq ..).mpr ⟨h .notConfigured, h .configureTwice, h .protocolOrder, h .stopOverlap, h .unwrittenRead,
    h .sweepBusy⟩

theorem FaultSet.isEmpty_iff (f : FaultSet) : f.isEmpty = true ↔ ∀ r, f.has r = false := by
  rw [FaultSet.isEmpty, decide_eq_true_iff]
  constructor
  · rintro rfl r
    exact FaultSet.empty_has r
  · intro h
    exact FaultSet.eq_of_has_eq fun r => (h r).trans (FaultSet.empty_has r).symm

/-- Settles O8: the marks are tested first, by `turn` for a step and by `command` for every command. -/
theorem noStepAfterAFaultOrARefusal : Obligations.NoStepAfterAFaultOrARefusal := by
  refine ⟨fun s i => ⟨fun hf => ?_, fun hf hr => ?_⟩, fun f r => ⟨?_, ?_, fun r' hne => ?_⟩, FaultSet.isEmpty_iff⟩
  · exact ⟨step_afterFault hf, exec_afterFault i hf⟩
  · exact ⟨step_afterRefusal hf hr, exec_afterRefusal i hf hr⟩
  · simp
  · exact FaultSet.add_not_empty f r
  · simp [hne.symm]

/-! ### A command issued during an operation (R236) -/

/-- Settles O11: nothing in progress is the test after the two marks, and comes before the operands are looked at. -/
theorem overlappingCommandIsRefused : Obligations.OverlappingCommandIsRefused := by
  intro s i hu hbusy
  obtain ⟨hfaults, hrefused⟩ := hu
  have hcommand : command i s (bodyOf i) = .next (refuse .concurrent s) := by simp [command, hfaults, hrefused, hbusy]
  exact (exec_body i s).trans hcommand

/-! ### SET_RANGE (R232) -/

/-- SET_RANGE takes the levels 0 and 1 (30_encoding.md R75). -/
theorem setRange_not_refused (cfg : Params) {level : Byte} (h : level = 0 ∨ level = 1) :
    ¬ operandRefused cfg (.setRange level) := fun ⟨h0, h1⟩ => h.elim h0 h1

/-- On the two levels, the bit that the body drives is the level. -/
theorem level_setWidth {level : Byte} (h : level = 0 ∨ level = 1) : level.setWidth 1 = if level = 0 then 0 else 1 := by
  obtain rfl | rfl := h <;> rfl

/-- Settles O60: the operand check, and a body that writes the output and is done. -/
theorem setRangeDrivesTheOutput : Obligations.SetRangeDrivesTheOutput := by
  intro s level hs
  obtain ⟨-, hidle⟩ := id hs
  refine ⟨rfl, fun hlevel => ?_, fun h0 h1 => exec_badOperand hs ⟨h0, h1⟩⟩
  rw [exec_of_done (i := .setRange level) hs (setRange_not_refused s.cfg hlevel) rfl hidle, level_setWidth hlevel]
  rfl

end Sys2Proof.Machine
end

section
/-! PROOFS. Which register of the reference slave a bus primitive can change (92_eei_decisions.md D39): the one its action stores
to, which is none but for the action of SEND_BYTE. -/

namespace Sys2Proof.Machine

/-- The registers that the action of a primitive, launched in the state, stores to: at most one. -/
def Prim.storedRegisters (p : Prim) (s : State) (a : Nat) : Prop :=
  ∃ x, s.env.slave.storesTo (p.action s.ctl.phase) = some x ∧ x.toNat = a

theorem Prim.storedRegisters_sendByte {b : Byte} {s : State} {a : Nat} :
    (Prim.sendByte b).storedRegisters s a ↔ ∃ x, s.env.slave.storeAddr = some x ∧ x.toNat = a := Iff.rfl

theorem Prim.not_storedRegisters {p : Prim} (hp : ∀ b, p ≠ .sendByte b) (s : State) (a : Nat) : ¬ p.storedRegisters s a := by
  rintro ⟨x, hx, -⟩
  rw [Prim.storesTo_eq_none hp] at hx
  cases hx

theorem bodyOf_prim (p : Prim) : bodyOf p.instr = runPrim p := by
  cases p <;> rfl

/-- A primitive issued as a command stores at most where its action does, whether it is refused, faults, hangs or completes. -/
theorem exec_prim_stores {p : Prim} {s t : State} (h : exec p.instr s = .next t) : MemKeeps (p.storedRegisters s) s t := by
  obtain ⟨-, ⟨r, rfl⟩ | ⟨-, -, hf⟩⟩ := exec_next h
  · exact .of_slave rfl rfl
  · rw [bodyOf_prim] at hf
    exact (MemKeeps.rel _).finish (runPrim_stores fun x hx => ⟨x, hx, rfl⟩) hf

/-- Settles O21: a register that is read differently is the one the primitive's action stores to. -/
theorem onlyADataByteChangesTheSlave : Obligations.OnlyADataByteChangesTheSlave := by
  intro p s t hs h a ha
  refine (exec_prim_stores h).reads hs.memory a ?_
  cases p with
  | sendByte b =>
    rw [Prim.storedRegisters_sendByte]
    rintro ⟨x, hx, hxa⟩
    exact ha x hx hxa
  | _ => exact Prim.not_storedRegisters (by simp) s a

end Sys2Proof.Machine
end
